-- ==== Sys2Proof/Word.lean ====
section
/-! DEFINITION. The two word types of PICA-SCE: samples are 8 bits, registers and addresses are 32 bits (R9, R152). -/

namespace Sys2Proof

/-- One sample or data-space byte (R9, R152). -/
abbrev Byte := BitVec 8

/-- One register value, command word or data-space address (R9, R50). -/
abbrev Word := BitVec 32

end Sys2Proof
end

