-- ==== Sys2Proof/Config.lean ====
section
/-! DEFINITION. What is fixed outside a program: the datapath constants of R10, the platform parameters of R8, and the
free values (constants with no body) that stand for everything the spec leaves unspecified. -/

namespace Sys2Proof

/-! ## Datapath constants (R10, taken as the source prints them: log entry 19) -/

/-- `LUMA_R`. -/
def Config.lumaR : Nat := 19595
/-- `LUMA_G`. -/
def Config.lumaG : Nat := 38470
/-- `LUMA_B`. -/
def Config.lumaB : Nat := 7471
/-- `LUMA_SHIFT`. -/
def Config.lumaShift : Nat := 16
/-- `AMOUNT_DIV`. -/
def Config.amountDiv : Int := 250
/-- `UNSHARP_RADIUS`. -/
def Config.unsharpRadius : Nat := 3
/-- `UNSHARP_STEPS`. -/
def Config.unsharpSteps : Nat := 3
/-- `STEPS_DEFAULT`, the reset value of STEPS. -/
def Config.stepsDefault : BitVec 8 := 1
/-- What ID reads (R51). -/
def Config.idWord : Word := 0x50494341#32
/-- What VERSION reads (R51). -/
def Config.versionWord : Word := 1#32
/-- The size of the register window in bytes (R50). -/
def Config.windowBytes : Nat := 0x50000
/-- The size of the data space in bytes (R150). -/
def Config.spaceBytes : Nat := 4294967296

/-! ## Platform parameters (R8) -/

/-- A run of data-space addresses `base .. base + size - 1`. -/
structure Region where
  base : Nat
  size : Nat
  deriving DecidableEq, Repr

/-- The parameters R8 gives a model as arguments. `MEM_OK(a)` is false exactly on `holes`: any predicate on the finite
data space is such a list. `devices` are the addresses whose memory is not idempotent (R154). `cacheBytes` is the size of a
line of the host's caches, which R160 speaks of and no rule fixes. Log entries 2, 12. -/
structure Platform where
  regBase    : Nat
  maxLine    : Nat
  holes      : List Region
  devices    : List Region
  coherent   : Bool
  cacheBytes : Nat
  deriving DecidableEq, Repr

/-- `REG_BASE` in units of its alignment, 0x80000 (R8). -/
opaque Config.regBaseIndex : Nat
/-- Which legal `MAX_LINE` (R8). -/
opaque Config.maxLineIndex : Nat
/-- Where `MEM_OK` is false (R8). -/
opaque Config.holes : List Region
/-- Where the data space is not idempotent memory (R154). -/
opaque Config.devices : List Region
/-- `DMA_COHERENT` (R8). -/
opaque Config.coherent : Bool
/-- Which size, of 1 byte or more, a line of the host's caches has (R160). -/
opaque Config.cacheIndex : Nat

/-- The platform a machine is reset in: every legal choice of R8's parameters, and no other. -/
def Config.platform : Platform where
  regBase    := Config.regBaseIndex * 0x80000
  maxLine    := Config.maxLineIndex % 65535 + 1
  holes      := Config.holes
  devices    := Config.devices
  coherent   := Config.coherent
  cacheBytes := Config.cacheIndex + 1

/-- The choices among lines and pixels that are still to come at reset (R156 b, log entry 6). -/
opaque Config.order : List Nat

/-! ## Free values (log entries 3, 4, 5) -/

/-- The `n`th value drawn for something the spec leaves unspecified. -/
opaque Config.freeWord : Nat → Word
/-- Entry `k` of a RAM whose contents became unspecified at draw number `epoch`. -/
opaque Config.ramCell : (epoch : Nat) → (k : Nat) → Word
/-- What a data-space byte that nothing has written reads as. -/
opaque Config.initByte : (a : Nat) → Byte

end Sys2Proof
end

