-- ==== Sys2Proof/Syntax.lean ====
section
/-! DEFINITION. The syntax: the eleven commands of the opcode map (R202), the raw fields of the one format CMD32 (R200),
the register names (R50), the host's transactions (R205) and the textual host program (R206, R207). -/

namespace Sys2Proof

/-- The kernel variant, the VAR bit: `T` weighted (triangular), `U` uniform (box) (R200). -/
inductive Variant where
  | T
  | U
  deriving DecidableEq, Repr

/-- The commands, one per row of the opcode map (R202). A command word carries no operand (R201). -/
inductive Instr where
  | nop
  | mapgen
  | winitT
  | winitU
  | slideT
  | slideU
  | blurT
  | blurU
  | grey
  | diffthr
  | unsharp
  deriving DecidableEq, Repr

/-- The fields of the format CMD32 (R200). -/
structure CmdWord where
  rsv : BitVec 27
  var : BitVec 1
  op  : BitVec 4
  deriving DecidableEq, Repr

/-- The names of the register window (R50). -/
inductive RegName where
  | id | version | caps | ctrl | status | cmd | errAddr | pos
  | srcAddr | dstAddr | workAddr | len | width | height | radius | steps
  | amount | threshold | lineLen | lineStride
  | wsum | insum | outsum | sp
  | wstore (k : Nat)
  | map (k : Nat)
  deriving DecidableEq, Repr

/-- The width of a bus access to the register window (R153, R407). -/
inductive AccessWidth where
  | byte
  | half
  | word
  | dword
  deriving DecidableEq, Repr

/-- One step of the HOST agent: a register transaction (R205), a data-space byte access (R155), the cache maintenance of
R160, the reset input (R480), the polling loop WAIT (R207), or no access at all. A data address is an exact integer (R163):
one past the top of the data space is an address that does not answer (log entry 15). -/
inductive HostOp where
  | regWrite (off : Nat) (w : AccessWidth) (v : Word)
  | regRead (off : Nat) (w : AccessWidth)
  | memWrite (a : Nat) (v : Byte)
  | memRead (a : Nat)
  | clean (a : Nat)
  | invalidate (a : Nat)
  | resetPin
  | wait
  | pause
  deriving DecidableEq, Repr

/-- How many engine steps happen before the host's next step (R401, R409): all of the command in flight, or at most `n`.
Log entry 1. -/
inductive Lead where
  | untilDone
  | steps (n : Nat)
  deriving DecidableEq, Repr

/-- A pending host step and the number of engine steps that follow it. -/
structure HostEvent where
  op   : HostOp
  lead : Lead
  deriving DecidableEq, Repr

/-- One line of a host program (R206) or a pseudo-instruction (R207). -/
inductive HostLine where
  | wr (r : RegName) (v : Word)
  | rd (r : RegName)
  | cmd (i : Instr)
  | wait
  | mem (a : Word) (bytes : List Byte)
  | clr
  | fastblur (var : Variant) (src dst w h r st : Word)
  | unsharpm (src work w h amt thr : Word)
  | line (src dst l s r : Word)
  deriving DecidableEq, Repr

end Sys2Proof
end

