-- ==== Sys2Proof/Machine/State.lean ====
section
/-! DEFINITION. The machine's state as plain data: the register window (R50), the hidden state of R76 and R78, the data
space, and the model's own input queue; the reasons a step can stop; and the state after reset (R480). -/

namespace Sys2Proof.Machine

/-- The data space: (address, byte) pairs, addresses strictly rising; an address that is not listed holds no byte that
anything has written (log entry 4). -/
abbrev Memory := List Host.Cell

/-- A RAM of `w`-bit entries: the entries written since its contents became unspecified at draw number `epoch` (R72, R73,
R480), indices strictly rising. -/
structure Ram (w : Nat) where
  epoch : Nat
  cells : List (Nat × BitVec w)
  deriving DecidableEq, Repr

/-- The error codes of R430; codes 7..15 are reserved and never reported. -/
inductive ErrCode where
  | none
  | illegal
  | dim
  | len
  | range
  | overlap
  | busErr
  deriving DecidableEq, Repr

/-- CTRL bits 2:0 (R53). -/
structure Ctrl where
  doneIE : Bool
  errIE  : Bool
  lostIE : Bool
  deriving DecidableEq, Repr

/-- STATUS but for BUSY, which is whether a command is in flight (R54, R77). -/
structure Flags where
  done : Bool
  err  : Bool
  lost : Bool
  code : ErrCode
  deriving DecidableEq, Repr

/-- The operand registers (R58); also the operand snapshot (R59). -/
structure OperandRegs where
  srcAddr    : Word
  dstAddr    : Word
  workAddr   : Word
  len        : Word
  width      : BitVec 16
  height     : BitVec 16
  radius     : BitVec 8
  steps      : BitVec 8
  amount     : BitVec 16
  threshold  : BitVec 16
  lineLen    : BitVec 16
  lineStride : BitVec 16
  deriving DecidableEq, Repr

/-- The window registers and WSTORE (R57, R70-R72): what a line of a whole-image command may keep a copy of (R301). -/
structure LineRegs where
  wsum   : Word
  insum  : Word
  outsum : Word
  sp     : BitVec 9
  pos    : BitVec 17
  wstore : Ram 8
  deriving DecidableEq, Repr

/-- The window: its registers and RAMs (R57, R70-R73). -/
structure Window extends LineRegs where
  map : Ram 32
  deriving DecidableEq, Repr

/-- The data-space bytes a command may read and write (R165). -/
structure Footprint where
  reads  : List Nat
  writes : List Nat
  deriving DecidableEq, Repr

/-- One engine step of a pseudocode: one memory access, or one update of a register or RAM entry (R401, R409; log entry
16). `t` is the trailing slot `(SP + r + 1) mod d`, and `v` the byte last read. -/
inductive MicroOp where
  /-- `MAP[i] <- v` (R252, R301) -/
  | setMap (i v : Nat)
  /-- WINIT: the sample of offset `k` is read from `a` into `acc`, `ins`, `outs` (R255, R256) -/
  | sample (var : Variant) (r : Nat) (k : Int) (a : Nat)
  /-- WINIT, after its last read (R254): `WS[j] <-` the `j`th sample read -/
  | fillSlot (j : Nat)
  /-- `WSUM <- acc` (R255) -/
  | setWsum
  /-- `INSUM <- ins` (R255) -/
  | setInsum
  /-- `OUTSUM <- outs` (R255) -/
  | setOutsum
  /-- `SP <- r` (R255) -/
  | setSp (r : Nat)
  /-- `POS <- x` (R255, R259) -/
  | setPos (x : Nat)
  /-- SLIDE part 1: the output byte goes to `a` (R259, R260) -/
  | emit (var : Variant) (r : Nat) (a : Nat)
  /-- SLIDE.T part 2: `WSUM <- WSUM - OUTSUM` (R259) -/
  | dropLeft
  /-- SLIDE part 2: `OUTSUM <- OUTSUM - WS[t]` (R259, R260) -/
  | dropLeaving (r : Nat)
  /-- SLIDE.U part 2: `WSUM <- WSUM - WS[t]` (R260) -/
  | dropSample (r : Nat)
  /-- SLIDE.T part 3: `v = MemRead(base + MAP[i])` (R259) -/
  | takeMapped (i base : Nat)
  /-- `v = MemRead(a)` (R260, R301, R355) -/
  | take (a : Nat)
  /-- SLIDE part 3: `WS[t] <- v` (R259, R260) -/
  | enterSlot (r : Nat)
  /-- SLIDE part 3: `INSUM <- INSUM + v` (R259, R260) -/
  | enterInsum
  /-- SLIDE.T part 3: `WSUM <- WSUM + INSUM` (R259) -/
  | addRight
  /-- SLIDE.U part 3: `WSUM <- WSUM + v` (R260) -/
  | addSample
  /-- SLIDE part 4: `SP <- (SP + 1) mod d` (R259, R260) -/
  | advanceSp (r : Nat)
  /-- SLIDE part 4: `OUTSUM <- OUTSUM + WS[SP]` (R259, R260) -/
  | centreOut
  /-- SLIDE part 4: `INSUM <- INSUM - WS[SP]` (R259, R260) -/
  | centreIn
  /-- BLUR's copy: `MemWrite(a, v)` (R301) -/
  | store (a : Nat)
  /-- GREY: R, G, B are read (R352) -/
  | loadRed (a : Nat)
  | loadGreen (a : Nat)
  | loadBlue (a : Nat)
  /-- GREY: the luma byte is written to `a` (R352) -/
  | storeLuma (a : Nat)
  /-- DIFFTHR: `g` is read (R355) -/
  | loadLuma (a : Nat)
  /-- DIFFTHR: `b` is read from `a`; if `|diff| > THRESHOLD` the three lanes at `lane` follow (R353, R355) -/
  | loadBlurred (a lane : Nat)
  /-- DIFFTHR: the corrected colour byte is written (R354, R355) -/
  | storeLane (a : Nat)
  deriving DecidableEq, Repr

/-- The variables of a pseudocode that live between two of its accesses. -/
structure Latch where
  /-- WINIT: the samples read, in order -/
  samples : List Byte
  /-- WINIT: `acc`, `ins`, `outs` -/
  acc  : Nat
  ins  : Nat
  outs : Nat
  /-- `v`: the byte last read by a SLIDE, a copy or a colour lane -/
  held : Byte
  /-- GREY: `R`, `G`, `B` -/
  red   : Byte
  green : Byte
  blue  : Byte
  /-- DIFFTHR: `g` and `corr` -/
  luma : Byte
  corr : Int
  deriving DecidableEq, Repr

/-- The latches when a pseudocode starts. -/
def Latch.fresh : Latch := ⟨[], 0, 0, 0, 0, 0, 0, 0, 0, 0⟩

/-- One line of a sweep, one pixel or one copied byte in progress, or the whole of a line command: the step that comes next
and those after it, its variables, and the window registers it keeps a copy of (R156, R301). -/
structure Track where
  next  : MicroOp
  ops   : List MicroOp
  latch : Latch
  regs  : LineRegs
  deriving DecidableEq, Repr

/-- The tracks of one phase that are not done, in any order (R156 b); the next phase waits for all of them (R156 c). -/
structure Phase where
  head   : Track
  others : List Track
  deriving DecidableEq, Repr

/-- All tracks of a phase. -/
def Phase.tracks (p : Phase) : List Track := p.head :: p.others

/-- The command in flight while BUSY = 1 (R59, R76, R78, R155, R165). -/
structure InFlight where
  cmd     : Instr
  snap    : OperandRegs
  foot    : Footprint
  /-- the WSTORE entries a line command writes (R251) -/
  slots   : List Nat
  /-- the sequencer position: what is left of the pseudocode -/
  todo    : List Phase
  /-- owned bytes the host has written: every later engine read of one gives any value (R155) -/
  tainted : List Nat
  deriving DecidableEq, Repr

/-- What the last host access was answered. -/
inductive Reply where
  | none
  | ack
  | data (v : Word)
  | byte (v : Byte)
  /-- the bus-error response of R407, which is how a bad access faults the host -/
  | busError
  deriving DecidableEq, Repr

/-- The whole machine. -/
structure State where
  /-- the platform parameters (R8); no step changes them -/
  plat      : Platform
  ctrl      : Ctrl
  flags     : Flags
  cmd       : Word
  errAddr   : Word
  ops       : OperandRegs
  win       : Window
  /-- the command in flight; BUSY = 1 exactly when there is one (R54) -/
  inflight  : Option InFlight
  mem       : Memory
  /-- bytes the host has stored to a cache line of its own that is not written back (R160) -/
  hostDirty : List Nat
  /-- bytes an ended command counts as having written (log entry 12) that no host line over them has caught up with since
  (R160) -/
  hostOver  : List Nat
  /-- the numbers of the host cache lines that overlap the write footprint of an ended command and are not invalidated
  since (R160) -/
  hostStale : List Nat
  /-- the host has made a bad register access and takes no further step (R407; log entry 8) -/
  hostFault : Bool
  /-- the pending host steps, first to come first: the machine's input -/
  inbox     : List HostEvent
  /-- how far the engine gets before the next host step -/
  lead      : Lead
  reply     : Reply
  /-- which track each engine step takes where R156 (b) leaves the choice: the machine's input too (log entry 6) -/
  order     : List Nat
  /-- how many free values have been drawn; the model's own field (log entry 5) -/
  draws     : Nat
  deriving DecidableEq, Repr

/-- What stops the machine. -/
inductive Fault where
  /-- Raised at acceptance by a command whose footprint meets memory that is not idempotent: the spec's results hold
  only for idempotent memory (R154). Safe: the model stops where the hardware goes on. -/
  | nonIdempotentBuffer
  deriving DecidableEq, Repr

/-- What the machine refuses. -/
inductive Refusal where
  /-- Raised by an arm of `exec` that has no meaning yet. Safe. -/
  | notModelled (mnemonic : String)
  /-- Raised at acceptance by a command whose footprint meets the engine's own register window: "A model refuses a command
  whose footprint (rule R165) meets the register window" (R151). Safe: the model stops where the hardware goes on. -/
  | bufferInRegisterWindow
  deriving DecidableEq, Repr

/-- The operand registers after reset: 0, except STEPS = 1 (R480). -/
def OperandRegs.reset : OperandRegs := ⟨0, 0, 0, 0, 0, 0, 0, Config.stepsDefault, 0, 0, 0, 0⟩

/-- The window after reset: registers 0, RAMs unspecified (R480). -/
def Window.reset (wstoreEpoch mapEpoch : Nat) : Window := ⟨⟨0, 0, 0, 0, 0, ⟨wstoreEpoch, []⟩⟩, ⟨mapEpoch, []⟩⟩

/-- The machine right after a hardware reset (R480, R481): idle, every register at the reset value of R50's table, WSTORE
and MAP unspecified (free values, log entry 3), memory with nothing listed (log entry 4), no host step pending, and any
order of lines to come (log entry 6). -/
def State.reset : State where
  plat      := Config.platform
  ctrl      := ⟨false, false, false⟩
  flags     := ⟨false, false, false, .none⟩
  cmd       := 0
  errAddr   := 0
  ops       := OperandRegs.reset
  win       := Window.reset 0 1
  inflight  := none
  mem       := []
  hostDirty := []
  hostOver  := []
  hostStale := []
  hostFault := false
  inbox     := []
  lead      := .untilDone
  reply     := .none
  order     := Config.order
  draws     := 2

end Sys2Proof.Machine
end

