-- ==== Sys2Proof/Machine/Memory.lean ====
section
/-! DEFINITION. Sparse storage (the data space, WSTORE and MAP) in its one canonical form, and the platform's address
predicates (R8, R50, R154, R161). -/

namespace Sys2Proof.Machine

/-- The value listed at key `a`. -/
def Cells.get? {α : Type} : List (Nat × α) → Nat → Option α
  | [], _ => none
  | (k, v) :: m, a => if k = a then some v else Cells.get? m a

/-- Lists `v` at key `a`, keys kept strictly rising. -/
def Cells.set {α : Type} : List (Nat × α) → Nat → α → List (Nat × α)
  | [], a, v => [(a, v)]
  | (k, x) :: m, a, v =>
    if a < k then (a, v) :: (k, x) :: m
    else if a = k then (a, v) :: m
    else (k, x) :: Cells.set m a v

/-- The canonical form: every key is at least `lo` and below `bound`, keys strictly rising. -/
def Cells.wfFrom {α : Type} (bound : Nat) : Nat → List (Nat × α) → Bool
  | _, [] => true
  | lo, (k, _) :: m => decide (lo ≤ k) && decide (k < bound) && Cells.wfFrom bound (k + 1) m

/-- The canonical form of a data space of 2^32 bytes (R150). -/
def Memory.wf (m : Memory) : Bool := Cells.wfFrom Config.spaceBytes 0 m

/-- What an unlisted address reads as (log entry 4). -/
def Memory.unlisted (a : Nat) : Byte := Config.initByte a

/-- The byte at address `a`. -/
def Memory.read (m : Memory) (a : Nat) : Byte := (Cells.get? m a).getD (Memory.unlisted a)

/-- The data space with byte `v` at address `a` (R14, `MemWrite`). -/
def Memory.write (m : Memory) (a : Nat) (v : Byte) : Memory := Cells.set m a v

/-- Entry `k` of a RAM: what was written there, else a free value (R480, R482). -/
def Ram.get {w : Nat} (r : Ram w) (k : Nat) : BitVec w :=
  (Cells.get? r.cells k).getD ((Config.ramCell r.epoch k).setWidth w)

/-- A RAM with `v` in entry `k`. -/
def Ram.set {w : Nat} (r : Ram w) (k : Nat) (v : BitVec w) : Ram w := { r with cells := Cells.set r.cells k v }

/-- The canonical form of a RAM of `n` entries. -/
def Ram.wf {w : Nat} (n : Nat) (r : Ram w) : Bool := Cells.wfFrom n 0 r.cells

end Sys2Proof.Machine

namespace Sys2Proof

/-- Whether a region holds an address. -/
def Region.holds (r : Region) (a : Nat) : Bool := decide (r.base ≤ a) && decide (a < r.base + r.size)

/-- `MEM_OK(a)` (R8): an access at byte address `a` completes without a bus error. An address of 2^32 or more does not
exist (R150); no accepted command makes one (R163). -/
def Platform.memOk (p : Platform) (a : Nat) : Bool :=
  decide (a < Config.spaceBytes) && !(p.holes.any (Region.holds · a))

/-- Whether a data-space address is one of the engine's own register window (R50, R151). -/
def Platform.inWindow (p : Platform) (a : Nat) : Bool :=
  decide (p.regBase ≤ a) && decide (a < p.regBase + Config.windowBytes)

/-- Whether a data-space address is not idempotent memory (R154). -/
def Platform.inDevice (p : Platform) (a : Nat) : Bool := p.devices.any (Region.holds · a)

/-- The number of the host's cache line that byte `a` lies in (R160; log entry 12). -/
def Platform.cacheLine (p : Platform) (a : Nat) : Nat := a / p.cacheBytes

/-- Whether two bytes lie in one line of the host's caches. -/
def Platform.sameLine (p : Platform) (a b : Nat) : Bool := p.cacheLine a == p.cacheLine b

end Sys2Proof
end

