-- ==== Sys2Proof/Machine/Flags.lean ====
section
/-! DEFINITION. STATUS, CTRL and the interrupt (R53, R54, R77, R436): the engine's only flags. -/

namespace Sys2Proof.Machine

/-- STATUS.BUSY: a command is in flight (R54, R401). -/
def State.busy (s : State) : Bool := s.inflight.isSome

/-- The number of an error code (R430). -/
def ErrCode.toNat : ErrCode → Nat
  | .none => 0
  | .illegal => 1
  | .dim => 2
  | .len => 3
  | .range => 4
  | .overlap => 5
  | .busErr => 6

/-- STATUS as a register reads it: BUSY 0, DONE 1, ERR 2, LOST 3, ERRCODE 11:8 (R54). -/
def State.statusWord (s : State) : Word :=
  BitVec.ofNat 32 (s.busy.toNat + 2 * s.flags.done.toNat + 4 * s.flags.err.toNat + 8 * s.flags.lost.toNat
    + 256 * s.flags.code.toNat)

/-- CTRL as a register reads it: the three enables; SRST reads 0 (R53). -/
def State.ctrlWord (s : State) : Word :=
  BitVec.ofNat 32 (s.ctrl.doneIE.toNat + 2 * s.ctrl.errIE.toNat + 4 * s.ctrl.lostIE.toNat)

/-- The enables a CTRL write of `v` leaves (R53). -/
def Ctrl.ofWord (v : Word) : Ctrl := ⟨v.getLsbD 0, v.getLsbD 1, v.getLsbD 2⟩

/-- The interrupt output (R436). -/
def State.irq (s : State) : Bool :=
  (s.flags.done && s.ctrl.doneIE) || (s.flags.err && s.ctrl.errIE) || (s.flags.lost && s.ctrl.lostIE)

/-- What acceptance does to the flags: DONE, ERR and ERRCODE cleared, LOST kept (R400). -/
def Flags.accepted (f : Flags) : Flags := { f with done := false, err := false, code := .none }

/-- What completion does to the flags (R404). -/
def Flags.completed (f : Flags) : Flags := { f with done := true }

/-- What an error does to the flags; DONE is not touched (R433). -/
def Flags.failed (f : Flags) (e : ErrCode) : Flags := { f with err := true, code := e }

/-- A STATUS write of `v` clears DONE and LOST where `v` has a 1 (R54). -/
def Flags.clear (f : Flags) (v : Word) : Flags :=
  { f with done := f.done && !v.getLsbD 1, lost := f.lost && !v.getLsbD 3 }

end Sys2Proof.Machine
end

