-- ==== Sys2Proof/Machine/Operands.lean ====
section
/-! DEFINITION. Every operand form of the commands: values of the snapshot (R59, R250, R300, R350), edge-clamped sample
addresses (R15), footprints (R165) and the acceptance checks over them (R432), all over exact integers (R13, R163). -/

namespace Sys2Proof.Machine

/-! ## Operand values -/

/-- `L = LINE_LEN` (R66, R250). -/
def OperandRegs.lineL (o : OperandRegs) : Nat := o.lineLen.toNat
/-- `s = LINE_STRIDE` (R66, R250). -/
def OperandRegs.stride (o : OperandRegs) : Nat := o.lineStride.toNat
/-- `r = RADIUS` (R63, R250). -/
def OperandRegs.r (o : OperandRegs) : Nat := o.radius.toNat
/-- `n = w*h` (R300, R350). -/
def OperandRegs.n (o : OperandRegs) : Nat := o.width.toNat * o.height.toNat
/-- `SRC` (R60). -/
def OperandRegs.src (o : OperandRegs) : Nat := o.srcAddr.toNat
/-- `DST` (R60). -/
def OperandRegs.dst (o : OperandRegs) : Nat := o.dstAddr.toNat
/-- `WORK` (R60). -/
def OperandRegs.work (o : OperandRegs) : Nat := o.workAddr.toNat

/-- `d = 2r + 1` (R15). -/
def diameter (r : Nat) : Nat := 2 * r + 1

/-- The divisor of a variant: `(r+1)^2` for .T, `d` for .U (R257). -/
def divisor : Variant → Nat → Nat
  | .T, r => (r + 1) * (r + 1)
  | .U, r => diameter r

/-- The coefficient of offset `k`: `r + 1 - |k|` for .T, 1 for .U (R15). -/
def weight : Variant → Nat → Int → Nat
  | .T, r, k => r + 1 - k.natAbs
  | .U, _, _ => 1

/-- `clamp(v, lo, hi) = min(max(v, lo), hi)` (R13). -/
def clamp (v lo hi : Int) : Int := min (max v lo) hi

/-- The edge-clamped index `c(j) = clamp(j, 0, L-1)` (R15). -/
def clampIndex (L : Nat) (j : Int) : Nat := (clamp j 0 ((L : Int) - 1)).toNat

/-- The line index whose sample enters the window at step `i`: `min(i + r + 1, L - 1)` (R252, R260). -/
def enteringIndex (L r i : Nat) : Nat := min (i + r + 1) (L - 1)

/-- The offset of the `j`th sample WINIT reads: `k = -r, -r+1, ..., r` (R254). -/
def sampleOffset (r j : Nat) : Int := (j : Int) - (r : Int)

/-! ## Footprints -/

/-- The bytes `base + j*s`, `0 <= j < L` (R165). -/
def lineAddrs (base L s : Nat) : List Nat := (List.range L).map (fun j => base + j * s)

/-- The bytes `base + MAP[i]`, `0 <= i < L` (R165). -/
def mappedAddrs (map : Ram 32) (base L : Nat) : List Nat := (List.range L).map (fun i => base + (map.get i).toNat)

/-- The bytes `[base, base + n)` (R165). -/
def span (base n : Nat) : List Nat := (List.range n).map (fun q => base + q)

/-- The colour bytes `base + 4q + c`, `q < n`, `c in {0,1,2}`; never an alpha byte (R165, R351). -/
def colourAddrs (base n : Nat) : List Nat :=
  (List.range n).flatMap (fun q => [base + 4 * q, base + 4 * q + 1, base + 4 * q + 2])

/-- Every byte of a footprint. -/
def Footprint.all (f : Footprint) : List Nat := f.reads ++ f.writes

/-- Whether a footprint owns a byte (R155). -/
def Footprint.owns (f : Footprint) (a : Nat) : Bool := f.reads.contains a || f.writes.contains a

/-- The WSTORE entries `(SP + r + 1 + i) mod d`, `i < L`, that a SLIDE writes (R251, R257; log entry 17). -/
def slideSlots (sp r L : Nat) : List Nat := (List.range L).map (fun i => (sp + r + 1 + i) % diameter r)

/-! ## Acceptance checks (R432) -/

/-- The first check that fails gives the error (R432). -/
def firstError : List (Bool × ErrCode) → Option ErrCode
  | [] => none
  | (bad, e) :: rest => if bad then some e else firstError rest

/-- E_DIM of a line command: `LINE_LEN = 0`, `LINE_LEN > MAX_LINE` or `LINE_STRIDE = 0`. -/
def badLineDim (o : OperandRegs) (p : Platform) : Bool :=
  o.lineL == 0 || decide (p.maxLine < o.lineL) || o.stride == 0

/-- E_DIM of a whole-image command: `WIDTH = 0`, `HEIGHT = 0`, `WIDTH > MAX_LINE` or `HEIGHT > MAX_LINE`. -/
def badImageDim (o : OperandRegs) (p : Platform) : Bool :=
  o.width.toNat == 0 || o.height.toNat == 0 || decide (p.maxLine < o.width.toNat) || decide (p.maxLine < o.height.toNat)

/-- E_LEN: LEN is not `k*w*h` (`k` = 1 for BLUR, 4 for GREY, DIFFTHR and UNSHARP). -/
def badLen (k : Nat) (o : OperandRegs) : Bool := o.len.toNat != k * o.n

/-- E_RANGE: an address of the footprint is above 0xFFFFFFFF. -/
def pastTop (a : Nat) : Bool := decide (0xFFFFFFFF < a)

/-- E_OVERLAP: `[a, a+m)` meets `[b, b+k)`. -/
def meets (a m b k : Nat) : Bool := decide (a < b + k) && decide (b < a + m) && decide (0 < m) && decide (0 < k)

end Sys2Proof.Machine
end

