-- ==== Sys2Proof/Machine/Datapath.lean ====
section
/-! DEFINITION. What each step of a pseudocode does on values alone: the window accumulator (R255, R256), sliding (R259, R260),
luma (R352), correction and lane update (R353, R354). -/

namespace Sys2Proof.Machine

/-- One sample of WINIT: `v` is stored at `k + r` and accumulated; `k > 0` goes to `ins`, the others to `outs` (R255, R256). -/
def Latch.addSample (var : Variant) (r : Nat) (k : Int) (v : Byte) (l : Latch) : Latch :=
  { l with
    samples := l.samples ++ [v]
    acc  := l.acc + weight var r k * v.toNat
    ins  := if 0 < k then l.ins + v.toNat else l.ins
    outs := if 0 < k then l.outs else l.outs + v.toNat }

/-- The trailing slot `t = (SP + r + 1) mod d` (R257). -/
def LineRegs.trailing (w : LineRegs) (r : Nat) : Nat := (w.sp.toNat + r + 1) % diameter r

/-- `WS[t]`, the sample that leaves (R259, R260). -/
def LineRegs.leaving (w : LineRegs) (r : Nat) : Word := (w.wstore.get (w.trailing r)).setWidth 32

/-- `u = WS[SP]`, the sample at the pointer (R259, R260). -/
def LineRegs.centre (w : LineRegs) : Word := (w.wstore.get w.sp.toNat).setWidth 32

/-- The emitted byte `u8(WSUM // divisor)` (R257, R264). -/
def LineRegs.emitted (w : LineRegs) (var : Variant) (r : Nat) : Byte :=
  BitVec.ofNat 8 (w.wsum.toNat / divisor var r)

/-- `WS[j] <-` the `j`th sample read; a sample that was not read is not written (R254). -/
def LineRegs.fill (w : LineRegs) (j : Nat) (samples : List Byte) : LineRegs :=
  match samples[j]? with
  | none => w
  | some v => { w with wstore := w.wstore.set j v }

/-- `(R*19595 + G*38470 + B*7471) >> 16` (R352). -/
def luma (red green blue : Byte) : Byte :=
  BitVec.ofNat 8
    ((red.toNat * Config.lumaR + green.toNat * Config.lumaG + blue.toNat * Config.lumaB) >>> Config.lumaShift)

/-- `diff = g - b`, signed (R355). -/
def lumaDiff (g b : Byte) : Int := (g.toNat : Int) - (b.toNat : Int)

/-- `corr = tdiv(diff * AMOUNT, 250)`, truncated toward zero (R353). -/
def corrOf (diff : Int) (amount : Nat) : Int := Int.tdiv (diff * (amount : Int)) Config.amountDiv

/-- Whether a pixel is corrected: `|diff| > THRESHOLD`, strictly (R355). -/
def exceeds (g b : Byte) (threshold : Nat) : Bool := decide (threshold < (lumaDiff g b).natAbs)

/-- `clamp(lane + corr, 0, 255)` (R354). -/
def correctedLane (v : Byte) (corr : Int) : Byte := BitVec.ofInt 8 (clamp ((v.toNat : Int) + corr) 0 255)

/-! ## One step of a pseudocode -/

/-- What a step works on: the variables of its pseudocode, the window registers in use, and MAP. -/
structure Vars where
  latch : Latch
  regs  : LineRegs
  map   : Ram 32
  deriving DecidableEq, Repr

/-- The memory access of a step: none, `MemRead(a, 1)` or `MemWrite(a, 1, v)` (R14). -/
inductive Access where
  | none
  | read (a : Nat)
  | write (a : Nat) (v : Byte)
  deriving DecidableEq, Repr

/-- The access each step makes. -/
def MicroOp.access (v : Vars) : MicroOp → Access
  | .sample _ _ _ a | .take a | .loadRed a | .loadGreen a | .loadBlue a | .loadLuma a | .loadBlurred a _ => .read a
  | .takeMapped i base => .read (base + (v.map.get i).toNat)
  | .emit var r a => .write a (v.regs.emitted var r)
  | .store a => .write a v.latch.held
  | .storeLuma a => .write a (luma v.latch.red v.latch.green v.latch.blue)
  | .storeLane a => .write a (correctedLane v.latch.held v.latch.corr)
  | .setMap _ _ | .fillSlot _ | .setWsum | .setInsum | .setOutsum | .setSp _ | .setPos _ | .dropLeft | .dropLeaving _
  | .dropSample _ | .enterSlot _ | .enterInsum | .addRight | .addSample | .advanceSp _ | .centreOut | .centreIn => .none

/-- The variables after a step; `b` is the byte it read, if it reads one. Every update of a sum is modulo 2^32 (R264). -/
def MicroOp.update (o : OperandRegs) (b : Byte) (v : Vars) : MicroOp → Vars
  | .setMap i x => { v with map := v.map.set i (BitVec.ofNat 32 x) }
  | .sample var r k _ => { v with latch := v.latch.addSample var r k b }
  | .fillSlot j => { v with regs := v.regs.fill j v.latch.samples }
  | .setWsum => { v with regs := { v.regs with wsum := BitVec.ofNat 32 v.latch.acc } }
  | .setInsum => { v with regs := { v.regs with insum := BitVec.ofNat 32 v.latch.ins } }
  | .setOutsum => { v with regs := { v.regs with outsum := BitVec.ofNat 32 v.latch.outs } }
  | .setSp r => { v with regs := { v.regs with sp := BitVec.ofNat 9 r } }
  | .setPos x => { v with regs := { v.regs with pos := BitVec.ofNat 17 x } }
  | .dropLeft => { v with regs := { v.regs with wsum := v.regs.wsum - v.regs.outsum } }
  | .dropLeaving r => { v with regs := { v.regs with outsum := v.regs.outsum - v.regs.leaving r } }
  | .dropSample r => { v with regs := { v.regs with wsum := v.regs.wsum - v.regs.leaving r } }
  | .take _ | .takeMapped _ _ => { v with latch := { v.latch with held := b } }
  | .enterSlot r => { v with regs := { v.regs with wstore := v.regs.wstore.set (v.regs.trailing r) v.latch.held } }
  | .enterInsum => { v with regs := { v.regs with insum := v.regs.insum + v.latch.held.setWidth 32 } }
  | .addRight => { v with regs := { v.regs with wsum := v.regs.wsum + v.regs.insum } }
  | .addSample => { v with regs := { v.regs with wsum := v.regs.wsum + v.latch.held.setWidth 32 } }
  | .advanceSp r => { v with regs := { v.regs with sp := BitVec.ofNat 9 ((v.regs.sp.toNat + 1) % diameter r) } }
  | .centreOut => { v with regs := { v.regs with outsum := v.regs.outsum + v.regs.centre } }
  | .centreIn => { v with regs := { v.regs with insum := v.regs.insum - v.regs.centre } }
  | .loadRed _ => { v with latch := { v.latch with red := b } }
  | .loadGreen _ => { v with latch := { v.latch with green := b } }
  | .loadBlue _ => { v with latch := { v.latch with blue := b } }
  | .loadLuma _ => { v with latch := { v.latch with luma := b } }
  | .loadBlurred _ _ => { v with latch := { v.latch with corr := corrOf (lumaDiff v.latch.luma b) o.amount.toNat } }
  | .emit _ _ _ | .store _ | .storeLuma _ | .storeLane _ => v

/-- The three colour lanes of the pixel at `a`: each is read, then written (R154, R355). -/
def laneSteps (a : Nat) : List MicroOp :=
  [.take a, .storeLane a, .take (a + 1), .storeLane (a + 1), .take (a + 2), .storeLane (a + 2)]

/-- The steps a step calls for: the lanes of a pixel whose `|diff|` exceeds THRESHOLD, none elsewhere (R355). -/
def MicroOp.follow (o : OperandRegs) (b : Byte) (v : Vars) : MicroOp → List MicroOp
  | .loadBlurred _ lane => if exceeds v.latch.luma b o.threshold.toNat then laneSteps lane else []
  | .setMap _ _ | .sample _ _ _ _ | .fillSlot _ | .setWsum | .setInsum | .setOutsum | .setSp _ | .setPos _ | .emit _ _ _
  | .dropLeft | .dropLeaving _ | .dropSample _ | .takeMapped _ _ | .take _ | .enterSlot _ | .enterInsum | .addRight
  | .addSample | .advanceSp _ | .centreOut | .centreIn | .store _ | .loadRed _ | .loadGreen _ | .loadBlue _
  | .storeLuma _ | .loadLuma _ | .storeLane _ => []

/-- How many engine steps a step can come to, those it calls for included (R401). -/
def MicroOp.cost : MicroOp → Nat
  | .loadBlurred _ _ => 7
  | .setMap _ _ | .sample _ _ _ _ | .fillSlot _ | .setWsum | .setInsum | .setOutsum | .setSp _ | .setPos _ | .emit _ _ _
  | .dropLeft | .dropLeaving _ | .dropSample _ | .takeMapped _ _ | .take _ | .enterSlot _ | .enterInsum | .addRight
  | .addSample | .advanceSp _ | .centreOut | .centreIn | .store _ | .loadRed _ | .loadGreen _ | .loadBlue _
  | .storeLuma _ | .loadLuma _ | .storeLane _ => 1

end Sys2Proof.Machine
end

