-- ==== Sys2Proof/WellFormed.lean ====
section
/-! DEFINITION. The well-formedness checks: legal CMD32 fields (R200, R203), legal platform parameters (R8), legal register
accesses (R153) and register names (R50). A term that fails one is refused by the check named here. -/

namespace Sys2Proof

/-- RSV is 0 (R200). -/
def CmdWord.rsvOk (c : CmdWord) : Bool := c.rsv == 0#27

/-- OP is one of 0x0..0x7 (R203). -/
def CmdWord.opOk (c : CmdWord) : Bool := decide (c.op.toNat < 8)

/-- VAR = 1 stands only with OP 2, 3 and 4 (R202, R203). -/
def CmdWord.varOk (c : CmdWord) : Bool := c.var == 0#1 || c.op == 2#4 || c.op == 3#4 || c.op == 4#4

/-- The fields of a legal word (R202, R203). -/
def CmdWord.wellFormed (c : CmdWord) : Bool := c.rsvOk && c.opOk && c.varOk

/-- Every command is well-formed: it has no operand field that could be out of range (R201). -/
def Instr.wellFormed (_ : Instr) : Bool := true

/-- `REG_BASE` is aligned to 0x80000 (R8). -/
def Platform.baseOk (p : Platform) : Bool := p.regBase % 0x80000 == 0

/-- `MAX_LINE` is 1..65535 (R8). -/
def Platform.lineOk (p : Platform) : Bool := decide (1 ≤ p.maxLine) && decide (p.maxLine ≤ 65535)

/-- A line of the host's caches holds a byte or more (R160). -/
def Platform.cacheOk (p : Platform) : Bool := decide (1 ≤ p.cacheBytes)

/-- The legal values of R8's table, and of the size of a cache line. -/
def Platform.wellFormed (p : Platform) : Bool := p.baseOk && p.lineOk && p.cacheOk

/-- A register access is 32 bits wide, 4-byte aligned and inside the window (R50, R153). -/
def AccessWidth.wellFormed (w : AccessWidth) (off : Nat) : Bool :=
  w == .word && off % 4 == 0 && decide (off < Config.windowBytes)

/-- The index of a WSTORE or MAP name is inside its RAM (R72, R73). -/
def RegName.wellFormed (maxLine : Nat) : RegName → Bool
  | .wstore k => decide (k < 512)
  | .map k => decide (k < maxLine)
  | _ => true

end Sys2Proof
end

