-- ==== Sys2Proof/Decode.lean ====
section
/-! DEFINITION. Decoding: total on any bytes, rejecting by name, and the encoder, both from the opcode map of R202. -/

namespace Sys2Proof

/-- Why a byte string or a word is no command (R203). -/
inductive Reject where
  /-- fewer than four bytes: a command is exactly one 32-bit word (R200) -/
  | truncated
  /-- a 1 bit in RSV -/
  | reservedBits
  /-- OP = 0x8..0xF -/
  | reservedOp
  /-- VAR = 1 with OP 0, 1, 5, 6 or 7 -/
  | variantNotAllowed
  deriving DecidableEq, Repr

/-- The fields of a word: OP = 3:0, VAR = 4, RSV = 31:5 (R200). -/
def fieldsOf (w : Word) : CmdWord where
  rsv := w.extractLsb' 5 27
  var := w.extractLsb' 4 1
  op  := w.extractLsb' 0 4

/-- The word of given fields (R200). -/
def wordOf (c : CmdWord) : Word := (c.rsv ++ c.var ++ c.op).cast (by decide)

/-- The command of given fields, or the name of the reason there is none (R202, R203). -/
def decodeFields (c : CmdWord) : Except Reject Instr :=
  if c.rsv ≠ 0#27 then .error .reservedBits
  else match c.op.toNat, c.var.toNat with
    | 0, 0 => .ok .nop
    | 1, 0 => .ok .mapgen
    | 2, 0 => .ok .winitT
    | 2, 1 => .ok .winitU
    | 3, 0 => .ok .slideT
    | 3, 1 => .ok .slideU
    | 4, 0 => .ok .blurT
    | 4, 1 => .ok .blurU
    | 5, 0 => .ok .grey
    | 6, 0 => .ok .diffthr
    | 7, 0 => .ok .unsharp
    | op, _ => if op < 8 then .error .variantNotAllowed else .error .reservedOp

/-- The decoder with its reason for rejecting a word (R203, R204). -/
def decodeWord (w : Word) : Except Reject Instr := decodeFields (fieldsOf w)

/-- The total decoder of R204: `none` is E_ILLEGAL. -/
def decode (w : Word) : Option Instr := (decodeWord w).toOption

/-- The word that four bytes in the order of R152 (little-endian) carry. -/
def wordOfBytes (b0 b1 b2 b3 : Byte) : Word := (b3 ++ b2 ++ b1 ++ b0).cast (by decide)

/-- The four bytes of a word, byte lane 0 first (R152). -/
def bytesOfWord (w : Word) : List Byte :=
  [w.extractLsb' 0 8, w.extractLsb' 8 8, w.extractLsb' 16 8, w.extractLsb' 24 8]

/-- Decoding from bytes: the command and the bytes after it. -/
def decodeBytes : List Byte → Except Reject (Instr × List Byte)
  | b0 :: b1 :: b2 :: b3 :: rest => (decodeWord (wordOfBytes b0 b1 b2 b3)).map (fun i => (i, rest))
  | _ => .error .truncated

/-- The word whose table bits are `w`, of which the table gives the row `nbits` (every further bit is 0). -/
def tableWord (nbits w : Nat) : Word := BitVec.ofNat 32 (w % 2 ^ nbits)

/-- What the decoder reads from an opcode-table row: its word laid out in the byte order of R152. A row longer than one
word is no command (R200). -/
def decodeTableWord (nbits w : Nat) : Option Instr :=
  if 32 < nbits then none
  else (decodeBytes (bytesOfWord (tableWord nbits w))).toOption.map Prod.fst

/-- OP and VAR of each command (R202). -/
def fieldsOfInstr : Instr → CmdWord
  | .nop     => ⟨0, 0, 0x0⟩
  | .mapgen  => ⟨0, 0, 0x1⟩
  | .winitT  => ⟨0, 0, 0x2⟩
  | .winitU  => ⟨0, 1, 0x2⟩
  | .slideT  => ⟨0, 0, 0x3⟩
  | .slideU  => ⟨0, 1, 0x3⟩
  | .blurT   => ⟨0, 0, 0x4⟩
  | .blurU   => ⟨0, 1, 0x4⟩
  | .grey    => ⟨0, 0, 0x5⟩
  | .diffthr => ⟨0, 0, 0x6⟩
  | .unsharp => ⟨0, 0, 0x7⟩

/-- The encoder: the word of R202. -/
def encode (i : Instr) : Word := wordOf (fieldsOfInstr i)

/-- The column `word` of R202, every row with mask 0xFFFFFFFF. -/
def opcodeMap : List (Word × Instr) :=
  [(0x00000000#32, .nop), (0x00000001#32, .mapgen), (0x00000002#32, .winitT), (0x00000012#32, .winitU),
   (0x00000003#32, .slideT), (0x00000013#32, .slideU), (0x00000004#32, .blurT), (0x00000014#32, .blurU),
   (0x00000005#32, .grey), (0x00000006#32, .diffthr), (0x00000007#32, .unsharp)]

end Sys2Proof
end

