-- ==== Sys2Proof/Machine/Ops.lean ====
section
/-! DEFINITION. The shared operations of the machine: free values, engine accesses, error reporting and its end, acceptance,
release of a command's bytes, completion and reset. -/

namespace Sys2Proof.Machine

/-! ## Free values (log entry 5) -/

/-- One fresh free word and the state after drawing it. -/
def State.draw (s : State) : Word × State := (Config.freeWord s.draws, { s with draws := s.draws + 1 })

/-- Each byte of a list of addresses takes an unspecified value (R408, R431, R480). -/
def scrambleBytes : List Nat → State → State
  | [], s => s
  | a :: as, s =>
    scrambleBytes as
      { s with mem := s.mem.write a ((Config.freeWord s.draws).setWidth 8), draws := s.draws + 1 }

/-- WSUM, INSUM, OUTSUM, SP and POS take unspecified values (R75, R251). -/
def scrambleRegs (s : State) : State :=
  { s with
    win := { s.win with
      wsum   := Config.freeWord s.draws
      insum  := Config.freeWord (s.draws + 1)
      outsum := Config.freeWord (s.draws + 2)
      sp     := (Config.freeWord (s.draws + 3)).setWidth 9
      pos    := (Config.freeWord (s.draws + 4)).setWidth 17 }
    draws := s.draws + 5 }

/-- All of WSTORE and MAP becomes unspecified (R75, R408, R480). -/
def scrambleRams (s : State) : State :=
  { s with
    win := { s.win with wstore := ⟨s.draws, []⟩, map := ⟨s.draws + 1, []⟩ }
    draws := s.draws + 2 }

/-- The listed entries of WSTORE take unspecified values (R251). -/
def scrambleSlots : List Nat → State → State
  | [], s => s
  | k :: ks, s =>
    scrambleSlots ks
      { s with
        win := { s.win with wstore := s.win.wstore.set k ((Config.freeWord s.draws).setWidth 8) }
        draws := s.draws + 1 }

/-- The window state a whole-image command leaves (R75). -/
def scrambleWindow (s : State) : State := scrambleRams (scrambleRegs s)

/-! ## Engine accesses (R14, R154, R155, R431) -/

/-- Whether the host has written byte `a` while the command in flight owned it (R155). -/
def State.isTainted (s : State) (a : Nat) : Bool :=
  match s.inflight with
  | none => false
  | some f => f.tainted.contains a

/-- `MemRead(a, 1)`: the byte, or the failing address. A byte the host wrote although the engine owned it reads as any
value (R155 b). -/
def engineRead (a : Nat) (s : State) : Except Nat (Byte × State) :=
  if s.plat.memOk a then
    if s.isTainted a then .ok (s.draw.1.setWidth 8, s.draw.2) else .ok (s.mem.read a, s)
  else .error a

/-- `MemWrite(a, 1, v)`: the state after it, or the failing address. -/
def engineWrite (a : Nat) (v : Byte) (s : State) : Except Nat State :=
  if s.plat.memOk a then .ok { s with mem := s.mem.write a v } else .error a

/-! ## Choices between tracks (R14, R156 b; log entry 6) -/

/-- The track that goes next, as a number up to `n`: the next entry of `order`, or the first track when none is left. With
one track there is no choice to make. -/
def State.choose (n : Nat) (s : State) : Nat × State :=
  if n = 0 then (0, s)
  else match s.order with
    | [] => (0, s)
    | k :: ks => (k % (n + 1), { s with order := ks })

/-! ## The host's cache lines (R160; log entry 12) -/

/-- Whether the host's cache line over byte `a` waits to be written back. -/
def State.dirtyLine (s : State) (a : Nat) : Bool := s.hostDirty.any (s.plat.sameLine a)

/-- Whether the host's cache line over byte `a` must be invalidated before the host reads it. -/
def State.staleLine (s : State) (a : Nat) : Bool := s.hostStale.contains (s.plat.cacheLine a)

/-! ## The end of a command: its bytes are the host's again -/

/-- The byte address a step stores to, if it is a store. -/
def MicroOp.target : MicroOp → Option Nat
  | .emit _ _ a | .store a | .storeLuma a | .storeLane a => some a
  | .setMap _ _ | .sample _ _ _ _ | .fillSlot _ | .setWsum | .setInsum | .setOutsum | .setSp _ | .setPos _ | .dropLeft
  | .dropLeaving _ | .dropSample _ | .takeMapped _ _ | .take _ | .enterSlot _ | .enterInsum | .addRight | .addSample
  | .advanceSp _ | .centreOut | .centreIn | .loadRed _ | .loadGreen _ | .loadBlue _ | .loadLuma _ | .loadBlurred _ _ => none

/-- The addresses a step may come to store to, those of the steps it calls for included (R355). -/
def MicroOp.stores (op : MicroOp) : List Nat :=
  match op with
  | .loadBlurred _ a => [a, a + 1, a + 2]
  | op => op.target.toList

/-- The addresses the steps left in a track, a phase, a command may come to store to. -/
def Track.stores (t : Track) : List Nat := (t.next :: t.ops).flatMap MicroOp.stores
def Phase.stores (p : Phase) : List Nat := p.tracks.flatMap Track.stores
def InFlight.stores (f : InFlight) : List Nat := f.todo.flatMap Phase.stores

/-- The bytes of the write footprint that the command is past, which count as engine-written for the host's cache: all of them
once no step is left. The colour bytes of a pixel with `|diff| <= THRESHOLD`, which DIFFTHR and UNSHARP's last phase never access
(R355), count with the others once the pixel is done: the model's choice (log entry 12). -/
def InFlight.written (f : InFlight) : List Nat := f.foot.writes.filter (fun a => !f.stores.contains a)

/-- A command that ends gives its bytes back. If the host wrote an owned byte, every byte of the write footprint holds an
unspecified value (R155 b). Without coherence, host lines over the write footprint are stale, and older than memory where the
command counts as having written (R160; log entry 12). -/
def release (f : InFlight) (s : State) : State :=
  let s1 := if f.tainted.isEmpty then s else scrambleBytes f.foot.writes s
  { s1 with
    inflight  := none
    hostOver  := if s1.plat.coherent then s1.hostOver else f.written.union s1.hostOver
    hostStale := if s1.plat.coherent then s1.hostStale else (f.foot.writes.map s1.plat.cacheLine).union s1.hostStale }

/-- A command that ends with its write footprint unspecified (R408, R431, R480): all of it counts as written (log entry 12). -/
def releaseUnspecified (f : InFlight) (s : State) : State :=
  release { f with tainted := [], todo := [] } (scrambleBytes f.foot.writes s)

/-! ## Error reporting, the analogue of taking an exception (R433), and its end (R435) -/

/-- ERRADDR takes the failing address of E_BUSERR; any other error leaves it 0 (R433). -/
def errAddrOf (e : ErrCode) (a : Nat) : Word := if e = .busErr then BitVec.ofNat 32 a else 0

/-- `raise Error(e, a)`: BUSY, ERR, ERRCODE and ERRADDR as R433 writes them; nothing else changes and nothing is saved. -/
def raiseError (e : ErrCode) (a : Nat) (s : State) : State :=
  { s with inflight := none, flags := s.flags.failed e, errAddr := errAddrOf e a }

/-- A write that clears ERR also clears ERRCODE and ERRADDR (R54, R435). -/
def clearError (s : State) : State :=
  { s with flags := { s.flags with err := false, code := .none }, errAddr := 0 }

/-- A STATUS write of `v` (R54). -/
def writeStatus (v : Word) (s : State) : State :=
  let s1 := if v.getLsbD 2 && s.flags.err then clearError s else s
  { s1 with flags := s1.flags.clear v }

/-! ## Acceptance, completion, busy issue -/

/-- What every acceptance does: CMD, the flags and ERRADDR (R400). -/
def accept (w : Word) (s : State) : State :=
  { s with cmd := w, flags := s.flags.accepted, errAddr := 0 }

/-- A CMD write while BUSY = 1: the word is discarded and LOST is set (R403). -/
def lostIssue (s : State) : State := { s with flags := { s.flags with lost := true } }

/-- The commands whose window state afterwards is unspecified (R75). -/
def isImage : Instr → Bool
  | .blurT | .blurU | .grey | .diffthr | .unsharp => true
  | .nop | .mapgen | .winitT | .winitU | .slideT | .slideU => false

/-- Completion (R404), with the window state of R75 after a whole-image command. -/
def complete (f : InFlight) (s : State) : State :=
  let s1 := release f s
  let s2 := if isImage f.cmd then scrambleWindow s1 else s1
  { s2 with flags := s2.flags.completed }

/-! ## Reset -/

/-- The command in flight, if any, is abandoned: each byte of its write footprint holds an unspecified value (R408, R480). -/
def abandon (s : State) : State :=
  match s.inflight with
  | none => s
  | some f => releaseUnspecified f s

/-- Soft reset (R408) and hardware reset (R480, R481): the command in flight is abandoned, every register takes its reset
value, WSTORE and MAP become unspecified. -/
def resetEngine (s : State) : State :=
  let s1 := abandon s
  { s1 with
    ctrl     := ⟨false, false, false⟩
    flags    := ⟨false, false, false, .none⟩
    cmd      := 0
    errAddr  := 0
    ops      := OperandRegs.reset
    win      := Window.reset s1.draws (s1.draws + 1)
    inflight := none
    draws    := s1.draws + 2 }

end Sys2Proof.Machine
end

