-- ==== Sys2Proof/Machine/Engine.lean ====
section
/-! DEFINITION. The ENGINE agent: one step of the command in flight (R401, R409), E_BUSERR (R431, R251), completion (R404),
and the issue of a command (R400, R403) that every instruction's meaning calls. -/

namespace Sys2Proof.Machine

/-! ## Tracks -/

/-- Element `k` of a list with at least one element (the last, past its end), and the others in their order. -/
def pick {α : Type} : Nat → α → List α → α × List α
  | 0, t, ts => (t, ts)
  | _ + 1, t, [] => (t, [])
  | k + 1, t, u :: us => ((pick k u us).1, t :: (pick k u us).2)

/-- A phase of the given tracks, if there is one. -/
def Phase.of? : List Track → Option Phase
  | [] => none
  | t :: ts => some ⟨t, ts⟩

/-- A track that has the given steps to take, if there is one. -/
def Track.of? (latch : Latch) (regs : LineRegs) : List MicroOp → Option Track
  | [] => none
  | op :: ops => some ⟨op, ops, latch, regs⟩

/-- What a step of track `t` works on: in a whole-image command its copy of the window registers (R301), in a line command
the registers themselves (R250). MAP is one. -/
def InFlight.vars (f : InFlight) (t : Track) (s : State) : Vars :=
  ⟨t.latch, if isImage f.cmd then t.regs else s.win.toLineRegs, s.win.map⟩

/-- The track after its next step, which read `b`. -/
def Track.after (f : InFlight) (t : Track) (b : Byte) (s : State) : Option Track :=
  let v := t.next.update f.snap b (f.vars t s)
  Track.of? v.latch v.regs (t.next.follow f.snap b (f.vars t s) ++ t.ops)

/-- The window after the next step of track `t`, which read `b`. -/
def InFlight.window (f : InFlight) (t : Track) (b : Byte) (s : State) : Window :=
  let v := t.next.update f.snap b (f.vars t s)
  ⟨if isImage f.cmd then s.win.toLineRegs else v.regs, v.map⟩

/-- The state after the next step of track `t` of a phase with tracks `others`, when `rest` are the phases to come: the
track goes on, or leaves its phase if it is done, and the last to leave ends the phase (R156 c). -/
def stepped (f : InFlight) (t : Track) (others : List Track) (rest : List Phase) (b : Byte) (s : State) : State :=
  { s with
    win := f.window t b s
    inflight := some { f with todo := (Phase.of? ((t.after f b s).toList ++ others)).toList ++ rest } }

/-- The next step of track `t`: the state after it, or the address of the access that failed. -/
def trackStep (f : InFlight) (t : Track) (others : List Track) (rest : List Phase) (s : State) : Except Nat State :=
  match t.next.access (f.vars t s) with
  | .none => .ok (stepped f t others rest 0 s)
  | .read a =>
    match engineRead a s with
    | .error e => .error e
    | .ok (b, s1) => .ok (stepped f t others rest b s1)
  | .write a v =>
    match engineWrite a v s with
    | .error e => .error e
    | .ok s1 => .ok (stepped f t others rest 0 s1)

/-! ## E_BUSERR (R431) -/

/-- E_BUSERR in a line command at address `a`: the window registers and the WSTORE entries it would have written are
unspecified, memory stays as written so far (R251, R431). -/
def lineBusError (f : InFlight) (a : Nat) (s : State) : State :=
  raiseError .busErr a (scrambleSlots f.slots (scrambleRegs (release f s)))

/-- E_BUSERR in a whole-image command at address `a`, the one its order reached first: the write footprint and the whole
window state are unspecified (R75, R431). -/
def imageBusError (f : InFlight) (a : Nat) (s : State) : State :=
  raiseError .busErr a (scrambleWindow (releaseUnspecified f s))

/-- E_BUSERR of the command in flight at address `a` (R431). -/
def busError (f : InFlight) (a : Nat) (s : State) : State :=
  if isImage f.cmd then imageBusError f a s else lineBusError f a s

/-! ## Engine steps -/

/-- One step of the ENGINE: the next step of some track of the phase, or completion when none is left; none while BUSY = 0
(R401, R404, R409, R446). -/
def engineStep (s : State) : State :=
  match s.inflight with
  | none => s
  | some f =>
    match f.todo with
    | [] => complete f s
    | p :: rest =>
      let (k, s1) := s.choose p.others.length
      let (t, others) := pick k p.head p.others
      match trackStep f t others rest s1 with
      | .ok s2 => s2
      | .error a => busError f a s1

/-- At most `n` engine steps; none once BUSY = 0. -/
def engineRun : Nat → State → State
  | 0, s => s
  | n + 1, s => if s.busy then engineRun n (engineStep s) else s

/-- How many engine steps a track can still come to. -/
def Track.cost (t : Track) : Nat := t.next.cost + (t.ops.map MicroOp.cost).sum

/-- How many engine steps a phase can still come to. -/
def Phase.cost (p : Phase) : Nat := (p.tracks.map Track.cost).sum

/-- How many engine steps the command in flight can still take, completion included: every loop is bounded (R401). -/
def State.remaining (s : State) : Nat :=
  match s.inflight with
  | none => 0
  | some f => (f.todo.map Phase.cost).sum + 1

/-- The engine's steps before the next host step (R401, log entry 1). -/
def advance (s : State) : State :=
  match s.lead with
  | .untilDone => engineRun s.remaining s
  | .steps n => engineRun n s

/-! ## Issue (R400, R403, R432) -/

/-- What a command's rules say of it at acceptance, all from the operand registers and the window state of that moment:
the check that fails first (R432), the footprint (R165), the WSTORE entries a line command writes (R251), and the
pseudocode: its phases in order, the lines or pixels of each phase in any order, the steps of each in order (R156). -/
structure Plan where
  check : Option ErrCode
  foot  : Footprint
  slots : List Nat
  prog  : List (List (List MicroOp))
  deriving DecidableEq, Repr

/-- The phases of a program, each track with a copy of the window registers; what has nothing to do is left out. -/
def phasesOf (regs : LineRegs) (prog : List (List (List MicroOp))) : List Phase :=
  prog.filterMap (fun lines => Phase.of? (lines.filterMap (Track.of? Latch.fresh regs)))

/-- A command that passed its checks starts: BUSY is set and the operand snapshot taken (R59, R400). Without coherence, a
host line that overlaps the read footprint and was not written back has the outcome of a host write to the bytes it overlaps
(R155 b, R160). -/
def start (i : Instr) (p : Plan) (s : State) : State :=
  { s with
    inflight := some
      { cmd := i, snap := s.ops, foot := p.foot, slots := p.slots, todo := phasesOf s.win.toLineRegs p.prog
        tainted := if s.plat.coherent then [] else p.foot.reads.filter s.dirtyLine } }

/-- The CMD write of command `i` with plan `p` (R400, R403): lost while BUSY; otherwise accepted, then refused with the
error of its first failing check, or started and run until the host's next step. A footprint that meets the register
window is refused (R151); one that meets memory that is not idempotent faults (R154). Log entries 9, 10. -/
def issue (i : Instr) (p : Plan) (s : State) : Host.Outcome State Fault Refusal :=
  if s.busy then .next (advance (lostIssue s))
  else match p.check with
    | some e => .next (raiseError e 0 (accept (encode i) s))
    | none =>
      if p.foot.all.any s.plat.inWindow then .refused .bufferInRegisterWindow
      else if p.foot.all.any s.plat.inDevice then .fault .nonIdempotentBuffer
      else .next (advance (start i p (accept (encode i) s)))

/-- The CMD write of a word that is no command (R203, R400, R403). -/
def issueIllegal (w : Word) (s : State) : State :=
  if s.busy then advance (lostIssue s) else raiseError .illegal 0 (accept w s)

end Sys2Proof.Machine
end

