-- ==== Sys2Proof/Machine/Line.lean ====
section
/-! DEFINITION. The line engine: MAPGEN (R252), WINIT.T and WINIT.U (R253-R256), SLIDE.T and SLIDE.U (R257-R260). -/

namespace Sys2Proof.Machine

/-! ## Pseudocode of one line, shared by the line commands and the sweeps of BLUR -/

/-- `for i in 0 .. L-1: MAP[i] <- min(i + r + 1, L - 1) * s` (R252). -/
def mapSteps (L s r : Nat) : List MicroOp :=
  (List.range L).map (fun i => .setMap i (enteringIndex L r i * s))

/-- WINIT: the samples of `k = -r .. r`, then WSTORE and the window registers (R254-R256). -/
def winitSteps (var : Variant) (base L s r : Nat) : List MicroOp :=
  (List.range (diameter r)).map
    (fun j => .sample var r (sampleOffset r j) (base + clampIndex L (sampleOffset r j) * s))
  ++ (List.range (diameter r)).map .fillSlot
  ++ [.setWsum, .setInsum, .setOutsum, .setSp r, .setPos 0]

/-- Step `i` of SLIDE, its five parts in order (R257): WSUM loses the whole left half and gains the whole right half in .T
(R259, C1), and loses the leaving sample and gains the entering one in .U (R260). -/
def slideStep (var : Variant) (src dst L s r i : Nat) : List MicroOp :=
  match var with
  | .T =>
    [.emit .T r (dst + i * s), .dropLeft, .dropLeaving r, .takeMapped i src, .enterSlot r, .enterInsum, .addRight,
     .advanceSp r, .centreOut, .centreIn, .setPos (i + 1)]
  | .U =>
    [.emit .U r (dst + i * s), .dropLeaving r, .dropSample r, .take (src + enteringIndex L r i * s), .enterSlot r,
     .enterInsum, .addSample, .advanceSp r, .centreOut, .centreIn, .setPos (i + 1)]

/-- SLIDE: its steps for `i = 0 .. L-1` in order (R257). -/
def slideSteps (var : Variant) (src dst L s r : Nat) : List MicroOp :=
  (List.range L).flatMap (slideStep var src dst L s r)

/-! ## Plans -/

/-- MAPGEN: E_DIM only; no memory (R251, R252, R432). -/
def planMapgen (o : OperandRegs) (_ : Window) (p : Platform) : Plan where
  check := firstError [(badLineDim o p, .dim)]
  foot  := ⟨[], []⟩
  slots := []
  prog  := [[mapSteps o.lineL o.stride o.r]]

/-- WINIT: E_DIM, then E_RANGE of `SRC + (L-1)*s` (R251, R432). -/
def planWinit (var : Variant) (o : OperandRegs) (_ : Window) (p : Platform) : Plan where
  check := firstError [(badLineDim o p, .dim), (pastTop (o.src + (o.lineL - 1) * o.stride), .range)]
  foot  := ⟨lineAddrs o.src o.lineL o.stride, []⟩
  slots := List.range (diameter o.r)
  prog  := [[winitSteps var o.src o.lineL o.stride o.r]]

/-- SLIDE.T: E_DIM, then E_RANGE of `DST + (L-1)*s` and of every `SRC + MAP[i]`, MAP read at acceptance (R251, R432). -/
def planSlideT (o : OperandRegs) (w : Window) (p : Platform) : Plan where
  check := firstError
    [(badLineDim o p, .dim),
     (pastTop (o.dst + (o.lineL - 1) * o.stride) || (mappedAddrs w.map o.src o.lineL).any pastTop, .range)]
  foot  := ⟨mappedAddrs w.map o.src o.lineL, lineAddrs o.dst o.lineL o.stride⟩
  slots := slideSlots w.sp.toNat o.r o.lineL
  prog  := [[slideSteps .T o.src o.dst o.lineL o.stride o.r]]

/-- SLIDE.U: E_DIM, then E_RANGE of `SRC + (L-1)*s` and `DST + (L-1)*s` (R251, R432). -/
def planSlideU (o : OperandRegs) (w : Window) (p : Platform) : Plan where
  check := firstError
    [(badLineDim o p, .dim),
     (pastTop (o.src + (o.lineL - 1) * o.stride) || pastTop (o.dst + (o.lineL - 1) * o.stride), .range)]
  foot  := ⟨lineAddrs o.src o.lineL o.stride, lineAddrs o.dst o.lineL o.stride⟩
  slots := slideSlots w.sp.toNat o.r o.lineL
  prog  := [[slideSteps .U o.src o.dst o.lineL o.stride o.r]]

/-! ## Meanings -/

/-- MAPGEN, edge-clamp mapping generator (R252). -/
def execMapgen (s : State) : Host.Outcome State Fault Refusal := issue .mapgen (planMapgen s.ops s.win s.plat) s

/-- WINIT.T, window-sum initializer, weighted variant (R255). -/
def execWinitT (s : State) : Host.Outcome State Fault Refusal := issue .winitT (planWinit .T s.ops s.win s.plat) s

/-- WINIT.U, window-sum initializer, uniform variant (R256). -/
def execWinitU (s : State) : Host.Outcome State Fault Refusal := issue .winitU (planWinit .U s.ops s.win s.plat) s

/-- SLIDE.T, sliding-window engine, weighted variant (R259). -/
def execSlideT (s : State) : Host.Outcome State Fault Refusal := issue .slideT (planSlideT s.ops s.win s.plat) s

/-- SLIDE.U, sliding-window engine, uniform variant (R260). -/
def execSlideU (s : State) : Host.Outcome State Fault Refusal := issue .slideU (planSlideU s.ops s.win s.plat) s

end Sys2Proof.Machine
end

