-- ==== Sys2Proof/Machine/Blur.lean ====
section
/-! DEFINITION. The separable pass driver: BLUR.T (R301) and BLUR.U (R302). -/

namespace Sys2Proof.Machine

/-- The lines of the copy: every byte of `[src, src+n)` to `[dst, dst+n)`, in any order (R301). -/
def copyLines (src dst n : Nat) : List (List MicroOp) := (List.range n).map (fun q => [.take (src + q), .store (dst + q)])

/-- `LINE(var, base, L, s)`: WINIT.var, then SLIDE.var in place (R301). -/
def lineSteps (var : Variant) (base L s r : Nat) : List MicroOp :=
  winitSteps var base L s r ++ slideSteps var base base L s r

/-- The mapping of a sweep, a phase of its own, for .T only: `min(i + r + 1, L - 1) * s` (R301, R302). -/
def sweepMap (var : Variant) (L s r : Nat) : List (List (List MicroOp)) :=
  match var with
  | .T => [[mapSteps L s r]]
  | .U => []

/-- The rows of the horizontal sweep (R301). -/
def rowLines (var : Variant) (base w h r : Nat) : List (List MicroOp) :=
  (List.range h).map (fun y => lineSteps var (base + y * w) w 1 r)

/-- The columns of the vertical sweep (R301). -/
def columnLines (var : Variant) (base w h r : Nat) : List (List MicroOp) :=
  (List.range w).map (fun x => lineSteps var (base + x) h w r)

/-- One pass: the horizontal sweep, then the vertical one, each with its mapping (R301). -/
def passPhases (var : Variant) (base w h r : Nat) : List (List (List MicroOp)) :=
  sweepMap var w 1 r ++ [rowLines var base w h r] ++ (sweepMap var h w r ++ [columnLines var base w h r])

/-- BLUR: the copy, then `steps` passes; only the copy if `r = 0` or `steps = 0` (R301-R303). -/
def blurPhases (var : Variant) (src dst w h r steps : Nat) : List (List (List MicroOp)) :=
  copyLines src dst (w * h) :: (if r = 0 then [] else (List.replicate steps (passPhases var dst w h r)).flatten)

/-- BLUR: E_DIM, E_LEN, E_RANGE, E_OVERLAP in that order (R300, R432). -/
def planBlur (var : Variant) (o : OperandRegs) (_ : Window) (p : Platform) : Plan where
  check := firstError
    [(badImageDim o p, .dim), (badLen 1 o, .len),
     (pastTop (o.src + o.n - 1) || pastTop (o.dst + o.n - 1), .range),
     (meets o.src o.n o.dst o.n, .overlap)]
  foot  := ⟨span o.src o.n ++ span o.dst o.n, span o.dst o.n⟩
  slots := []
  prog  := blurPhases var o.src o.dst o.width.toNat o.height.toNat o.r o.steps.toNat

/-- BLUR.T, weighted separable blur (R301). -/
def execBlurT (s : State) : Host.Outcome State Fault Refusal := issue .blurT (planBlur .T s.ops s.win s.plat) s

/-- BLUR.U, uniform separable blur (R302). -/
def execBlurU (s : State) : Host.Outcome State Fault Refusal := issue .blurU (planBlur .U s.ops s.win s.plat) s

end Sys2Proof.Machine
end

