-- ==== Sys2Proof/Machine/Control.lean ====
section
/-! DEFINITION. The control family: NOP (R402). -/

namespace Sys2Proof.Machine

/-- NOP completes at once: acceptance is followed by completion with no engine step between them (R402). -/
def execNop (s : State) : Host.Outcome State Fault Refusal :=
  if s.busy then .next (advance (lostIssue s))
  else
    let s1 := accept (encode .nop) s
    .next { s1 with flags := s1.flags.completed }

end Sys2Proof.Machine
end

