-- ==== Sys2Proof/Machine/Unsharp.lean ====
section
/-! DEFINITION. The unsharp-mask orchestrator: GREY (R352), DIFFTHR (R355) and UNSHARP (R358). -/

namespace Sys2Proof.Machine

/-- The pixels of GREY: R, G, B are read, then the luma byte is written (R352). -/
def greyLines (src dst n : Nat) : List (List MicroOp) :=
  (List.range n).map
    (fun q => [.loadRed (src + 4 * q), .loadGreen (src + 4 * q + 1), .loadBlue (src + 4 * q + 2), .storeLuma (dst + q)])

/-- The pixels of DIFFTHR: `g` and `b` are read, and the colour lanes follow where `|diff| > THRESHOLD` (R355). -/
def diffthrLines (src work n : Nat) : List (List MicroOp) :=
  (List.range n).map (fun q => [.loadLuma (work + q), .loadBlurred (work + n + q) (src + 4 * q)])

/-- UNSHARP: GREY to WORK, BLUR.T to WORK + n with the fixed radius and steps, DIFFTHR, in strict order (R356-R358). -/
def unsharpPhases (src work w h : Nat) : List (List (List MicroOp)) :=
  greyLines src work (w * h)
  :: blurPhases .T work (work + w * h) w h Config.unsharpRadius Config.unsharpSteps
  ++ [diffthrLines src work (w * h)]

/-- The checks of GREY, DIFFTHR and UNSHARP; `out` and `k*n` are the buffer beside the RGBA image (R350, R432). -/
def checkRgba (o : OperandRegs) (p : Platform) (out k : Nat) : Option ErrCode :=
  firstError
    [(badImageDim o p, .dim), (badLen 4 o, .len),
     (pastTop (o.src + 4 * o.n - 1) || pastTop (out + k * o.n - 1), .range),
     (meets o.src (4 * o.n) out (k * o.n), .overlap)]

/-- GREY (R350, R352, R165). -/
def planGrey (o : OperandRegs) (_ : Window) (p : Platform) : Plan where
  check := checkRgba o p o.dst 1
  foot  := ⟨colourAddrs o.src o.n, span o.dst o.n⟩
  slots := []
  prog  := [greyLines o.src o.dst o.n]

/-- DIFFTHR (R350, R355, R165). -/
def planDiffthr (o : OperandRegs) (_ : Window) (p : Platform) : Plan where
  check := checkRgba o p o.work 2
  foot  := ⟨span o.work (2 * o.n) ++ colourAddrs o.src o.n, colourAddrs o.src o.n⟩
  slots := []
  prog  := [diffthrLines o.src o.work o.n]

/-- UNSHARP (R350, R358, R165). -/
def planUnsharp (o : OperandRegs) (_ : Window) (p : Platform) : Plan where
  check := checkRgba o p o.work 2
  foot  := ⟨colourAddrs o.src o.n ++ span o.work (2 * o.n), colourAddrs o.src o.n ++ span o.work (2 * o.n)⟩
  slots := []
  prog  := unsharpPhases o.src o.work o.width.toNat o.height.toNat

/-- GREY, greyscale reducer (R352). -/
def execGrey (s : State) : Host.Outcome State Fault Refusal := issue .grey (planGrey s.ops s.win s.plat) s

/-- DIFFTHR, difference-threshold correction (R355). -/
def execDiffthr (s : State) : Host.Outcome State Fault Refusal := issue .diffthr (planDiffthr s.ops s.win s.plat) s

/-- UNSHARP, unsharp-mask filter (R358). -/
def execUnsharp (s : State) : Host.Outcome State Fault Refusal := issue .unsharp (planUnsharp s.ops s.win s.plat) s

end Sys2Proof.Machine
end

