-- ==== Sys2Proof/Machine/Dispatch.lean ====
section
/-! DEFINITION. The dispatch: one arm per command, each one direct call of the command's meaning. -/

namespace Sys2Proof.Machine

/-- The host's CMD write of command `i` (R400-R404, and the command's own rule). -/
def exec (i : Instr) (s : State) : Host.Outcome State Fault Refusal :=
  match i with
  | .nop => Sys2Proof.Machine.execNop s
  | .mapgen => Sys2Proof.Machine.execMapgen s
  | .winitT => Sys2Proof.Machine.execWinitT s
  | .winitU => Sys2Proof.Machine.execWinitU s
  | .slideT => Sys2Proof.Machine.execSlideT s
  | .slideU => Sys2Proof.Machine.execSlideU s
  | .blurT => Sys2Proof.Machine.execBlurT s
  | .blurU => Sys2Proof.Machine.execBlurU s
  | .grey => Sys2Proof.Machine.execGrey s
  | .diffthr => Sys2Proof.Machine.execDiffthr s
  | .unsharp => Sys2Proof.Machine.execUnsharp s

end Sys2Proof.Machine
end

