-- ==== Sys2Proof/Machine/Registers.lean ====
section
/-! DEFINITION. The register window: where each register stands (R50), what a read returns (R405) and what a write does
(R406), all but the CMD write, which issues a command (R400). -/

namespace Sys2Proof.Machine

/-- The registers of R50's table that have one offset. -/
def namedRegs : List (Nat × RegName) :=
  [(0x00, .id), (0x04, .version), (0x08, .caps), (0x0C, .ctrl), (0x10, .status), (0x14, .cmd), (0x18, .errAddr),
   (0x1C, .pos), (0x20, .srcAddr), (0x24, .dstAddr), (0x28, .workAddr), (0x2C, .len), (0x30, .width), (0x34, .height),
   (0x38, .radius), (0x3C, .steps), (0x40, .amount), (0x44, .threshold), (0x48, .lineLen), (0x4C, .lineStride),
   (0x50, .wsum), (0x54, .insum), (0x58, .outsum), (0x5C, .sp)]

/-- Offset of WSTORE[0] (R50). -/
def wstoreBase : Nat := 0x00800
/-- Offset of MAP[0] (R50). -/
def mapBase : Nat := 0x10000

/-- The register at an offset; `none` is a reserved offset, which reads 0 and ignores writes (R50). -/
def regAt (maxLine off : Nat) : Option RegName :=
  if off % 4 ≠ 0 then none
  else if off < wstoreBase then Cells.get? namedRegs off
  else if off < wstoreBase + 4 * 512 then some (.wstore ((off - wstoreBase) / 4))
  else if mapBase ≤ off ∧ (off - mapBase) / 4 < maxLine then some (.map ((off - mapBase) / 4))
  else none

/-- The offset of a register (R50). -/
def offsetOf : RegName → Nat
  | .id => 0x00 | .version => 0x04 | .caps => 0x08 | .ctrl => 0x0C | .status => 0x10 | .cmd => 0x14
  | .errAddr => 0x18 | .pos => 0x1C | .srcAddr => 0x20 | .dstAddr => 0x24 | .workAddr => 0x28 | .len => 0x2C
  | .width => 0x30 | .height => 0x34 | .radius => 0x38 | .steps => 0x3C | .amount => 0x40 | .threshold => 0x44
  | .lineLen => 0x48 | .lineStride => 0x4C | .wsum => 0x50 | .insum => 0x54 | .outsum => 0x58 | .sp => 0x5C
  | .wstore k => wstoreBase + 4 * k
  | .map k => mapBase + 4 * k

/-- CAPS: `{8'h00, 8'hFF, MAX_LINE[15:0]}` (R52). -/
def capsWord (p : Platform) : Word := BitVec.ofNat 32 (0xFF * 65536 + p.maxLine % 65536)

/-- Whether a read of the register returns an unspecified value now: the window state while BUSY = 1 (R74, R405), and POS
while a whole-image command is in flight, whose lines may each use a copy of their own (R301; log entry 13). While a line
command is in flight POS reads as it stands, `i + 1` after step `i` of a SLIDE (R57, R405). -/
def unspecifiedNow (s : State) : RegName → Bool
  | .wsum | .insum | .outsum | .sp | .wstore _ | .map _ => s.busy
  | .pos => match s.inflight with
    | none => false
    | some f => isImage f.cmd
  | .id | .version | .caps | .ctrl | .status | .cmd | .errAddr | .srcAddr | .dstAddr | .workAddr | .len | .width | .height
  | .radius | .steps | .amount | .threshold | .lineLen | .lineStride => false

/-- How many low bits of a register are in use; the others read 0 (R50, R57, R71, R72, R405). -/
def regWidth : RegName → Nat
  | .wstore _ => 8
  | .sp => 9
  | .pos => 17
  | .radius | .steps => 8
  | .width | .height | .amount | .threshold | .lineLen | .lineStride => 16
  | .id | .version | .caps | .ctrl | .status | .cmd | .errAddr | .srcAddr | .dstAddr | .workAddr | .len | .wsum | .insum
  | .outsum | .map _ => 32

/-- A word with the unused high bits of a register 0 (R405; log entry 14). -/
def inWidth (r : RegName) (v : Word) : Word := (v.setWidth (regWidth r)).setWidth 32

/-- The value of a register, unused high bits 0 (R405). -/
def regValue (s : State) : RegName → Word
  | .id => Config.idWord
  | .version => Config.versionWord
  | .caps => capsWord s.plat
  | .ctrl => s.ctrlWord
  | .status => s.statusWord
  | .cmd => s.cmd
  | .errAddr => s.errAddr
  | .pos => s.win.pos.setWidth 32
  | .srcAddr => s.ops.srcAddr
  | .dstAddr => s.ops.dstAddr
  | .workAddr => s.ops.workAddr
  | .len => s.ops.len
  | .width => s.ops.width.setWidth 32
  | .height => s.ops.height.setWidth 32
  | .radius => s.ops.radius.setWidth 32
  | .steps => s.ops.steps.setWidth 32
  | .amount => s.ops.amount.setWidth 32
  | .threshold => s.ops.threshold.setWidth 32
  | .lineLen => s.ops.lineLen.setWidth 32
  | .lineStride => s.ops.lineStride.setWidth 32
  | .wsum => s.win.wsum
  | .insum => s.win.insum
  | .outsum => s.win.outsum
  | .sp => s.win.sp.setWidth 32
  | .wstore k => (s.win.wstore.get k).setWidth 32
  | .map k => s.win.map.get k

/-- A read of a register; no side effect but the free value an unspecified read draws (R164, R405). -/
def readReg (r : RegName) (s : State) : State :=
  if unspecifiedNow s r then { s.draw.2 with reply := .data (inWidth r s.draw.1) }
  else { s with reply := .data (regValue s r) }

/-- A write of window state: done while idle, ignored while BUSY = 1 (R74, R406). -/
def writeWindow (s : State) (w : Window) : State := if s.busy then s else { s with win := w }

/-- A CTRL write: the enables, or a soft reset if bit 31 is 1 (R53, R408). -/
def writeCtrl (v : Word) (s : State) : State :=
  if v.getLsbD 31 then resetEngine s else { s with ctrl := Ctrl.ofWord v }

/-- A write of a register other than CMD (R406). An operand register keeps the low bits of its width (R58). -/
def writeReg (r : RegName) (v : Word) (s : State) : State :=
  match r with
  | .id | .version | .caps | .errAddr | .pos => s
  | .cmd => s
  | .ctrl => writeCtrl v s
  | .status => writeStatus v s
  | .srcAddr => { s with ops := { s.ops with srcAddr := v } }
  | .dstAddr => { s with ops := { s.ops with dstAddr := v } }
  | .workAddr => { s with ops := { s.ops with workAddr := v } }
  | .len => { s with ops := { s.ops with len := v } }
  | .width => { s with ops := { s.ops with width := v.setWidth 16 } }
  | .height => { s with ops := { s.ops with height := v.setWidth 16 } }
  | .radius => { s with ops := { s.ops with radius := v.setWidth 8 } }
  | .steps => { s with ops := { s.ops with steps := v.setWidth 8 } }
  | .amount => { s with ops := { s.ops with amount := v.setWidth 16 } }
  | .threshold => { s with ops := { s.ops with threshold := v.setWidth 16 } }
  | .lineLen => { s with ops := { s.ops with lineLen := v.setWidth 16 } }
  | .lineStride => { s with ops := { s.ops with lineStride := v.setWidth 16 } }
  | .wsum => writeWindow s { s.win with wsum := v }
  | .insum => writeWindow s { s.win with insum := v }
  | .outsum => writeWindow s { s.win with outsum := v }
  | .sp => writeWindow s { s.win with sp := v.setWidth 9 }
  | .wstore k => writeWindow s { s.win with wstore := s.win.wstore.set k (v.setWidth 8) }
  | .map k => writeWindow s { s.win with map := s.win.map.set k v }

end Sys2Proof.Machine
end

