-- ==== Sys2Proof/Machine/HostPort.lean ====
section
/-! DEFINITION. The HOST agent's steps: register transactions (R205, R400-R408), its own data-space accesses (R155, R157),
cache maintenance (R160), the reset input (R480) and the polling loop WAIT (R207). -/

namespace Sys2Proof.Machine

/-- A register access of a bad width or offset: the bus-error response, and the host that made it is faulted; no register,
flag or memory changes (R407; log entry 8). -/
def badAccess (s : State) : State := { s with reply := .busError, hostFault := true }

/-- A host access that no rule faults and nothing answers: the bus-error response alone (log entry 15). -/
def refusedAccess (s : State) : State := { s with reply := .busError }

/-- A register access that is not well-formed (R407): the host's fault inside the register window, no answer beyond it. -/
def rejectAccess (off : Nat) (s : State) : State := if off < Config.windowBytes then badAccess s else refusedAccess s

/-- The issue operation: the host writes `v` to CMD (R400, R403). -/
def issueWord (v : Word) (s : State) : Host.Outcome State Fault Refusal :=
  match decode v with
  | some i => exec i s
  | none => .next (issueIllegal v s)

/-- A register write transaction (R205, R406, R407). -/
def busWrite (off : Nat) (w : AccessWidth) (v : Word) (s : State) : Host.Outcome State Fault Refusal :=
  if w.wellFormed off then
    match regAt s.plat.maxLine off with
    | none => .next (advance { s with reply := .ack })
    | some .cmd => issueWord v { s with reply := .ack }
    | some r => .next (advance (writeReg r v { s with reply := .ack }))
  else .next (advance (rejectAccess off s))

/-- A register read transaction (R205, R405, R407); a reserved offset reads 0 (R50). -/
def busRead (off : Nat) (w : AccessWidth) (s : State) : State :=
  if w.wellFormed off then
    match regAt s.plat.maxLine off with
    | none => { s with reply := .data 0 }
    | some r => readReg r s
  else rejectAccess off s

/-- Whether the command in flight owns a byte (R155). -/
def State.owns (s : State) (a : Nat) : Bool :=
  match s.inflight with
  | none => false
  | some f => f.foot.owns a

/-- A byte the host writes while the engine owns it is tainted from then on (R155 b). -/
def taint (a : Nat) (s : State) : State :=
  match s.inflight with
  | none => s
  | some f => if f.foot.owns a then { s with inflight := some { f with tainted := f.tainted.insert a } } else s

/-- The bytes of the cache line of `a` that the engine owns are tainted: the host writes the whole line (R155 b, R160). -/
def taintLine (a : Nat) (s : State) : State :=
  match s.inflight with
  | none => s
  | some f => (f.foot.all.filter (s.plat.sameLine a)).foldr taint s

/-- A list without `a`. -/
def without (a : Nat) (l : List Nat) : List Nat := l.filter (fun b => b != a)

/-- The bytes of a list that lie in the cache line of `a`, and those that do not. -/
def inLine (p : Platform) (a : Nat) (l : List Nat) : List Nat := l.filter (p.sameLine a)
def offLine (p : Platform) (a : Nat) (l : List Nat) : List Nat := l.filter (fun b => !p.sameLine a b)

/-- Whether byte `b` counts as engine-written since the host's line over it was last caught up with: by a command that has
ended, or by the one in flight (R160; log entry 12). -/
def State.overwritten (s : State) (b : Nat) : Bool :=
  s.hostOver.contains b || (match s.inflight with
    | none => false
    | some f => f.written.contains b)

/-- A host store of one byte. Without coherence it makes its cache line wait to be written back (R160), and is newer than the
byte the engine may have written there; it does not end the line's being stale. An 8-bit access to the register window is a
bad register access (R407); memory that does not answer gives a bus error, and a store to memory that is not idempotent is the
device's own affair (R154; log entry 15). -/
def hostStore (a : Nat) (v : Byte) (s : State) : State :=
  if s.plat.inWindow a then badAccess s
  else if !s.plat.memOk a then refusedAccess s
  else if s.plat.inDevice a then { s with reply := .ack }
  else
    let s1 := taint a s
    { s1 with
      mem       := s1.mem.write a v
      hostDirty := if s1.plat.coherent then s1.hostDirty else s1.hostDirty.insert a
      hostOver  := without a s1.hostOver
      reply     := .ack }

/-- A host load of one byte: any value if the engine owns it (R155 a), if its cache line overlaps the write footprint of an
ended command and was not invalidated since (R160), or if it is not idempotent memory (R154). -/
def hostLoad (a : Nat) (s : State) : State :=
  if s.plat.inWindow a then badAccess s
  else if !s.plat.memOk a then refusedAccess s
  else if s.owns a || s.staleLine a || s.plat.inDevice a then
    { s.draw.2 with reply := .byte (s.draw.1.setWidth 8) }
  else { s with reply := .byte (s.mem.read a) }

/-- The host writes back the cache line of byte `a` (R160). The write-back of a line that waits for it is a host write of the
whole line: on the bytes the engine owns it has the outcome of R155 (b), and where the engine has written a byte since, R160
does not say whose byte memory then holds, so it holds an unspecified value: the model's choice (log entry 12). -/
def hostClean (a : Nat) (s : State) : State :=
  if s.dirtyLine a then
    { scrambleBytes (inLine s.plat a s.hostOver) (taintLine a s) with
      hostDirty := offLine s.plat a s.hostDirty
      hostOver  := offLine s.plat a s.hostOver
      reply     := .ack }
  else { s with reply := .ack }

/-- The host invalidates the cache line of byte `a` (R160). Where the engine has written a byte of it since the host did, the
engine's byte is what memory holds (R157 b). A store that was not written back is otherwise lost, and the byte holds an
unspecified value: the model's choice (log entry 12). -/
def hostInvalidate (a : Nat) (s : State) : State :=
  { scrambleBytes ((inLine s.plat a s.hostDirty).filter (fun b => !s.overwritten b)) s with
    hostDirty := offLine s.plat a s.hostDirty
    hostOver  := offLine s.plat a s.hostOver
    hostStale := without (s.plat.cacheLine a) s.hostStale
    reply     := .ack }

/-- One pass of `loop: RD STATUS; if bit 0 = 1 goto loop` (R207): while BUSY the host stays in the loop. -/
def hostWait (e : HostEvent) (s : State) : State :=
  let s1 := readReg .status s
  if s.busy then { s1 with inbox := e :: s1.inbox } else s1

/-- A host step `e`, already taken from the inbox, and the engine's steps up to the next one (R409). The reset input is one
indivisible step (R480; log entry 27). -/
def hostStep (e : HostEvent) (s0 : State) : Host.Outcome State Fault Refusal :=
  let s := { s0 with lead := e.lead }
  match e.op with
  | .regWrite off w v => busWrite off w v s
  | .regRead off w => .next (advance (busRead off w s))
  | .memWrite a v => .next (advance (hostStore a v s))
  | .memRead a => .next (advance (hostLoad a s))
  | .clean a => .next (advance (hostClean a s))
  | .invalidate a => .next (advance (hostInvalidate a s))
  | .resetPin => .next (advance (resetEngine { s with reply := .ack }))
  | .wait => .next (advance (hostWait e s))
  | .pause => .next (advance s)

/-- What is left of a pending step once the host has faulted: the host takes none, time passes, and the reset input is not
the host's (R407, R480; log entry 8). -/
def stoppedEvent (e : HostEvent) : HostEvent :=
  match e.op with
  | .resetPin => e
  | .regWrite _ _ _ | .regRead _ _ | .memWrite _ _ | .memRead _ | .clean _ | .invalidate _ | .wait | .pause =>
    { e with op := .pause }

/-- One step of the machine: the next pending host step, or, with none pending, one step of the engine (R409). The HOST is one
agent: whichever bus master a bad access came from, all of it stops, the model's choice (log entry 8). -/
def nextStep (s : State) : Host.Outcome State Fault Refusal :=
  match s.inbox with
  | [] => .next (engineStep s)
  | e :: rest => hostStep (if s.hostFault then stoppedEvent e else e) { s with inbox := rest }

/-- The host's CMD write of a word, with no other host step before the command ends. -/
def cmdWrite (w : Word) : HostEvent := ⟨.regWrite 0x14 .word w, .untilDone⟩

/-- The machine idle and its host not faulted, with the CMD write of `w` as its one pending host step. -/
def withCmdWrite (w : Word) (s : State) : State :=
  { s with inflight := none, hostFault := false, inbox := [cmdWrite w] }

end Sys2Proof.Machine
end

