-- ==== Sys2Proof/Machine/HostSyntax.lean ====
section
/-! DEFINITION. The textual host program (R206) and its pseudo-instructions (R207), as lists of host steps. -/

namespace Sys2Proof.Machine

/-- `WR <REG>, <value>` (R206). -/
def opWr (r : RegName) (v : Word) : HostOp := .regWrite (offsetOf r) .word v

/-- `RD <REG>` (R206). -/
def opRd (r : RegName) : HostOp := .regRead (offsetOf r) .word

/-- Byte stores at the consecutive addresses from `a` on. -/
def storesFrom : Nat → List Byte → List HostOp
  | _, [] => []
  | a, b :: bs => .memWrite a b :: storesFrom (a + 1) bs

/-- `MEM <addr>: <b0> <b1> ...`: stores at consecutive data addresses (R206). The addresses are integers and nothing wraps
around the top of the data space (R163): a byte past 0xFFFFFFFF gets a bus error (log entries 15, 28). The stores are stores
alone: without coherence no write-back goes with them, the model's choice (log entry 28). -/
def opsMem (a : Word) (bytes : List Byte) : List HostOp := storesFrom a.toNat bytes

/-- The expansions of R206 and R207. The products for LEN are taken in the 32 bits a register value has (log entry 28). -/
def expand : HostLine → List HostOp
  | .wr r v => [opWr r v]
  | .rd r => [opRd r]
  | .cmd i => [opWr .cmd (encode i)]
  | .wait => [.wait]
  | .mem a bytes => opsMem a bytes
  | .clr => [opWr .status 0x0000000E#32]
  | .fastblur var src dst w h r st =>
    [opWr .srcAddr src, opWr .dstAddr dst, opWr .width w, opWr .height h, opWr .len (w * h), opWr .radius r,
     opWr .steps st, opWr .cmd (encode (match var with | .T => .blurT | .U => .blurU)), .wait]
  | .unsharpm src work w h amt thr =>
    [opWr .srcAddr src, opWr .workAddr work, opWr .width w, opWr .height h, opWr .len (4 * w * h), opWr .amount amt,
     opWr .threshold thr, opWr .cmd (encode .unsharp), .wait]
  | .line src dst l s r =>
    [opWr .srcAddr src, opWr .dstAddr dst, opWr .lineLen l, opWr .lineStride s, opWr .radius r]

/-- The host steps of a program, each followed by `lead` engine steps. -/
def program (lead : Lead) (lines : List HostLine) : List HostEvent :=
  (lines.flatMap expand).map (fun op => ⟨op, lead⟩)

end Sys2Proof.Machine
end

