-- ==== Sys2Proof/Machine/Step.lean ====
section
/-! DEFINITION. One step of the machine (R409), and the state in which the next step runs a given word. -/

namespace Sys2Proof.Machine

/-- One step: the next pending host step with the engine steps that follow it, or one engine step (R409). -/
def step : State → Host.Outcome State Fault Refusal := nextStep

/-- The engine fetches nothing: a command arrives as the data of a CMD write (R159). The state `s`, idle and its host not
faulted, in which that write of the word with table bits `w` is the one pending host step and no other host step comes
before the command ends (log entry 1). -/
def State.withFetchWord (s : State) (nbits w : Nat) : State := withCmdWrite (tableWord nbits w) s

end Sys2Proof.Machine
end

