-- ==== Sys2Proof/Safety.lean ====
section
/-! DEFINITION. The terms claims are stated in, written from the spec's rules and not from the meanings: the invariant of the
machine, the conditions under which a command runs (R151, R165, R432), what completion and errors leave (R404, R433), the
kernels (R15, R261, R262, R304), the pseudocode of SLIDE over exact integers (R259, R260) and the correction (R355). -/

namespace Sys2Proof.Machine

/-! ## The invariant -/

/-- A pending step stays inside MAP and WSTORE (R63, R72, R73). -/
def MicroOp.inRams (maxLine : Nat) : MicroOp → Prop
  | .setMap i _ => i < maxLine
  | .fillSlot j => j < 512
  | .dropLeaving r | .dropSample r | .enterSlot r | .advanceSp r => r < 256
  | .sample _ _ _ _ | .setWsum | .setInsum | .setOutsum | .setSp _ | .setPos _ | .emit _ _ _ | .dropLeft | .takeMapped _ _
  | .take _ | .enterInsum | .addRight | .addSample | .centreOut | .centreIn | .store _ | .loadRed _ | .loadGreen _
  | .loadBlue _ | .storeLuma _ | .loadLuma _ | .loadBlurred _ _ | .storeLane _ => True

/-- A track stays inside the RAMs, its own copy of WSTORE included. -/
def Track.inRams (maxLine : Nat) (t : Track) : Prop :=
  (∀ op ∈ t.next :: t.ops, op.inRams maxLine) ∧ t.regs.wstore.wf 512 = true

/-- What every state of a run satisfies: legal parameters, canonical storage inside its bounds, flags that agree (R54, R56,
R430, R437), and cache marks that agree (R160). -/
structure State.Inv (s : State) : Prop where
  plat     : s.plat.wellFormed = true
  mem      : s.mem.wf = true
  wstore   : s.win.wstore.wf 512 = true
  map      : s.win.map.wf s.plat.maxLine = true
  code     : s.flags.err = true ↔ s.flags.code ≠ .none
  oneEnd   : ¬(s.flags.done = true ∧ s.flags.err = true)
  errAddr  : s.flags.code ≠ .busErr → s.errAddr = 0
  dirty    : ∀ a ∈ s.hostDirty, a < Config.spaceBytes
  marked   : ∀ a ∈ s.hostOver, a < Config.spaceBytes
  coherent : s.plat.coherent = true → s.hostDirty = [] ∧ s.hostOver = [] ∧ s.hostStale = []
  running  : ∀ f, s.inflight = some f →
    s.flags.done = false ∧ s.flags.err = false ∧ (∀ p ∈ f.todo, ∀ t ∈ p.tracks, t.inRams s.plat.maxLine)
    ∧ (∀ k ∈ f.slots, k < 512) ∧ (∀ a ∈ f.foot.writes, a < Config.spaceBytes)

/-! ## When a command runs -/

/-- The engine is idle, and no host step comes before the command ends. -/
def Undisturbed (s : State) : Prop := s.inflight = none ∧ s.lead = .untilDone

/-- The error of R432's first failing check, if any. -/
def expectedError (i : Instr) (o : OperandRegs) (w : Window) (p : Platform) : Option ErrCode :=
  let L := o.lineLen.toNat
  let st := o.lineStride.toNat
  let src := o.srcAddr.toNat
  let dst := o.dstAddr.toNat
  let work := o.workAddr.toNat
  let n := o.width.toNat * o.height.toNat
  let lineDim := L = 0 ∨ p.maxLine < L ∨ st = 0
  let imageDim := o.width.toNat = 0 ∨ o.height.toNat = 0 ∨ p.maxLine < o.width.toNat ∨ p.maxLine < o.height.toNat
  match i with
  | .nop => none
  | .mapgen => if lineDim then some .dim else none
  | .winitT | .winitU =>
    if lineDim then some .dim
    else if src + (L - 1) * st > 0xFFFFFFFF then some .range
    else none
  | .slideT =>
    if lineDim then some .dim
    else if dst + (L - 1) * st > 0xFFFFFFFF ∨ ∃ j < L, src + (w.map.get j).toNat > 0xFFFFFFFF then some .range
    else none
  | .slideU =>
    if lineDim then some .dim
    else if src + (L - 1) * st > 0xFFFFFFFF ∨ dst + (L - 1) * st > 0xFFFFFFFF then some .range
    else none
  | .blurT | .blurU =>
    if imageDim then some .dim
    else if o.len.toNat ≠ n then some .len
    else if src + n - 1 > 0xFFFFFFFF ∨ dst + n - 1 > 0xFFFFFFFF then some .range
    else if src < dst + n ∧ dst < src + n then some .overlap
    else none
  | .grey =>
    if imageDim then some .dim
    else if o.len.toNat ≠ 4 * n then some .len
    else if src + 4 * n - 1 > 0xFFFFFFFF ∨ dst + n - 1 > 0xFFFFFFFF then some .range
    else if src < dst + n ∧ dst < src + 4 * n then some .overlap
    else none
  | .diffthr | .unsharp =>
    if imageDim then some .dim
    else if o.len.toNat ≠ 4 * n then some .len
    else if src + 4 * n - 1 > 0xFFFFFFFF ∨ work + 2 * n - 1 > 0xFFFFFFFF then some .range
    else if src < work + 2 * n ∧ work < src + 4 * n then some .overlap
    else none

/-- The footprint table of R165. -/
def footprintOf (i : Instr) (o : OperandRegs) (w : Window) : Footprint :=
  let L := o.lineLen.toNat
  let st := o.lineStride.toNat
  let src := o.srcAddr.toNat
  let dst := o.dstAddr.toNat
  let work := o.workAddr.toNat
  let n := o.width.toNat * o.height.toNat
  match i with
  | .nop | .mapgen => ⟨[], []⟩
  | .winitT | .winitU => ⟨lineAddrs src L st, []⟩
  | .slideT => ⟨mappedAddrs w.map src L, lineAddrs dst L st⟩
  | .slideU => ⟨lineAddrs src L st, lineAddrs dst L st⟩
  | .blurT | .blurU => ⟨span src n ++ span dst n, span dst n⟩
  | .grey => ⟨colourAddrs src n, span dst n⟩
  | .diffthr => ⟨span work (2 * n) ++ colourAddrs src n, colourAddrs src n⟩
  | .unsharp => ⟨colourAddrs src n ++ span work (2 * n), colourAddrs src n ++ span work (2 * n)⟩

/-- The footprint of a command as the state `s` gives it. -/
def State.footprint (s : State) (i : Instr) : Footprint := footprintOf i s.ops s.win

/-- The footprint lies outside the register window (R151) and in idempotent memory (R154), and no host cache line that
overlaps the reads waits to be written back (R160). -/
def Clear (f : Footprint) (s : State) : Prop :=
  (∀ a ∈ f.reads ++ f.writes, s.plat.inWindow a = false ∧ s.plat.inDevice a = false)
  ∧ (s.plat.coherent = true ∨ ∀ a ∈ s.hostDirty, ∀ b ∈ f.reads, s.plat.cacheLine a ≠ s.plat.cacheLine b)

/-- Every byte of the footprint answers (R8, R431). -/
def Answers (f : Footprint) (s : State) : Prop := ∀ a ∈ f.reads ++ f.writes, s.plat.memOk a = true

/-- The command passes its checks and nothing stops or disturbs it. -/
def Runs (i : Instr) (s : State) : Prop :=
  Undisturbed s ∧ expectedError i s.ops s.win s.plat = none ∧ Clear (s.footprint i) s ∧ Answers (s.footprint i) s

/-! ## What the end of a command leaves -/

/-- The host cache lines that are stale after a command with this write footprint (R160). -/
def staleAfter (writes : List Nat) (s : State) : List Nat :=
  if s.plat.coherent then s.hostStale else (writes.map s.plat.cacheLine).union s.hostStale

/-- Everything a completed command leaves but memory and the window: CMD holds its word, DONE is set, ERR, ERRCODE and
ERRADDR are clear, LOST and every other register are as before (R400, R404). Choices of order it made are used up. Without
coherence all of `writes` counts as engine-written for the host's cache, the model's choice (log entry 12). -/
def Completed (word : Word) (writes : List Nat) (s t : State) : Prop :=
  t = { s with
    cmd := word
    flags := { done := true, err := false, lost := s.flags.lost, code := .none }
    errAddr := 0
    mem := t.mem
    win := t.win
    draws := t.draws
    order := t.order
    hostOver := if s.plat.coherent then s.hostOver else writes.union s.hostOver
    hostStale := staleAfter writes s }
  ∧ t.order <:+ s.order

/-- What a precise error leaves: only CMD, the flags and ERRADDR change (R400, R433, R434). -/
def failedAt (word : Word) (e : ErrCode) (s : State) : State :=
  { s with
    cmd := word
    flags := { done := false, err := true, lost := s.flags.lost, code := e }
    errAddr := 0 }

/-- Everything E_BUSERR at address `a` leaves but memory and the window (R431, R433), when the command with the write
footprint `writes` counts as having written the bytes `done` of it (log entry 12). -/
def BusErrored (word : Word) (a : Word) (writes done : List Nat) (s t : State) : Prop :=
  t = { s with
    cmd := word
    flags := { done := false, err := true, lost := s.flags.lost, code := .busErr }
    errAddr := a
    mem := t.mem
    win := t.win
    draws := t.draws
    order := t.order
    hostOver := t.hostOver
    hostStale := staleAfter writes s }
  ∧ t.order <:+ s.order
  ∧ ∀ b, b ∈ t.hostOver ↔ b ∈ s.hostOver ∨ (s.plat.coherent = false ∧ b ∈ done)

/-- A value drawn between two states. -/
def Drawn {w : Nat} (s t : State) (v : BitVec w) : Prop :=
  ∃ n, s.draws ≤ n ∧ n < t.draws ∧ v = (Config.freeWord n).setWidth w

/-- A RAM whose contents became unspecified between two states. -/
def DrawnRam {w : Nat} (s t : State) (r : Ram w) : Prop :=
  ∃ n, s.draws ≤ n ∧ n < t.draws ∧ ∀ k, r.get k = (Config.ramCell n k).setWidth w

/-- The window registers R251 leaves unspecified after E_BUSERR. -/
def RegsDrawn (s t : State) : Prop :=
  Drawn s t t.win.wsum ∧ Drawn s t t.win.insum ∧ Drawn s t t.win.outsum ∧ Drawn s t t.win.sp ∧ Drawn s t t.win.pos

/-- The window state of R75. -/
def WindowDrawn (s t : State) : Prop := RegsDrawn s t ∧ DrawnRam s t t.win.wstore ∧ DrawnRam s t t.win.map

/-! ## Kernels -/

/-- `c(j) = clamp(j, 0, L-1)` (R15). -/
def edge (L : Nat) (j : Int) : Nat := (min (max j 0) ((L : Int) - 1)).toNat

/-- `p(c(j))`: the edge-clamped sample of a line (R15). -/
def lineSample (m : Memory) (base st L : Nat) (j : Int) : Nat := (m.read (base + edge L j * st)).toNat

/-- `w_T(k) = r + 1 - |k|` and `w_U(k) = 1` (R15). -/
def coeff (var : Variant) (r : Nat) (k : Int) : Nat :=
  match var with
  | .T => r + 1 - k.natAbs
  | .U => 1

/-- `sum_{k=-r..r} w(k) * p(x+k)` (R262). -/
def kernelSum (var : Variant) (r : Nat) (p : Int → Nat) (x : Int) : Nat :=
  ∑ j ∈ Finset.range (2 * r + 1), coeff var r ((j : Int) - r) * p (x + ((j : Int) - r))

/-- `sum_{k=1..r} p(x+k)` (R261). -/
def rightSum (r : Nat) (p : Int → Nat) (x : Int) : Nat := ∑ j ∈ Finset.range r, p (x + ((j : Int) + 1))

/-- `sum_{k=-r..0} p(x+k)` (R261). -/
def leftSum (r : Nat) (p : Int → Nat) (x : Int) : Nat := ∑ j ∈ Finset.range (r + 1), p (x - (j : Int))

/-- `(r+1)^2` for .T, `2r+1` for .U (R257). -/
def kernelDivisor (var : Variant) (r : Nat) : Nat :=
  match var with
  | .T => (r + 1) ^ 2
  | .U => 2 * r + 1

/-- `out_T(x)` and `out_U(x)` (R262). -/
def lineOut (var : Variant) (r : Nat) (p : Int → Nat) (x : Nat) : Nat :=
  kernelSum var r p (x : Int) / kernelDivisor var r

/-- The window state for the clamped samples `p` at centre `x` (R261). -/
def WindowState (var : Variant) (r : Nat) (p : Int → Nat) (x : Nat) (w : Window) : Prop :=
  w.sp.toNat < 2 * r + 1
  ∧ (∀ j < 2 * r + 1,
      (w.wstore.get (((w.sp.toNat : Int) + ((j : Int) - r)) % ((2 * r + 1 : Nat) : Int)).toNat).toNat
        = p ((x : Int) + ((j : Int) - r)))
  ∧ w.outsum.toNat = leftSum r p x
  ∧ w.insum.toNat = rightSum r p x
  ∧ w.wsum.toNat = kernelSum var r p x

/-! ## The pseudocode of SLIDE over exact integers -/

/-- `wrap32(v) = v mod 2^32` (R13). -/
def wrap32 (v : Int) : Nat := (v % 4294967296).toNat

/-- What SLIDE's pseudocode works on, as numbers. -/
structure LineRef where
  mem    : Nat → Nat
  ws     : Nat → Nat
  wsum   : Nat
  insum  : Nat
  outsum : Nat
  sp     : Nat
  pos    : Nat

/-- The numbers a state holds. -/
def LineRef.of (s : State) : LineRef where
  mem a  := (s.mem.read a).toNat
  ws k   := (s.win.wstore.get k).toNat
  wsum   := s.win.wsum.toNat
  insum  := s.win.insum.toNat
  outsum := s.win.outsum.toNat
  sp     := s.win.sp.toNat
  pos    := s.win.pos.toNat

/-- A function changed at one argument. -/
def changed (f : Nat → Nat) (a v : Nat) : Nat → Nat := fun b => if b = a then v else f b

/-- Part 1 of a step: `MemWrite(DST + i*s, 1, u8(WSUM // divisor))` (R259, R260). -/
def LineRef.emit (var : Variant) (dst st r : Nat) (c : LineRef) (i : Nat) : LineRef :=
  { c with mem := changed c.mem (dst + i * st) (c.wsum / kernelDivisor var r % 256) }

/-- Step `i` of SLIDE.T (R259), line by line. -/
def LineRef.stepT (src dst st r : Nat) (map : Nat → Nat) (c : LineRef) (i : Nat) : LineRef :=
  let d := 2 * r + 1
  let c := c.emit .T dst st r i
  let t := (c.sp + r + 1) % d
  let wsum := wrap32 ((c.wsum : Int) - c.outsum)
  let outsum := wrap32 ((c.outsum : Int) - c.ws t)
  let v := c.mem (src + map i)
  let ws := changed c.ws t v
  let insum := wrap32 ((c.insum : Int) + v)
  let wsum := wrap32 ((wsum : Int) + insum)
  let sp := (c.sp + 1) % d
  let u := ws sp
  { mem := c.mem, ws := ws, wsum := wsum, insum := wrap32 ((insum : Int) - u), outsum := wrap32 ((outsum : Int) + u)
    sp := sp, pos := i + 1 }

/-- Step `i` of SLIDE.U (R260), line by line. -/
def LineRef.stepU (src dst L st r : Nat) (c : LineRef) (i : Nat) : LineRef :=
  let d := 2 * r + 1
  let c := c.emit .U dst st r i
  let t := (c.sp + r + 1) % d
  let outsum := wrap32 ((c.outsum : Int) - c.ws t)
  let wsum := wrap32 ((c.wsum : Int) - c.ws t)
  let v := c.mem (src + min (i + r + 1) (L - 1) * st)
  let ws := changed c.ws t v
  let insum := wrap32 ((c.insum : Int) + v)
  let wsum := wrap32 ((wsum : Int) + v)
  let sp := (c.sp + 1) % d
  let u := ws sp
  { mem := c.mem, ws := ws, wsum := wsum, insum := wrap32 ((insum : Int) - u), outsum := wrap32 ((outsum : Int) + u)
    sp := sp, pos := i + 1 }

/-- Steps `0 .. k-1` of SLIDE with the operands of a state. -/
def LineRef.slide (var : Variant) (s : State) (k : Nat) : LineRef :=
  let o := s.ops
  let src := o.srcAddr.toNat
  let dst := o.dstAddr.toNat
  let L := o.lineLen.toNat
  let st := o.lineStride.toNat
  let r := o.radius.toNat
  match var with
  | .T => (List.range k).foldl (LineRef.stepT src dst st r (fun i => (s.win.map.get i).toNat)) (LineRef.of s)
  | .U => (List.range k).foldl (LineRef.stepU src dst L st r) (LineRef.of s)

/-! ## Images -/

/-- The single-channel image at `base`, sample `q` at offset `q` (R16). -/
def imageAt (m : Memory) (base : Nat) : Nat → Nat := fun q => (m.read (base + q)).toNat

/-- `Hz(I)`: the line operator on every row (R304). -/
def rowsOf (var : Variant) (r w : Nat) (I : Nat → Nat) : Nat → Nat :=
  fun q => lineOut var r (fun j => I (q / w * w + edge w j)) (q % w)

/-- `Vt(I)`: the line operator on every column (R304). -/
def columnsOf (var : Variant) (r w h : Nat) (I : Nat → Nat) : Nat → Nat :=
  fun q => lineOut var r (fun j => I (edge h j * w + q % w)) (q / w)

/-- `(Vt o Hz)^steps (I)` (R304). -/
def blurred (var : Variant) (r w h : Nat) : Nat → (Nat → Nat) → (Nat → Nat)
  | 0, I => I
  | k + 1, I => blurred var r w h k (columnsOf var r w h (rowsOf var r w I))

/-- `(R*19595 + G*38470 + B*7471) >> 16` of pixel `q` (R352). -/
def greyAt (m : Memory) (src : Nat) : Nat → Nat := fun q =>
  ((m.read (src + 4 * q)).toNat * 19595 + (m.read (src + 4 * q + 1)).toNat * 38470
    + (m.read (src + 4 * q + 2)).toNat * 7471) / 65536

/-- A colour lane `v` of a pixel with luma `g` and blurred luma `b` after DIFFTHR (R353-R355). -/
def corrected (amount threshold g b v : Nat) : Int :=
  let diff := (g : Int) - b
  if diff.natAbs > threshold then min (max ((v : Int) + Int.tdiv (diff * amount) 250) 0) 255 else v

end Sys2Proof.Machine
end

