-- ==== Sys2Proof/Certificates/Slice0/Obligations.lean ====
section
/-! DEFINITION. The statements for the provers, in the terms of Safety.lean. A command is undisturbed when no host step comes
before it ends; the interleaved runs are tied to the undisturbed ones by `HostPausesDoNotChangeACommand`. -/

open Sys2Proof Sys2Proof.Machine

/-! ## Encoding -/

/-- R204: the decoder returns the row of R202 whose word equals the input, and none for every other word; none is
E_ILLEGAL. -/
def Obligations.DecodeIsTheOpcodeMap : Prop :=
  (∀ w i, decode w = some i ↔ (w, i) ∈ opcodeMap)
  ∧ ∀ w s, decode w = none → s.inflight = none → issueWord w s = .next (failedAt w .illegal s)

/-- R203: which words are illegal, and what accepting one leaves: CMD, STATUS and ERRADDR change, nothing else does. -/
def Obligations.IllegalWordsAreRefusedWithoutEffect : Prop :=
  (∀ w : Word, decode w = none ↔
    (8 ≤ w.toNat % 16 ∨ (w.getLsbD 4 = true ∧ w.toNat % 16 ∈ [0, 1, 5, 6, 7]) ∨ w.toNat / 32 ≠ 0))
  ∧ ∀ w s, decode w = none → s.inflight = none →
      ∃ t, issueWord w s = .next t ∧ t = { s with cmd := w, flags := t.flags, errAddr := 0 }
        ∧ t.flags.err = true ∧ t.flags.code = .illegal

/-- The bytes of every command decode to it and leave the rest (every bit of the word counts), and only those bytes do. -/
def Obligations.EncodedBytesDecodeBack : Prop :=
  ∀ i rest,
    decodeBytes (bytesOfWord (encode i) ++ rest) = .ok (i, rest)
    ∧ decodeTableWord 32 (encode i).toNat = some i
    ∧ ∀ bs, decodeBytes bs = .ok (i, rest) → bs = bytesOfWord (encode i) ++ rest

/-- Some words of R202 and R203, written out: bits 3:0 OP, bit 4 VAR, bits 31:5 RSV. -/
def Obligations.WrittenWordsDecode : Prop :=
  decode 0b00000000000000000000000000000000#32 = some .nop
  ∧ decode 0b00000000000000000000000000010010#32 = some .winitU
  ∧ decode 0b00000000000000000000000000010011#32 = some .slideU
  ∧ decode 0b00000000000000000000000000000100#32 = some .blurT
  ∧ decode 0b00000000000000000000000000000111#32 = some .unsharp
  ∧ decode 0b00000000000000000000000000010101#32 = none
  ∧ decode 0b00000000000000000000000000100100#32 = none

/-! ## Steps -/

/-- A step whose pending host step is the CMD write of a command's word, made by a host that is not faulted, is `exec` of that
command, with the host step taken from the input queue, the engine steps that follow it set as its lead, and the write
acknowledged. -/
def Obligations.StepRunsTheWrittenCommand : Prop :=
  ∀ s lead rest w i, s.hostFault = false → s.inbox = ⟨.regWrite 0x14 .word w, lead⟩ :: rest → decode w = some i →
    step s = exec i { s with inbox := rest, lead := lead, reply := .ack }

/-- The state the host places a word in runs exactly that word's command at its next step, from an idle engine. -/
def Obligations.StepRunsThePlacedWord : Prop :=
  ∀ (s : State) i, step (s.withFetchWord 32 (encode i).toNat)
    = exec i { s with inflight := none, hostFault := false, inbox := [], lead := .untilDone, reply := .ack }

/-- R409, R446: with no host step pending the engine takes one step, and none while BUSY = 0. -/
def Obligations.EngineStepsAloneAndOnlyWhileBusy : Prop :=
  (∀ s, s.inbox = [] → step s = .next (engineStep s)) ∧ ∀ s, s.busy = false → engineStep s = s

/-! ## Register window -/

/-- R51, R52: ID, VERSION and CAPS read their constants, and a write to one changes nothing. R406: nor does a write to ERRADDR
or POS. -/
def Obligations.IdentificationRegisters : Prop :=
  ∀ s rest v, s.hostFault = false →
    (s.inbox = ⟨.regRead 0x00 .word, .steps 0⟩ :: rest →
      step s = .next { s with inbox := rest, lead := .steps 0, reply := .data 0x50494341#32 })
    ∧ (s.inbox = ⟨.regRead 0x04 .word, .steps 0⟩ :: rest →
      step s = .next { s with inbox := rest, lead := .steps 0, reply := .data 0x00000001#32 })
    ∧ (s.plat.wellFormed = true → s.inbox = ⟨.regRead 0x08 .word, .steps 0⟩ :: rest →
      step s = .next { s with inbox := rest, lead := .steps 0, reply := .data (0x00FF0000#32 + BitVec.ofNat 32 s.plat.maxLine) })
    ∧ ∀ off ∈ [0x00, 0x04, 0x08, 0x18, 0x1C], s.inbox = ⟨.regWrite off .word v, .steps 0⟩ :: rest →
      step s = .next { s with inbox := rest, lead := .steps 0, reply := .ack }

/-- R405 with R55, R56, R57, R58: a read of CMD, ERRADDR, an operand register or POS returns the register's value with the
unused high bits 0 and changes nothing; POS also while a line command is in flight, where it reads as it stands then. While a
whole-image command is in flight, a read of POS returns a drawn value of its 17 bits, which is the model's own choice (log entry
13). -/
def Obligations.RegisterReadsReturnValues : Prop :=
  ∀ s rest off, s.hostFault = false → s.inbox = ⟨.regRead off .word, .steps 0⟩ :: rest →
    let returns := fun v : Nat => step s = .next { s with inbox := rest, lead := .steps 0, reply := .data (BitVec.ofNat 32 v) }
    (off = 0x14 → returns s.cmd.toNat)
    ∧ (off = 0x18 → returns s.errAddr.toNat)
    ∧ (off = 0x20 → returns s.ops.srcAddr.toNat)
    ∧ (off = 0x24 → returns s.ops.dstAddr.toNat)
    ∧ (off = 0x28 → returns s.ops.workAddr.toNat)
    ∧ (off = 0x2C → returns s.ops.len.toNat)
    ∧ (off = 0x30 → returns s.ops.width.toNat)
    ∧ (off = 0x34 → returns s.ops.height.toNat)
    ∧ (off = 0x38 → returns s.ops.radius.toNat)
    ∧ (off = 0x3C → returns s.ops.steps.toNat)
    ∧ (off = 0x40 → returns s.ops.amount.toNat)
    ∧ (off = 0x44 → returns s.ops.threshold.toNat)
    ∧ (off = 0x48 → returns s.ops.lineLen.toNat)
    ∧ (off = 0x4C → returns s.ops.lineStride.toNat)
    ∧ (off = 0x1C → (s.inflight = none → returns s.win.pos.toNat)
      ∧ ∀ f, s.inflight = some f →
        (f.cmd ∈ [Instr.nop, .mapgen, .winitT, .winitU, .slideT, .slideU] → returns s.win.pos.toNat)
        ∧ (f.cmd ∈ [Instr.blurT, .blurU, .grey, .diffthr, .unsharp] → step s = .next { s with
            inbox := rest
            lead := .steps 0
            draws := s.draws + 1
            reply := .data (BitVec.ofNat 32 ((Config.freeWord s.draws).toNat % 2 ^ 17)) }))

/-- R407: an access to the register window that is not 32 bits wide at a 4-byte-aligned offset gets a bus error and changes no
register, flag or byte, read or written, busy or idle. That the host is faulted by it and afterwards only lets time pass is how
the model reads R407's and I13's "fault of the host" (log entry 8); an offset past the window is answered with a bus error
alone, which is the model's choice (log entry 15). -/
def Obligations.BadRegisterAccessChangesNothing : Prop :=
  (∀ s rest off w v, (w ≠ .word ∨ off % 4 ≠ 0 ∨ 0x50000 ≤ off) → s.hostFault = false →
    (s.inbox = ⟨.regRead off w, .steps 0⟩ :: rest ∨ s.inbox = ⟨.regWrite off w v, .steps 0⟩ :: rest) →
    step s = .next
      { s with inbox := rest, lead := .steps 0, reply := .busError, hostFault := decide (off < 0x50000) })
  ∧ ∀ s e rest, s.hostFault = true → s.inbox = e :: rest → e.op ≠ .resetPin →
    step s = .next (advance { s with inbox := rest, lead := e.lead })

/-- R50: an offset of the window that is not listed, MAP entries at or above MAX_LINE included, reads 0 and ignores
writes. -/
def Obligations.ReservedOffsetsReadZeroAndIgnoreWrites : Prop :=
  ∀ s rest off v, s.hostFault = false → off % 4 = 0 → off < 0x50000 →
    (0x60 ≤ off ∧ off < 0x800 ∨ 0x1000 ≤ off ∧ off < 0x10000 ∨ 0x10000 + 4 * s.plat.maxLine ≤ off) →
    (s.inbox = ⟨.regRead off .word, .steps 0⟩ :: rest →
      step s = .next { s with inbox := rest, lead := .steps 0, reply := .data 0#32 })
    ∧ (s.inbox = ⟨.regWrite off .word v, .steps 0⟩ :: rest →
      step s = .next { s with inbox := rest, lead := .steps 0, reply := .ack })

/-- R58, R406: a write to an operand register stores the low bits of its width, busy or idle, and changes nothing else. -/
def Obligations.OperandWritesStoreTheirWidth : Prop :=
  ∀ s rest off v, s.hostFault = false → s.inbox = ⟨.regWrite off .word v, .steps 0⟩ :: rest →
    (off = 0x20 → step s = .next { s with inbox := rest, lead := .steps 0, reply := .ack, ops := { s.ops with srcAddr := v } })
    ∧ (off = 0x24 → step s = .next { s with inbox := rest, lead := .steps 0, reply := .ack, ops := { s.ops with dstAddr := v } })
    ∧ (off = 0x28 → step s = .next { s with inbox := rest, lead := .steps 0, reply := .ack, ops := { s.ops with workAddr := v } })
    ∧ (off = 0x2C → step s = .next { s with inbox := rest, lead := .steps 0, reply := .ack, ops := { s.ops with len := v } })
    ∧ (off = 0x30 → step s = .next { s with inbox := rest, lead := .steps 0, reply := .ack, ops := { s.ops with width := BitVec.ofNat 16 v.toNat } })
    ∧ (off = 0x34 → step s = .next { s with inbox := rest, lead := .steps 0, reply := .ack, ops := { s.ops with height := BitVec.ofNat 16 v.toNat } })
    ∧ (off = 0x38 → step s = .next { s with inbox := rest, lead := .steps 0, reply := .ack, ops := { s.ops with radius := BitVec.ofNat 8 v.toNat } })
    ∧ (off = 0x3C → step s = .next { s with inbox := rest, lead := .steps 0, reply := .ack, ops := { s.ops with steps := BitVec.ofNat 8 v.toNat } })
    ∧ (off = 0x40 → step s = .next { s with inbox := rest, lead := .steps 0, reply := .ack, ops := { s.ops with amount := BitVec.ofNat 16 v.toNat } })
    ∧ (off = 0x44 → step s = .next { s with inbox := rest, lead := .steps 0, reply := .ack, ops := { s.ops with threshold := BitVec.ofNat 16 v.toNat } })
    ∧ (off = 0x48 → step s = .next { s with inbox := rest, lead := .steps 0, reply := .ack, ops := { s.ops with lineLen := BitVec.ofNat 16 v.toNat } })
    ∧ (off = 0x4C → step s = .next { s with inbox := rest, lead := .steps 0, reply := .ack, ops := { s.ops with lineStride := BitVec.ofNat 16 v.toNat } })

/-- R74, R406: while BUSY = 0 a write to WSUM, INSUM, OUTSUM, SP, WSTORE[k] or MAP[k] stores the low bits of its width in that
register or entry, changes nothing else, and the host reads it back. While BUSY = 1 a write to any of them is ignored and a read
returns an unspecified value (a drawn one) of that width; that the bits above SP's 9 and WSTORE's 8 read 0 there too is the
model's reading (log entry 14). -/
def Obligations.WindowRegistersAreTheHostsOnlyWhileIdle : Prop :=
  ∀ s rest off v mask, s.hostFault = false →
    ((off, mask) ∈ [(0x50, 2 ^ 32), (0x54, 2 ^ 32), (0x58, 2 ^ 32), (0x5C, 2 ^ 9)]
      ∨ (∃ k < 512, off = 0x800 + 4 * k ∧ mask = 2 ^ 8)
      ∨ (s.plat.wellFormed = true ∧ ∃ k < s.plat.maxLine, off = 0x10000 + 4 * k ∧ mask = 2 ^ 32)) →
    (s.busy = false → s.inbox = ⟨.regWrite off .word v, .steps 0⟩ :: ⟨.regRead off .word, .steps 0⟩ :: rest →
      ∃ w, let t := { s with
          inbox := ⟨.regRead off .word, .steps 0⟩ :: rest, lead := .steps 0, reply := .ack, win := w }
        step s = .next t
        ∧ step t = .next { t with inbox := rest, reply := .data (BitVec.ofNat 32 (v.toNat % mask)) }
        ∧ (off = 0x50 → w = { s.win with wsum := v })
        ∧ (off = 0x54 → w = { s.win with insum := v })
        ∧ (off = 0x58 → w = { s.win with outsum := v })
        ∧ (off = 0x5C → w = { s.win with sp := BitVec.ofNat 9 v.toNat })
        ∧ (∀ k < 512, off = 0x800 + 4 * k → w = { s.win with wstore := w.wstore }
          ∧ ∀ j, w.wstore.get j = if j = k then BitVec.ofNat 8 v.toNat else s.win.wstore.get j)
        ∧ (∀ k, off = 0x10000 + 4 * k → w = { s.win with map := w.map }
          ∧ ∀ j, w.map.get j = if j = k then v else s.win.map.get j))
    ∧ (s.busy = true → s.inbox = ⟨.regWrite off .word v, .steps 0⟩ :: rest →
      step s = .next { s with inbox := rest, lead := .steps 0, reply := .ack })
    ∧ (s.busy = true → s.inbox = ⟨.regRead off .word, .steps 0⟩ :: rest →
      step s = .next { s with
        inbox := rest
        lead := .steps 0
        draws := s.draws + 1
        reply := .data (BitVec.ofNat 32 ((Config.freeWord s.draws).toNat % mask)) })

/-- R53: every CTRL write with bit 31 = 0 updates the three enables and nothing else, busy or idle; one with bit 31 = 1
performs the soft reset instead and its bits 2:0 are discarded; CTRL reads its enables in bits 2:0 and 0 elsewhere. -/
def Obligations.CtrlWriteAndRead : Prop :=
  ∀ s rest v, s.hostFault = false →
    (s.inbox = ⟨.regWrite 0x0C .word v, .steps 0⟩ :: rest →
      (v.getLsbD 31 = false →
        step s = .next { s with inbox := rest, lead := .steps 0, reply := .ack
                                ctrl := ⟨v.getLsbD 0, v.getLsbD 1, v.getLsbD 2⟩ })
      ∧ (v.getLsbD 31 = true →
        step s = .next (resetEngine { s with inbox := rest, lead := .steps 0, reply := .ack })
        ∧ (resetEngine s).ctrl = ⟨false, false, false⟩))
    ∧ (s.inbox = ⟨.regRead 0x0C .word, .steps 0⟩ :: rest →
      ∃ w, step s = .next { s with inbox := rest, lead := .steps 0, reply := .data w }
        ∧ w.getLsbD 0 = s.ctrl.doneIE ∧ w.getLsbD 1 = s.ctrl.errIE ∧ w.getLsbD 2 = s.ctrl.lostIE
        ∧ ∀ n, 3 ≤ n → w.getLsbD n = false)

/-- R54: the layout STATUS reads in, and its write: DONE, ERR and LOST are cleared where the written value has a 1, a write
that clears ERR also clears ERRCODE and ERRADDR, nothing else changes. -/
def Obligations.StatusLayoutAndWriteOneToClear : Prop :=
  ∀ s rest v, s.hostFault = false → (s.flags.err = false → s.flags.code = .none) →
    (s.inbox = ⟨.regRead 0x10 .word, .steps 0⟩ :: rest →
      ∃ w, step s = .next { s with inbox := rest, lead := .steps 0, reply := .data w }
        ∧ w.getLsbD 0 = s.busy ∧ w.getLsbD 1 = s.flags.done ∧ w.getLsbD 2 = s.flags.err ∧ w.getLsbD 3 = s.flags.lost
        ∧ w.toNat / 16 % 16 = 0 ∧ w.toNat / 256 = s.flags.code.toNat ∧ (s.flags.err = false → w.toNat / 256 = 0))
    ∧ (s.inbox = ⟨.regWrite 0x10 .word v, .steps 0⟩ :: rest →
      step s = .next { s with
        inbox := rest
        lead := .steps 0
        reply := .ack
        flags := { done := s.flags.done && !v.getLsbD 1, err := s.flags.err && !v.getLsbD 2
                   lost := s.flags.lost && !v.getLsbD 3
                   code := if v.getLsbD 2 then .none else s.flags.code }
        errAddr := if v.getLsbD 2 && s.flags.err then 0 else s.errAddr })

/-- R436: the interrupt output over the bits STATUS and CTRL read. -/
def Obligations.InterruptIsAnEnabledFlag : Prop :=
  ∀ s : State, s.irq =
    ((s.statusWord.getLsbD 1 && s.ctrlWord.getLsbD 0) || (s.statusWord.getLsbD 2 && s.ctrlWord.getLsbD 1)
      || (s.statusWord.getLsbD 3 && s.ctrlWord.getLsbD 2))

/-- R207: WAIT reads STATUS and stays while BUSY = 1; the engine goes on by the lead. -/
def Obligations.WaitPollsUntilIdle : Prop :=
  ∀ s rest, s.hostFault = false → s.inbox = ⟨.wait, .steps 0⟩ :: rest →
    (s.busy = true → step s = .next { s with lead := .steps 0, reply := .data s.statusWord })
    ∧ (s.busy = false → step s = .next { s with inbox := rest, lead := .steps 0, reply := .data s.statusWord })

/-- R206, R207: the host steps each line of a host program and each pseudo-instruction expands to, in their order, a line after
the other; the offset of a name is that of R50's table. The addresses of MEM are exact integers that do not wrap (log entries
15, 28), and the products for LEN are taken in 32 bits (log entry 28): the model's choices. -/
def Obligations.HostProgramsExpand : Prop :=
  ∀ lead,
    let wr := fun (x : Nat × Word) => (⟨.regWrite x.1 .word x.2, lead⟩ : HostEvent)
    (∀ xs ys, program lead (xs ++ ys) = program lead xs ++ program lead ys)
    ∧ (∀ r v, program lead [.wr r v] = [wr (offsetOf r, v)] ∧ program lead [.rd r] = [⟨.regRead (offsetOf r) .word, lead⟩])
    ∧ (∀ r maxLine, maxLine ≤ 65535 → r.wellFormed maxLine = true → regAt maxLine (offsetOf r) = some r)
    ∧ (∀ i, ∃ w, (w, i) ∈ opcodeMap ∧ program lead [.cmd i] = [wr (0x14, w)])
    ∧ program lead [.wait] = [⟨.wait, lead⟩]
    ∧ program lead [.clr] = [wr (0x10, 0x0000000E)]
    ∧ (∀ a bytes, program lead [.mem a bytes] = bytes.mapIdx (fun k b => ⟨.memWrite (a.toNat + k) b, lead⟩))
    ∧ (∀ src dst w h r st, program lead [.fastblur .T src dst w h r st]
        = [(0x20, src), (0x24, dst), (0x30, w), (0x34, h), (0x2C, w * h), (0x38, r), (0x3C, st), (0x14, 0x00000004)].map wr
          ++ [⟨.wait, lead⟩])
    ∧ (∀ src dst w h r st, program lead [.fastblur .U src dst w h r st]
        = [(0x20, src), (0x24, dst), (0x30, w), (0x34, h), (0x2C, w * h), (0x38, r), (0x3C, st), (0x14, 0x00000014)].map wr
          ++ [⟨.wait, lead⟩])
    ∧ (∀ src work w h amt thr, program lead [.unsharpm src work w h amt thr]
        = [(0x20, src), (0x28, work), (0x30, w), (0x34, h), (0x2C, 4 * w * h), (0x40, amt), (0x44, thr),
            (0x14, 0x00000007)].map wr
          ++ [⟨.wait, lead⟩])
    ∧ ∀ src dst l st r, program lead [.line src dst l st r]
        = [(0x20, src), (0x24, dst), (0x48, l), (0x4C, st), (0x38, r)].map wr

/-! ## Reset -/

/-- R480, the reset values of R50's table: what the machine holds right after reset. -/
def Obligations.ResetRegisterValues : Prop :=
  State.reset.inflight = none ∧ State.reset.statusWord = 0#32 ∧ State.reset.ctrlWord = 0#32 ∧ State.reset.irq = false
  ∧ State.reset.cmd = 0 ∧ State.reset.errAddr = 0
  ∧ State.reset.ops = ⟨0, 0, 0, 0, 0, 0, 0, 1, 0, 0, 0, 0⟩
  ∧ State.reset.win.wsum = 0 ∧ State.reset.win.insum = 0 ∧ State.reset.win.outsum = 0
  ∧ State.reset.win.sp = 0 ∧ State.reset.win.pos = 0

/-- R408, R480: soft and hardware reset from any state. The command in flight is abandoned and each byte of its write
footprint holds an unspecified (drawn) value; every register takes its reset value; WSTORE and MAP are unspecified; the
interrupt deasserts; the engine is left with no step to take. The bits 2:0 written with SRST are discarded. That every other
byte keeps its value and that the platform, the host's queue and the host's fault stay, after the reset input too, is the
model's choice (log entry 25), and so is that the reset input is one step of no duration (log entry 27). -/
def Obligations.ResetAbandonsAndRestores : Prop :=
  ∀ s rest v e,
    (e = ⟨.resetPin, .steps 0⟩
      ∨ (s.hostFault = false ∧ e = ⟨.regWrite 0x0C .word v, .steps 0⟩ ∧ v.getLsbD 31 = true)) →
    s.inbox = e :: rest →
    ∃ t, step s = .next t ∧ t.inflight = none ∧ t.statusWord = 0#32 ∧ t.ctrlWord = 0#32 ∧ t.irq = false
      ∧ t.cmd = 0 ∧ t.errAddr = 0 ∧ t.ops = OperandRegs.reset
      ∧ t.win.wsum = 0 ∧ t.win.insum = 0 ∧ t.win.outsum = 0 ∧ t.win.sp = 0 ∧ t.win.pos = 0
      ∧ DrawnRam s t t.win.wstore ∧ DrawnRam s t t.win.map
      ∧ (∀ f, s.inflight = some f → ∀ a ∈ f.foot.writes, Drawn s t (t.mem.read a))
      ∧ (∀ a, (∀ f, s.inflight = some f → a ∉ f.foot.writes) → t.mem.read a = s.mem.read a)
      ∧ engineStep t = t ∧ t.plat = s.plat ∧ t.inbox = rest ∧ t.hostFault = s.hostFault

/-! ## Issue, errors, completion -/

/-- R402: NOP completes at once and changes only CMD, the flags and ERRADDR; the word 0x00000010 is illegal. -/
def Obligations.NopCompletesAtOnce : Prop :=
  (∀ s, s.inflight = none →
    exec .nop s = .next { s with
      cmd := 0x00000000#32
      flags := { done := true, err := false, lost := s.flags.lost, code := .none }
      errAddr := 0 })
  ∧ decode 0x00000010#32 = none

/-- R403: a CMD write while BUSY = 1, whatever its word: the word is discarded, CMD is kept, LOST is set, and the command in
flight takes the same steps it would have taken. Unspecified values are compared draw for draw, which is the model's own choice
(log entry 5). -/
def Obligations.IssueWhileBusyIsLost : Prop :=
  (∀ i s, s.busy = true → s.lead = .steps 0 → exec i s = .next { s with flags := { s.flags with lost := true } })
  ∧ (∀ w s, s.busy = true → s.lead = .steps 0 → issueWord w s = .next { s with flags := { s.flags with lost := true } })
  ∧ ∀ n s, engineRun n { s with flags := { s.flags with lost := true } }
      = { engineRun n s with flags := { (engineRun n s).flags with lost := true } }

/-- R432: the acceptance checks in their order, the decoder's first; the first that fails gives the error, and the error is
precise (R434): CMD, the flags and ERRADDR are all that changes. A command whose checks pass is not refused with an error. -/
def Obligations.AcceptanceChecksInOrder : Prop :=
  (∀ w s, s.inflight = none →
    (decode w = none → issueWord w s = .next (failedAt w .illegal s)) ∧ ∀ i, decode w = some i → issueWord w s = exec i s)
  ∧ ∀ i s, s.inflight = none →
    (∀ e, expectedError i s.ops s.win s.plat = some e → exec i s = .next (failedAt (encode i) e s))
    ∧ (expectedError i s.ops s.win s.plat = none → ∀ e, exec i s ≠ .next (failedAt (encode i) e s))

/-- R433: error reporting is one step that writes BUSY, ERR, ERRCODE and ERRADDR and nothing else. -/
def Obligations.ErrorReportingWritesOnlyItsFour : Prop :=
  ∀ e a s, raiseError e a s =
    { s with
      inflight := none
      flags := { done := s.flags.done, err := true, lost := s.flags.lost, code := e }
      errAddr := if e = .busErr then BitVec.ofNat 32 a else 0 }

/-- R151, R154: an idle engine refuses a command exactly when its checks pass and its footprint meets the register window,
and faults exactly when it meets memory that is not idempotent instead; that this comes after the checks, and in this order, is
the model's choice (log entry 22). There is no other stop: a step of the machine that does not answer a next state is the CMD
write of a command's word to an idle engine, and while BUSY = 1 every command write answers a next state. -/
def Obligations.OnlyForbiddenBuffersStopTheMachine : Prop :=
  (∀ i s, s.inflight = none →
    let f := s.footprint i
    let passes := expectedError i s.ops s.win s.plat = none
    let inWindow := ∃ a ∈ f.reads ++ f.writes, s.plat.inWindow a = true
    let inDevice := ∃ a ∈ f.reads ++ f.writes, s.plat.inDevice a = true
    (passes ∧ inWindow → exec i s = .refused .bufferInRegisterWindow)
    ∧ (passes ∧ ¬inWindow ∧ inDevice → exec i s = .fault .nonIdempotentBuffer)
    ∧ (¬(passes ∧ (inWindow ∨ inDevice)) → ∃ t, exec i s = .next t))
  ∧ (∀ i s, s.busy = true → ∃ t, exec i s = .next t)
  ∧ ∀ s, (∀ t, step s ≠ .next t) → s.inflight = none ∧ s.hostFault = false
    ∧ ∃ w i lead rest, s.inbox = ⟨.regWrite 0x14 .word w, lead⟩ :: rest ∧ decode w = some i
      ∧ step s = exec i { s with inbox := rest, lead := lead, reply := .ack }

/-- R401: a command that no host step disturbs ends: BUSY is 0 after its last engine step. -/
def Obligations.UndisturbedCommandsEnd : Prop :=
  ∀ i s t, s.lead = .untilDone → exec i s = .next t → t.busy = false

/-- R58, R433: no command writes an operand register, CTRL or a platform parameter, and none touches the host's queue. -/
def Obligations.NoCommandWritesOperandRegisters : Prop :=
  ∀ i s t, exec i s = .next t →
    t.ops = s.ops ∧ t.ctrl = s.ctrl ∧ t.plat = s.plat ∧ t.inbox = s.inbox ∧ t.lead = s.lead ∧ t.reply = s.reply
    ∧ t.hostDirty = s.hostDirty ∧ t.hostFault = s.hostFault

/-- R165, R306, R351: whatever an idle engine is issued and however the command ends or is interrupted, every byte outside
the write footprint keeps its value. -/
def Obligations.OnlyTheWriteFootprintChanges : Prop :=
  ∀ i s t, s.inflight = none → exec i s = .next t → ∀ a, a ∉ (s.footprint i).writes → t.mem.read a = s.mem.read a

/-- R351: GREY, DIFFTHR and UNSHARP never write an alpha byte of the image at SRC. -/
def Obligations.AlphaBytesKeepTheirValues : Prop :=
  ∀ i s t q, i ∈ [Instr.grey, .diffthr, .unsharp] → s.inflight = none → exec i s = .next t →
    q < s.ops.width.toNat * s.ops.height.toNat →
    t.mem.read (s.ops.srcAddr.toNat + 4 * q + 3) = s.mem.read (s.ops.srcAddr.toNat + 4 * q + 3)

/-! ## The line engine -/

/-- R252: MAPGEN writes MAP[0..L-1], leaves the rest of MAP and everything else unchanged, and completes. -/
def Obligations.MapgenWritesClampedOffsets : Prop :=
  ∀ s, Runs .mapgen s →
    ∃ t, exec .mapgen s = .next t ∧ Completed 0x00000001#32 [] s t
      ∧ (∀ j < s.ops.lineLen.toNat, t.win.map.get j =
          BitVec.ofNat 32 (min (j + s.ops.radius.toNat + 1) (s.ops.lineLen.toNat - 1) * s.ops.lineStride.toNat))
      ∧ (∀ j, s.ops.lineLen.toNat ≤ j → t.win.map.get j = s.win.map.get j)
      ∧ t = { t with mem := s.mem, draws := s.draws, order := s.order, win := { s.win with map := t.win.map } }

/-- R255: WINIT.T leaves the triangular window sums of the clamped samples around line index 0, SP = r, POS = 0; WSTORE
above d - 1, MAP and memory are unchanged. -/
def Obligations.WinitTriangular : Prop :=
  ∀ s, Runs .winitT s →
    let r := s.ops.radius.toNat
    let p := lineSample s.mem s.ops.srcAddr.toNat s.ops.lineStride.toNat s.ops.lineLen.toNat
    ∃ t, exec .winitT s = .next t ∧ Completed 0x00000002#32 [] s t
      ∧ (∀ j < 2 * r + 1, (t.win.wstore.get j).toNat = p ((j : Int) - r))
      ∧ (∀ j, 2 * r + 1 ≤ j → t.win.wstore.get j = s.win.wstore.get j)
      ∧ t.win.wsum.toNat = kernelSum .T r p 0 ∧ t.win.insum.toNat = rightSum r p 0 ∧ t.win.outsum.toNat = leftSum r p 0
      ∧ t.win.sp.toNat = r ∧ t.win.pos = 0 ∧ t.win.map = s.win.map ∧ t.mem = s.mem ∧ t.draws = s.draws
      ∧ t.order = s.order

/-- R256: WINIT.U does the same with the flat window sum. -/
def Obligations.WinitUniform : Prop :=
  ∀ s, Runs .winitU s →
    let r := s.ops.radius.toNat
    let p := lineSample s.mem s.ops.srcAddr.toNat s.ops.lineStride.toNat s.ops.lineLen.toNat
    ∃ t, exec .winitU s = .next t ∧ Completed 0x00000012#32 [] s t
      ∧ (∀ j < 2 * r + 1, (t.win.wstore.get j).toNat = p ((j : Int) - r))
      ∧ (∀ j, 2 * r + 1 ≤ j → t.win.wstore.get j = s.win.wstore.get j)
      ∧ t.win.wsum.toNat = kernelSum .U r p 0 ∧ t.win.insum.toNat = rightSum r p 0 ∧ t.win.outsum.toNat = leftSum r p 0
      ∧ t.win.sp.toNat = r ∧ t.win.pos = 0 ∧ t.win.map = s.win.map ∧ t.mem = s.mem ∧ t.draws = s.draws
      ∧ t.order = s.order

/-- R259, R264: from every starting state SLIDE.T computes exactly what its pseudocode says over exact integers with wrap32
and the low 8 bits of the quotient; MAP and every other register are unchanged. -/
def Obligations.SlideTriangularIsItsPseudocode : Prop :=
  ∀ s, Runs .slideT s →
    ∃ t, exec .slideT s = .next t
      ∧ Completed 0x00000003#32 (lineAddrs s.ops.dstAddr.toNat s.ops.lineLen.toNat s.ops.lineStride.toNat) s t
      ∧ LineRef.of t = LineRef.slide .T s s.ops.lineLen.toNat ∧ t.win.map = s.win.map ∧ t.draws = s.draws
      ∧ t.order = s.order

/-- R260, R264: the same of SLIDE.U. -/
def Obligations.SlideUniformIsItsPseudocode : Prop :=
  ∀ s, Runs .slideU s →
    ∃ t, exec .slideU s = .next t
      ∧ Completed 0x00000013#32 (lineAddrs s.ops.dstAddr.toNat s.ops.lineLen.toNat s.ops.lineStride.toNat) s t
      ∧ LineRef.of t = LineRef.slide .U s s.ops.lineLen.toNat ∧ t.win.map = s.win.map ∧ t.draws = s.draws
      ∧ t.order = s.order

/-- R262, R263, the line theorem, for SLIDE.T: from the window state at centre 0 with the mapping of R252, in place or with
disjoint lines, every output byte is the triangular kernel of the clamped samples; with disjoint lines the window state at
centre L is left. An inference of the spec's own ("derived"). -/
def Obligations.LineTheoremTriangular : Prop :=
  ∀ s, Runs .slideT s →
    let r := s.ops.radius.toNat
    let L := s.ops.lineLen.toNat
    let st := s.ops.lineStride.toNat
    let src := s.ops.srcAddr.toNat
    let dst := s.ops.dstAddr.toNat
    let p := lineSample s.mem src st L
    let apart := ∀ j < L, ∀ k < L, dst + j * st ≠ src + k * st
    WindowState .T r p 0 s.win → (∀ j < L, (s.win.map.get j).toNat = min (j + r + 1) (L - 1) * st) →
    dst = src ∨ apart →
    ∃ t, exec .slideT s = .next t
      ∧ (∀ x < L, (t.mem.read (dst + x * st)).toNat = lineOut .T r p x)
      ∧ (apart → WindowState .T r p L t.win)

/-- R262, R263 for SLIDE.U, which reads no mapping. An inference of the spec's own ("derived"). -/
def Obligations.LineTheoremUniform : Prop :=
  ∀ s, Runs .slideU s →
    let r := s.ops.radius.toNat
    let L := s.ops.lineLen.toNat
    let st := s.ops.lineStride.toNat
    let src := s.ops.srcAddr.toNat
    let dst := s.ops.dstAddr.toNat
    let p := lineSample s.mem src st L
    let apart := ∀ j < L, ∀ k < L, dst + j * st ≠ src + k * st
    WindowState .U r p 0 s.win →
    dst = src ∨ apart →
    ∃ t, exec .slideU s = .next t
      ∧ (∀ x < L, (t.mem.read (dst + x * st)).toNat = lineOut .U r p x)
      ∧ (apart → WindowState .U r p L t.win)

/-! ## BLUR -/

/-- R304: BLUR.T leaves `(Vt o Hz)^steps` of the source image at DST if r >= 1, writes nothing outside DST, and completes.
An inference of the spec's own ("derived"). -/
def Obligations.BlurTriangularResult : Prop :=
  ∀ s, Runs .blurT s →
    let w := s.ops.width.toNat
    let h := s.ops.height.toNat
    let r := s.ops.radius.toNat
    ∃ t, exec .blurT s = .next t ∧ Completed 0x00000004#32 (span s.ops.dstAddr.toNat (w * h)) s t
      ∧ (1 ≤ r → ∀ q < w * h, imageAt t.mem s.ops.dstAddr.toNat q
          = blurred .T r w h s.ops.steps.toNat (imageAt s.mem s.ops.srcAddr.toNat) q)
      ∧ ∀ a, a ∉ span s.ops.dstAddr.toNat (w * h) → t.mem.read a = s.mem.read a

/-- R304 for BLUR.U. An inference of the spec's own ("derived"). -/
def Obligations.BlurUniformResult : Prop :=
  ∀ s, Runs .blurU s →
    let w := s.ops.width.toNat
    let h := s.ops.height.toNat
    let r := s.ops.radius.toNat
    ∃ t, exec .blurU s = .next t ∧ Completed 0x00000014#32 (span s.ops.dstAddr.toNat (w * h)) s t
      ∧ (1 ≤ r → ∀ q < w * h, imageAt t.mem s.ops.dstAddr.toNat q
          = blurred .U r w h s.ops.steps.toNat (imageAt s.mem s.ops.srcAddr.toNat) q)
      ∧ ∀ a, a ∉ span s.ops.dstAddr.toNat (w * h) → t.mem.read a = s.mem.read a

/-- R303: with r = 0, whatever STEPS is, or with STEPS = 0, BLUR.T and BLUR.U only copy the image and complete. -/
def Obligations.DegenerateBlurIsACopy : Prop :=
  ∀ i s, i ∈ [Instr.blurT, .blurU] → Runs i s → s.ops.radius = 0 ∨ s.ops.steps = 0 →
    let n := s.ops.width.toNat * s.ops.height.toNat
    ∃ t, exec i s = .next t ∧ t.flags.done = true ∧ t.flags.err = false ∧ t.busy = false
      ∧ (∀ q < n, t.mem.read (s.ops.dstAddr.toNat + q) = s.mem.read (s.ops.srcAddr.toNat + q))
      ∧ ∀ a, a ∉ span s.ops.dstAddr.toNat n → t.mem.read a = s.mem.read a

/-- R305 (c) and (e): BLUR leaves the source image unchanged, and blurring a flat image gives the same flat image, for both
variants and any radius and steps. An inference of the spec's own ("derived"). -/
def Obligations.BlurKeepsSourceAndFlatFields : Prop :=
  ∀ i s, i ∈ [Instr.blurT, .blurU] → Runs i s →
    let n := s.ops.width.toNat * s.ops.height.toNat
    ∃ t, exec i s = .next t
      ∧ (∀ q < n, t.mem.read (s.ops.srcAddr.toNat + q) = s.mem.read (s.ops.srcAddr.toNat + q))
      ∧ ∀ c : Byte, (∀ q < n, s.mem.read (s.ops.srcAddr.toNat + q) = c) →
          ∀ q < n, t.mem.read (s.ops.dstAddr.toNat + q) = c

/-! ## GREY, DIFFTHR, UNSHARP -/

/-- R352: GREY writes the luma of every pixel at DST, changes no other byte, and completes. -/
def Obligations.GreyWritesLuma : Prop :=
  ∀ s, Runs .grey s →
    let n := s.ops.width.toNat * s.ops.height.toNat
    ∃ t, exec .grey s = .next t ∧ Completed 0x00000005#32 (span s.ops.dstAddr.toNat n) s t
      ∧ (∀ q < n, imageAt t.mem s.ops.dstAddr.toNat q = greyAt s.mem s.ops.srcAddr.toNat q)
      ∧ ∀ a, a ∉ span s.ops.dstAddr.toNat n → t.mem.read a = s.mem.read a

/-- R353, R354, R355: DIFFTHR corrects every colour byte of every pixel with `|g - b| > THRESHOLD` by the exact correction
truncated toward zero and clamped, changes no other byte, and completes. The colour bytes of the other pixels are not
accessed: they need not answer. That without coherence they count as engine-written for the host's cache all the same is the
model's choice (log entry 12). -/
def Obligations.DiffthrCorrectsColourLanes : Prop :=
  ∀ s, Undisturbed s → expectedError .diffthr s.ops s.win s.plat = none → Clear (s.footprint .diffthr) s →
    let n := s.ops.width.toNat * s.ops.height.toNat
    let src := s.ops.srcAddr.toNat
    let work := s.ops.workAddr.toNat
    (∀ a ∈ span work (2 * n), s.plat.memOk a = true) →
    (∀ q < n, ∀ c < 3,
      s.ops.threshold.toNat < (((s.mem.read (work + q)).toNat : Int) - (s.mem.read (work + n + q)).toNat).natAbs →
      s.plat.memOk (src + 4 * q + c) = true) →
    ∃ t, exec .diffthr s = .next t ∧ Completed 0x00000006#32 (colourAddrs src n) s t
      ∧ (∀ q < n, ∀ c < 3, ((t.mem.read (src + 4 * q + c)).toNat : Int)
          = corrected s.ops.amount.toNat s.ops.threshold.toNat (s.mem.read (work + q)).toNat
              (s.mem.read (work + n + q)).toNat (s.mem.read (src + 4 * q + c)).toNat)
      ∧ ∀ a, a ∉ colourAddrs src n → t.mem.read a = s.mem.read a

/-- R358 with R304, R352 and R355: UNSHARP leaves the luma image at WORK, its radius-3, 3-pass triangular blur at WORK + n,
and every colour byte corrected by them, changes no other byte, and completes. That without coherence the colour bytes of
uncorrected pixels, which its last phase does not access, count as engine-written for the host's cache all the same is the
model's choice (log entry 12). -/
def Obligations.UnsharpResult : Prop :=
  ∀ s, Runs .unsharp s →
    let w := s.ops.width.toNat
    let h := s.ops.height.toNat
    let n := w * h
    let src := s.ops.srcAddr.toNat
    let work := s.ops.workAddr.toNat
    let gs := greyAt s.mem src
    let bl := blurred .T 3 w h 3 gs
    ∃ t, exec .unsharp s = .next t
      ∧ Completed 0x00000007#32 (colourAddrs src n ++ span work (2 * n)) s t
      ∧ (∀ q < n, imageAt t.mem work q = gs q ∧ imageAt t.mem (work + n) q = bl q)
      ∧ (∀ q < n, ∀ c < 3, ((t.mem.read (src + 4 * q + c)).toNat : Int)
          = corrected s.ops.amount.toNat s.ops.threshold.toNat (gs q) (bl q) (s.mem.read (src + 4 * q + c)).toNat)
      ∧ ∀ a, a ∉ colourAddrs src n ++ span work (2 * n) → t.mem.read a = s.mem.read a

/-- R356: UNSHARP ignores RADIUS and STEPS: whatever they hold, it ends the same way and leaves the same state but for
them. Unspecified values are compared draw for draw, which is the model's own choice (log entry 5). -/
def Obligations.UnsharpIgnoresRadiusAndSteps : Prop :=
  ∀ s t radius steps, s.inflight = none → s.lead = .untilDone → exec .unsharp s = .next t →
    exec .unsharp { s with ops := { s.ops with radius := radius, steps := steps } }
      = .next { t with ops := { t.ops with radius := radius, steps := steps } }

/-- R359 (a): UNSHARP changes no byte of a flat image, whatever AMOUNT and THRESHOLD are. An inference of the spec's own
("derived"). -/
def Obligations.UnsharpLeavesFlatImages : Prop :=
  ∀ s, Runs .unsharp s →
    let n := s.ops.width.toNat * s.ops.height.toNat
    let src := s.ops.srcAddr.toNat
    (∀ q < n, ∀ c < 3, s.mem.read (src + 4 * q + c) = s.mem.read (src + c)) →
    ∃ t, exec .unsharp s = .next t ∧ ∀ a < 4 * n, t.mem.read (src + a) = s.mem.read (src + a)

/-- R75: after a whole-image command, completed or ended by E_BUSERR, the window registers, WSTORE and MAP hold drawn values;
after an acceptance error they are as before. -/
def Obligations.ImageCommandsLeaveTheWindowUnspecified : Prop :=
  ∀ i s t, i ∈ [Instr.blurT, .blurU, .grey, .diffthr, .unsharp] → Undisturbed s → exec i s = .next t →
    (expectedError i s.ops s.win s.plat = none → WindowDrawn s t)
    ∧ (expectedError i s.ops s.win s.plat ≠ none → t.win = s.win)

/-! ## E_BUSERR -/

/-- R431, R251 for WINIT: the first read that does not answer, in the order k = -r .. r, ends the command with E_BUSERR at
its address; WSUM, INSUM, OUTSUM, SP, POS and WSTORE[0..d-1] hold drawn values; memory, MAP and WSTORE above d - 1 are
unchanged. -/
def Obligations.WinitBusError : Prop :=
  ∀ i s j0, (i = .winitT ∨ i = .winitU) → Undisturbed s → expectedError i s.ops s.win s.plat = none →
    Clear (s.footprint i) s →
    let r := s.ops.radius.toNat
    let addr := fun j : Nat => s.ops.srcAddr.toNat + edge s.ops.lineLen.toNat ((j : Int) - r) * s.ops.lineStride.toNat
    j0 < 2 * r + 1 → (∀ j < j0, s.plat.memOk (addr j) = true) → s.plat.memOk (addr j0) = false →
    ∃ t, exec i s = .next t ∧ BusErrored (encode i) (BitVec.ofNat 32 (addr j0)) [] [] s t
      ∧ t.mem = s.mem ∧ t.win.map = s.win.map ∧ RegsDrawn s t
      ∧ (∀ k, k < 2 * r + 1 → Drawn s t (t.win.wstore.get k))
      ∧ (∀ k, 2 * r + 1 ≤ k → t.win.wstore.get k = s.win.wstore.get k) ∧ t.order = s.order

/-- R431, R251 for SLIDE.T and SLIDE.U: if the accesses of the steps before `k` answer and the write of step `k` does not, or
that write answers and the read of step `k` does not, the command ends with E_BUSERR at that address, and memory holds
exactly what the pseudocode had written, at the addresses of the writes done. WSUM, INSUM, OUTSUM, SP, POS and the WSTORE
entries the command would have written, taken to be its L slots from the trailing one on (log entry 17), hold drawn values; the
other entries, WSTORE[d..511] among them, and MAP are unchanged. -/
def Obligations.SlideBusError : Prop :=
  ∀ i s k, (i = .slideT ∨ i = .slideU) → Undisturbed s → expectedError i s.ops s.win s.plat = none →
    Clear (s.footprint i) s →
    let L := s.ops.lineLen.toNat
    let st := s.ops.lineStride.toNat
    let r := s.ops.radius.toNat
    let var := if i = .slideT then Variant.T else .U
    let wr := fun j : Nat => s.ops.dstAddr.toNat + j * st
    let rd := fun j : Nat => s.ops.srcAddr.toNat
      + (if i = .slideT then (s.win.map.get j).toNat else min (j + r + 1) (L - 1) * st)
    let slot := fun j : Nat => (s.win.sp.toNat + r + 1 + j) % (2 * r + 1)
    let before := LineRef.slide var s k
    let ends := fun (a n : Nat) (t : State) =>
      BusErrored (encode i) (BitVec.ofNat 32 a) (lineAddrs s.ops.dstAddr.toNat L st) (lineAddrs s.ops.dstAddr.toNat n st) s t
      ∧ t.win.map = s.win.map ∧ RegsDrawn s t
      ∧ (∀ j < L, Drawn s t (t.win.wstore.get (slot j)))
      ∧ (∀ e, (∀ j < L, e ≠ slot j) → t.win.wstore.get e = s.win.wstore.get e) ∧ t.order = s.order
    k < L → (∀ j < k, s.plat.memOk (wr j) = true ∧ s.plat.memOk (rd j) = true) →
    (s.plat.memOk (wr k) = false →
      ∃ t, exec i s = .next t ∧ ends (wr k) k t ∧ ∀ a, (t.mem.read a).toNat = before.mem a)
    ∧ (s.plat.memOk (wr k) = true → s.plat.memOk (rd k) = false →
      ∃ t, exec i s = .next t ∧ ends (rd k) (k + 1) t
        ∧ ∀ a, (t.mem.read a).toNat = (before.emit var s.ops.dstAddr.toNat st r k).mem a)

/-- R431 for the whole-image commands: if a byte that the command must access does not answer (for DIFFTHR a byte of WORK, or
a colour byte of a pixel with `|diff| > THRESHOLD`: the other colour bytes are not accessed), it ends with E_BUSERR, ERRADDR is
an address of its footprint that does not answer, every byte of the write footprint and the whole window state hold drawn
values (R75), and every other byte keeps its value. That without coherence all of the write footprint counts as engine-written
for the host's cache is the model's choice (log entry 12). -/
def Obligations.ImageBusError : Prop :=
  ∀ i s b, i ∈ [Instr.blurT, .blurU, .grey, .diffthr, .unsharp] → Undisturbed s →
    expectedError i s.ops s.win s.plat = none → Clear (s.footprint i) s →
    let n := s.ops.width.toNat * s.ops.height.toNat
    let src := s.ops.srcAddr.toNat
    let work := s.ops.workAddr.toNat
    b ∈ (s.footprint i).reads ++ (s.footprint i).writes → s.plat.memOk b = false →
    (i = .diffthr → b ∈ span work (2 * n)
      ∨ ∃ q < n, ∃ c < 3, b = src + 4 * q + c ∧ s.ops.threshold.toNat
          < (((s.mem.read (work + q)).toNat : Int) - (s.mem.read (work + n + q)).toNat).natAbs) →
    ∃ t a, exec i s = .next t ∧ a ∈ (s.footprint i).reads ++ (s.footprint i).writes ∧ s.plat.memOk a = false
      ∧ BusErrored (encode i) (BitVec.ofNat 32 a) (s.footprint i).writes (s.footprint i).writes s t
      ∧ (∀ c ∈ (s.footprint i).writes, Drawn s t (t.mem.read c)) ∧ WindowDrawn s t
      ∧ ∀ c, c ∉ (s.footprint i).writes → t.mem.read c = s.mem.read c

/-! ## The order of lines and pixels -/

/-- R444, R156 (b), R304: in whichever order the lines of a sweep and the pixels of GREY and DIFFTHR are taken, a whole-image
command that nothing disturbs leaves the same value in every byte and the same state otherwise, but for the choices of order it
used up. An inference of the spec's own ("derived"); unspecified values are compared draw for draw, which is the model's own
choice (log entry 5). -/
def Obligations.OrderOfLinesDoesNotShow : Prop :=
  ∀ i s order, i ∈ [Instr.blurT, .blurU, .grey, .diffthr, .unsharp] → Runs i s →
    ∃ t u, exec i s = .next t ∧ exec i { s with order := order } = .next u
      ∧ (∀ a, u.mem.read a = t.mem.read a)
      ∧ u = { t with mem := u.mem, order := u.order }

/-! ## Interleaving -/

/-- R401, R409: a host that does nothing for a while changes nothing. However many engine steps a command is first given,
letting it run on leaves what the undisturbed command leaves. Unspecified values are compared draw for draw, which is the
model's own choice (log entry 5). -/
def Obligations.HostPausesDoNotChangeACommand : Prop :=
  ∀ i (s : State) n t u, s.inflight = none →
    exec i { s with lead := .steps n } = .next t → exec i { s with lead := .untilDone } = .next u →
    engineRun t.remaining t = { u with lead := .steps n }

/-- R400, R59: acceptance of a command other than NOP that passes its checks, with a footprint the model does not stop on, sets
BUSY, puts the command in flight with the operand registers of that moment as its snapshot, writes CMD, clears DONE, ERR and
ERRCODE, and changes nothing else; memory and the window are as before. R59: a host write to an operand register at any time
changes the register and no part of the command in flight: it commutes with every engine step. Unspecified values are compared
draw for draw, which is the model's own choice (log entry 5). -/
def Obligations.OperandWritesDoNotTouchTheCommandInFlight : Prop :=
  (∀ i (s : State), i ≠ .nop → s.inflight = none → s.lead = .steps 0 → expectedError i s.ops s.win s.plat = none →
    (∀ a ∈ (s.footprint i).reads ++ (s.footprint i).writes, s.plat.inWindow a = false ∧ s.plat.inDevice a = false) →
    ∃ f : InFlight, f.cmd = i ∧ f.snap = s.ops ∧ f.foot = s.footprint i
      ∧ exec i s = .next { s with
          cmd := encode i
          flags := { done := false, err := false, lost := s.flags.lost, code := .none }
          errAddr := 0
          inflight := some f })
  ∧ ∀ n r v s, r ∈ [RegName.srcAddr, .dstAddr, .workAddr, .len, .width, .height, .radius, .steps, .amount, .threshold,
        .lineLen, .lineStride] →
      engineRun n (writeReg r v s) = writeReg r v (engineRun n s)

/-- R155: while a command is in flight, a host read of an owned byte returns any value (a drawn one) and changes nothing
else; after a host write to an owned byte, every later engine read of it returns a drawn value, and every byte of the
command's write footprint holds a drawn value when the command ends, however it ends. -/
def Obligations.HostAccessToOwnedBytes : Prop :=
  ∀ (s : State) f a v, s.inflight = some f → a ∈ f.foot.reads ++ f.foot.writes → s.plat.memOk a = true →
    s.plat.inWindow a = false → s.plat.inDevice a = false →
    (hostLoad a s = { s with draws := s.draws + 1, reply := .byte ((Config.freeWord s.draws).setWidth 8) })
    ∧ ∀ n, let t := engineRun n (hostStore a v s)
        (t.inflight ≠ none → engineRead a t = .ok ((Config.freeWord t.draws).setWidth 8, { t with draws := t.draws + 1 }))
        ∧ (t.inflight = none → ∀ b ∈ f.foot.writes, Drawn s t (t.mem.read b))

/-- R157, R8: while the engine is idle a byte the host stores is what it loads, and no other byte changes, unless its cache
line is one that R160 asks the host to invalidate first (which lines those are: log entry 12). -/
def Obligations.HostLoadsWhatItStored : Prop :=
  ∀ (s : State) a v, s.inflight = none → s.plat.memOk a = true → s.plat.inWindow a = false → s.plat.inDevice a = false →
    (∀ n ∈ s.hostStale, n ≠ s.plat.cacheLine a) →
    (hostLoad a (hostStore a v s)).reply = .byte v
    ∧ (hostLoad a (hostStore a v s)).mem = (hostStore a v s).mem
    ∧ ∀ b, b ≠ a → (hostStore a v s).mem.read b = s.mem.read b

/-- R160, line by line, without coherence. A byte of the read footprint is tainted from the start exactly if its cache line was
not written back, and writing it back leaves memory as it was and the line no longer waiting, if no ended command has written to
it. After a completed command a host load of any byte of a cache line that overlaps the write footprint returns any value (a
drawn one) until the line is invalidated; then a byte of the write footprint returns what the engine left, although the host's
line may have been dirty before the command. Where R160 only says what the host must do, these outcomes are the model's choice
(log entry 12): that a dirty line taints each byte of the read footprint it overlaps, and no other; that a stale line gives a
drawn value for its other bytes too; and that aligned lines of one size are all there is. -/
def Obligations.MissingCacheMaintenance : Prop :=
  ∀ i (s : State) a, s.inflight = none → s.plat.coherent = false →
    (∀ t, s.lead = .steps 0 → exec i s = .next t → ∀ f, t.inflight = some f →
      (a ∈ f.tainted ↔ a ∈ (s.footprint i).reads ∧ ∃ b ∈ s.hostDirty, s.plat.cacheLine b = s.plat.cacheLine a))
    ∧ ((∀ b ∈ s.hostOver, s.plat.cacheLine b ≠ s.plat.cacheLine a) →
      (hostClean a s).mem = s.mem
      ∧ ∀ b, b ∈ (hostClean a s).hostDirty ↔ b ∈ s.hostDirty ∧ s.plat.cacheLine b ≠ s.plat.cacheLine a)
    ∧ (Runs i s → a ∈ (s.footprint i).writes →
      ∃ t, exec i s = .next t
        ∧ (∀ b, s.plat.cacheLine b = s.plat.cacheLine a → s.plat.memOk b = true → s.plat.inWindow b = false →
          hostLoad b t = { t with draws := t.draws + 1, reply := .byte ((Config.freeWord t.draws).setWidth 8) })
        ∧ (hostLoad a (hostInvalidate a t)).reply = .byte (t.mem.read a))

/-! ## The invariant -/

/-- The invariant holds right after reset. -/
def Obligations.ResetMeetsTheInvariant : Prop := State.reset.Inv

/-- Every step keeps the invariant: legal parameters, canonical memory and RAMs inside their bounds, ERR set exactly with a
code, never DONE with ERR, ERRADDR 0 except after E_BUSERR, host cache marks inside the data space and absent with coherence, and a
command in flight that stays inside its RAMs and the data space. -/
def Obligations.EveryStepKeepsTheInvariant : Prop := ∀ s t, s.Inv → step s = .next t → t.Inv

/-- R434, R430, R437: from a state that meets the invariant, when an undisturbed command ends exactly one of DONE and ERR is
set, and ERRCODE is E_NONE exactly with DONE. -/
def Obligations.ACommandEndsInDoneOrErr : Prop :=
  ∀ i s t, s.Inv → Undisturbed s → exec i s = .next t →
    (t.flags.done = true ∧ t.flags.err = false ∧ t.flags.code = .none ∧ t.errAddr = 0)
    ∨ (t.flags.done = false ∧ t.flags.err = true ∧ t.flags.code ≠ .none ∧ t.flags.lost = s.flags.lost)
end

