-- ==== Sys2Proof/Laws/Memory.lean ====
section
/-! SUPPORT. The laws of sparse storage: a read after a write, a write elsewhere, and the canonical form every write keeps. -/

namespace Sys2Proof.Machine

variable {α : Type}

@[simp] theorem Cells.get?_nil (a : Nat) : Cells.get? ([] : List (Nat × α)) a = none := rfl

theorem Cells.get?_cons (k : Nat) (v : α) (m : List (Nat × α)) (a : Nat) :
    Cells.get? ((k, v) :: m) a = if k = a then some v else Cells.get? m a := rfl

/-- What is listed after `set`. -/
theorem Cells.get?_set (m : List (Nat × α)) (a b : Nat) (v : α) :
    Cells.get? (Cells.set m a v) b = if a = b then some v else Cells.get? m b := by
  induction m with
  | nil => rfl
  | cons kx m ih =>
    obtain ⟨k, x⟩ := kx
    simp only [Cells.set]
    split
    · rw [Cells.get?_cons]
    · split
      · next h => subst h; simp only [Cells.get?_cons]; split <;> rfl
      · simp only [Cells.get?_cons, ih]
        split
        · next hne hk => subst hk; simp [hne]
        · rfl

@[simp] theorem Cells.get?_set_self (m : List (Nat × α)) (a : Nat) (v : α) :
    Cells.get? (Cells.set m a v) a = some v := by simp [Cells.get?_set]

theorem Cells.get?_set_of_ne (m : List (Nat × α)) {a b : Nat} (v : α) (h : a ≠ b) :
    Cells.get? (Cells.set m a v) b = Cells.get? m b := by simp [Cells.get?_set, h]

/-- A canonical list is canonical from any lower bound. -/
theorem Cells.wfFrom_mono {bound lo lo' : Nat} {m : List (Nat × α)} (h : lo' ≤ lo)
    (hm : Cells.wfFrom bound lo m = true) : Cells.wfFrom bound lo' m = true := by
  cases m with
  | nil => rfl
  | cons kx m =>
    simp only [Cells.wfFrom, Bool.and_eq_true, decide_eq_true_eq] at hm ⊢
    exact ⟨⟨by omega, hm.1.2⟩, hm.2⟩

/-- `set` keeps the canonical form. -/
theorem Cells.wfFrom_set {bound a : Nat} (ha : a < bound) (v : α) (m : List (Nat × α)) :
    ∀ lo, lo ≤ a → Cells.wfFrom bound lo m = true → Cells.wfFrom bound lo (Cells.set m a v) = true := by
  induction m with
  | nil => intro lo hlo _; simp [Cells.set, Cells.wfFrom, hlo, ha]
  | cons kx m ih =>
    intro lo hlo hm
    obtain ⟨k, x⟩ := kx
    simp only [Cells.wfFrom, Bool.and_eq_true, decide_eq_true_eq] at hm
    simp only [Cells.set]
    split
    · simp only [Cells.wfFrom, Bool.and_eq_true, decide_eq_true_eq]
      exact ⟨⟨hlo, ha⟩, ⟨by omega, hm.1.2⟩, hm.2⟩
    · split
      · next h =>
        subst h
        simp only [Cells.wfFrom, Bool.and_eq_true, decide_eq_true_eq]
        exact ⟨⟨hlo, ha⟩, hm.2⟩
      · simp only [Cells.wfFrom, Bool.and_eq_true, decide_eq_true_eq]
        exact ⟨hm.1, ih (k + 1) (by omega) hm.2⟩

/-- A byte just written is read back. -/
@[simp] theorem Memory.read_write_self (m : Memory) (a : Nat) (v : Byte) : (m.write a v).read a = v := by
  simp [Memory.read, Memory.write]

/-- A write leaves every other byte alone. -/
theorem Memory.read_write_of_ne (m : Memory) {a b : Nat} (v : Byte) (h : a ≠ b) :
    (m.write a v).read b = m.read b := by
  simp [Memory.read, Memory.write, Cells.get?_set_of_ne _ _ h]

theorem Memory.read_write (m : Memory) (a b : Nat) (v : Byte) :
    (m.write a v).read b = if a = b then v else m.read b := by
  split
  · next h => subst h; simp
  · next h => exact Memory.read_write_of_ne m v h

/-- A write inside the data space keeps the canonical form. -/
theorem Memory.wf_write {m : Memory} {a : Nat} (v : Byte) (ha : a < Config.spaceBytes) (h : m.wf = true) :
    (m.write a v).wf = true :=
  Cells.wfFrom_set ha v m 0 (Nat.zero_le a) h

@[simp] theorem Memory.wf_nil : Memory.wf [] = true := rfl

@[simp] theorem Ram.epoch_set {w : Nat} (r : Ram w) (k : Nat) (v : BitVec w) : (r.set k v).epoch = r.epoch := rfl

theorem Ram.get_set {w : Nat} (r : Ram w) (k j : Nat) (v : BitVec w) :
    (r.set k v).get j = if k = j then v else r.get j := by
  simp only [Ram.get, Ram.set, Cells.get?_set]
  split <;> rfl

@[simp] theorem Ram.get_set_self {w : Nat} (r : Ram w) (k : Nat) (v : BitVec w) : (r.set k v).get k = v := by
  simp [Ram.get_set]

theorem Ram.get_set_of_ne {w : Nat} (r : Ram w) {k j : Nat} (v : BitVec w) (h : k ≠ j) :
    (r.set k v).get j = r.get j := by
  simp [Ram.get_set, h]

/-- A write inside the RAM keeps the canonical form. -/
theorem Ram.wf_set {w n : Nat} {r : Ram w} {k : Nat} (v : BitVec w) (hk : k < n) (h : r.wf n = true) :
    (r.set k v).wf n = true :=
  Cells.wfFrom_set hk v r.cells 0 (Nat.zero_le k) h

/-- `MEM_OK` holds only of addresses of the data space. -/
theorem memOk_lt {p : Platform} {a : Nat} (h : p.memOk a = true) : a < Config.spaceBytes := by
  simp only [Platform.memOk, Bool.and_eq_true, decide_eq_true_eq] at h
  exact h.1

end Sys2Proof.Machine
end

