-- ==== Sys2Proof/Laws/State.lean ====
section
/-! SUPPORT. One lemma per field per update of the state, so that no later proof unfolds a record update. -/

namespace Sys2Proof.Machine

@[simp] theorem accept_plat (w : Word) (s : State) : (accept w s).plat = s.plat := rfl
@[simp] theorem accept_ctrl (w : Word) (s : State) : (accept w s).ctrl = s.ctrl := rfl
@[simp] theorem accept_flags (w : Word) (s : State) : (accept w s).flags = s.flags.accepted := rfl
@[simp] theorem accept_cmd (w : Word) (s : State) : (accept w s).cmd = w := rfl
@[simp] theorem accept_errAddr (w : Word) (s : State) : (accept w s).errAddr = 0 := rfl
@[simp] theorem accept_ops (w : Word) (s : State) : (accept w s).ops = s.ops := rfl
@[simp] theorem accept_win (w : Word) (s : State) : (accept w s).win = s.win := rfl
@[simp] theorem accept_inflight (w : Word) (s : State) : (accept w s).inflight = s.inflight := rfl
@[simp] theorem accept_mem (w : Word) (s : State) : (accept w s).mem = s.mem := rfl
@[simp] theorem accept_hostDirty (w : Word) (s : State) : (accept w s).hostDirty = s.hostDirty := rfl
@[simp] theorem accept_hostOver (w : Word) (s : State) : (accept w s).hostOver = s.hostOver := rfl
@[simp] theorem accept_hostStale (w : Word) (s : State) : (accept w s).hostStale = s.hostStale := rfl
@[simp] theorem accept_hostFault (w : Word) (s : State) : (accept w s).hostFault = s.hostFault := rfl
@[simp] theorem accept_inbox (w : Word) (s : State) : (accept w s).inbox = s.inbox := rfl
@[simp] theorem accept_lead (w : Word) (s : State) : (accept w s).lead = s.lead := rfl
@[simp] theorem accept_reply (w : Word) (s : State) : (accept w s).reply = s.reply := rfl
@[simp] theorem accept_order (w : Word) (s : State) : (accept w s).order = s.order := rfl
@[simp] theorem accept_draws (w : Word) (s : State) : (accept w s).draws = s.draws := rfl

@[simp] theorem raiseError_plat (e : ErrCode) (a : Nat) (s : State) : (raiseError e a s).plat = s.plat := rfl
@[simp] theorem raiseError_ctrl (e : ErrCode) (a : Nat) (s : State) : (raiseError e a s).ctrl = s.ctrl := rfl
@[simp] theorem raiseError_flags (e : ErrCode) (a : Nat) (s : State) : (raiseError e a s).flags = s.flags.failed e := rfl
@[simp] theorem raiseError_cmd (e : ErrCode) (a : Nat) (s : State) : (raiseError e a s).cmd = s.cmd := rfl
@[simp] theorem raiseError_errAddr (e : ErrCode) (a : Nat) (s : State) : (raiseError e a s).errAddr = errAddrOf e a := rfl
@[simp] theorem raiseError_ops (e : ErrCode) (a : Nat) (s : State) : (raiseError e a s).ops = s.ops := rfl
@[simp] theorem raiseError_win (e : ErrCode) (a : Nat) (s : State) : (raiseError e a s).win = s.win := rfl
@[simp] theorem raiseError_inflight (e : ErrCode) (a : Nat) (s : State) : (raiseError e a s).inflight = none := rfl
@[simp] theorem raiseError_mem (e : ErrCode) (a : Nat) (s : State) : (raiseError e a s).mem = s.mem := rfl
@[simp] theorem raiseError_hostDirty (e : ErrCode) (a : Nat) (s : State) : (raiseError e a s).hostDirty = s.hostDirty := rfl
@[simp] theorem raiseError_hostOver (e : ErrCode) (a : Nat) (s : State) : (raiseError e a s).hostOver = s.hostOver := rfl
@[simp] theorem raiseError_hostStale (e : ErrCode) (a : Nat) (s : State) : (raiseError e a s).hostStale = s.hostStale := rfl
@[simp] theorem raiseError_hostFault (e : ErrCode) (a : Nat) (s : State) : (raiseError e a s).hostFault = s.hostFault := rfl
@[simp] theorem raiseError_inbox (e : ErrCode) (a : Nat) (s : State) : (raiseError e a s).inbox = s.inbox := rfl
@[simp] theorem raiseError_lead (e : ErrCode) (a : Nat) (s : State) : (raiseError e a s).lead = s.lead := rfl
@[simp] theorem raiseError_reply (e : ErrCode) (a : Nat) (s : State) : (raiseError e a s).reply = s.reply := rfl
@[simp] theorem raiseError_order (e : ErrCode) (a : Nat) (s : State) : (raiseError e a s).order = s.order := rfl
@[simp] theorem raiseError_draws (e : ErrCode) (a : Nat) (s : State) : (raiseError e a s).draws = s.draws := rfl

@[simp] theorem lostIssue_plat (s : State) : (lostIssue s).plat = s.plat := rfl
@[simp] theorem lostIssue_ctrl (s : State) : (lostIssue s).ctrl = s.ctrl := rfl
@[simp] theorem lostIssue_flags (s : State) : (lostIssue s).flags = { s.flags with lost := true } := rfl
@[simp] theorem lostIssue_cmd (s : State) : (lostIssue s).cmd = s.cmd := rfl
@[simp] theorem lostIssue_errAddr (s : State) : (lostIssue s).errAddr = s.errAddr := rfl
@[simp] theorem lostIssue_ops (s : State) : (lostIssue s).ops = s.ops := rfl
@[simp] theorem lostIssue_win (s : State) : (lostIssue s).win = s.win := rfl
@[simp] theorem lostIssue_inflight (s : State) : (lostIssue s).inflight = s.inflight := rfl
@[simp] theorem lostIssue_mem (s : State) : (lostIssue s).mem = s.mem := rfl
@[simp] theorem lostIssue_hostDirty (s : State) : (lostIssue s).hostDirty = s.hostDirty := rfl
@[simp] theorem lostIssue_hostOver (s : State) : (lostIssue s).hostOver = s.hostOver := rfl
@[simp] theorem lostIssue_hostStale (s : State) : (lostIssue s).hostStale = s.hostStale := rfl
@[simp] theorem lostIssue_hostFault (s : State) : (lostIssue s).hostFault = s.hostFault := rfl
@[simp] theorem lostIssue_inbox (s : State) : (lostIssue s).inbox = s.inbox := rfl
@[simp] theorem lostIssue_lead (s : State) : (lostIssue s).lead = s.lead := rfl
@[simp] theorem lostIssue_reply (s : State) : (lostIssue s).reply = s.reply := rfl
@[simp] theorem lostIssue_order (s : State) : (lostIssue s).order = s.order := rfl
@[simp] theorem lostIssue_draws (s : State) : (lostIssue s).draws = s.draws := rfl

@[simp] theorem clearError_plat (s : State) : (clearError s).plat = s.plat := rfl
@[simp] theorem clearError_ctrl (s : State) : (clearError s).ctrl = s.ctrl := rfl
@[simp] theorem clearError_flags (s : State) : (clearError s).flags = { s.flags with err := false, code := .none } := rfl
@[simp] theorem clearError_cmd (s : State) : (clearError s).cmd = s.cmd := rfl
@[simp] theorem clearError_errAddr (s : State) : (clearError s).errAddr = 0 := rfl
@[simp] theorem clearError_ops (s : State) : (clearError s).ops = s.ops := rfl
@[simp] theorem clearError_win (s : State) : (clearError s).win = s.win := rfl
@[simp] theorem clearError_inflight (s : State) : (clearError s).inflight = s.inflight := rfl
@[simp] theorem clearError_mem (s : State) : (clearError s).mem = s.mem := rfl
@[simp] theorem clearError_hostDirty (s : State) : (clearError s).hostDirty = s.hostDirty := rfl
@[simp] theorem clearError_hostOver (s : State) : (clearError s).hostOver = s.hostOver := rfl
@[simp] theorem clearError_hostStale (s : State) : (clearError s).hostStale = s.hostStale := rfl
@[simp] theorem clearError_hostFault (s : State) : (clearError s).hostFault = s.hostFault := rfl
@[simp] theorem clearError_inbox (s : State) : (clearError s).inbox = s.inbox := rfl
@[simp] theorem clearError_lead (s : State) : (clearError s).lead = s.lead := rfl
@[simp] theorem clearError_reply (s : State) : (clearError s).reply = s.reply := rfl
@[simp] theorem clearError_order (s : State) : (clearError s).order = s.order := rfl
@[simp] theorem clearError_draws (s : State) : (clearError s).draws = s.draws := rfl

@[simp] theorem start_plat (i : Instr) (p : Plan) (s : State) : (start i p s).plat = s.plat := rfl
@[simp] theorem start_ctrl (i : Instr) (p : Plan) (s : State) : (start i p s).ctrl = s.ctrl := rfl
@[simp] theorem start_flags (i : Instr) (p : Plan) (s : State) : (start i p s).flags = s.flags := rfl
@[simp] theorem start_cmd (i : Instr) (p : Plan) (s : State) : (start i p s).cmd = s.cmd := rfl
@[simp] theorem start_errAddr (i : Instr) (p : Plan) (s : State) : (start i p s).errAddr = s.errAddr := rfl
@[simp] theorem start_ops (i : Instr) (p : Plan) (s : State) : (start i p s).ops = s.ops := rfl
@[simp] theorem start_win (i : Instr) (p : Plan) (s : State) : (start i p s).win = s.win := rfl
@[simp] theorem start_mem (i : Instr) (p : Plan) (s : State) : (start i p s).mem = s.mem := rfl
@[simp] theorem start_hostDirty (i : Instr) (p : Plan) (s : State) : (start i p s).hostDirty = s.hostDirty := rfl
@[simp] theorem start_hostOver (i : Instr) (p : Plan) (s : State) : (start i p s).hostOver = s.hostOver := rfl
@[simp] theorem start_hostStale (i : Instr) (p : Plan) (s : State) : (start i p s).hostStale = s.hostStale := rfl
@[simp] theorem start_hostFault (i : Instr) (p : Plan) (s : State) : (start i p s).hostFault = s.hostFault := rfl
@[simp] theorem start_inbox (i : Instr) (p : Plan) (s : State) : (start i p s).inbox = s.inbox := rfl
@[simp] theorem start_lead (i : Instr) (p : Plan) (s : State) : (start i p s).lead = s.lead := rfl
@[simp] theorem start_reply (i : Instr) (p : Plan) (s : State) : (start i p s).reply = s.reply := rfl
@[simp] theorem start_order (i : Instr) (p : Plan) (s : State) : (start i p s).order = s.order := rfl
@[simp] theorem start_draws (i : Instr) (p : Plan) (s : State) : (start i p s).draws = s.draws := rfl

@[simp] theorem scrambleRegs_plat (s : State) : (scrambleRegs s).plat = s.plat := rfl
@[simp] theorem scrambleRegs_ctrl (s : State) : (scrambleRegs s).ctrl = s.ctrl := rfl
@[simp] theorem scrambleRegs_flags (s : State) : (scrambleRegs s).flags = s.flags := rfl
@[simp] theorem scrambleRegs_cmd (s : State) : (scrambleRegs s).cmd = s.cmd := rfl
@[simp] theorem scrambleRegs_errAddr (s : State) : (scrambleRegs s).errAddr = s.errAddr := rfl
@[simp] theorem scrambleRegs_ops (s : State) : (scrambleRegs s).ops = s.ops := rfl
@[simp] theorem scrambleRegs_inflight (s : State) : (scrambleRegs s).inflight = s.inflight := rfl
@[simp] theorem scrambleRegs_mem (s : State) : (scrambleRegs s).mem = s.mem := rfl
@[simp] theorem scrambleRegs_hostDirty (s : State) : (scrambleRegs s).hostDirty = s.hostDirty := rfl
@[simp] theorem scrambleRegs_hostOver (s : State) : (scrambleRegs s).hostOver = s.hostOver := rfl
@[simp] theorem scrambleRegs_hostStale (s : State) : (scrambleRegs s).hostStale = s.hostStale := rfl
@[simp] theorem scrambleRegs_hostFault (s : State) : (scrambleRegs s).hostFault = s.hostFault := rfl
@[simp] theorem scrambleRegs_inbox (s : State) : (scrambleRegs s).inbox = s.inbox := rfl
@[simp] theorem scrambleRegs_lead (s : State) : (scrambleRegs s).lead = s.lead := rfl
@[simp] theorem scrambleRegs_reply (s : State) : (scrambleRegs s).reply = s.reply := rfl
@[simp] theorem scrambleRegs_order (s : State) : (scrambleRegs s).order = s.order := rfl
@[simp] theorem scrambleRegs_draws (s : State) : (scrambleRegs s).draws = s.draws + 5 := rfl

@[simp] theorem scrambleRams_plat (s : State) : (scrambleRams s).plat = s.plat := rfl
@[simp] theorem scrambleRams_ctrl (s : State) : (scrambleRams s).ctrl = s.ctrl := rfl
@[simp] theorem scrambleRams_flags (s : State) : (scrambleRams s).flags = s.flags := rfl
@[simp] theorem scrambleRams_cmd (s : State) : (scrambleRams s).cmd = s.cmd := rfl
@[simp] theorem scrambleRams_errAddr (s : State) : (scrambleRams s).errAddr = s.errAddr := rfl
@[simp] theorem scrambleRams_ops (s : State) : (scrambleRams s).ops = s.ops := rfl
@[simp] theorem scrambleRams_inflight (s : State) : (scrambleRams s).inflight = s.inflight := rfl
@[simp] theorem scrambleRams_mem (s : State) : (scrambleRams s).mem = s.mem := rfl
@[simp] theorem scrambleRams_hostDirty (s : State) : (scrambleRams s).hostDirty = s.hostDirty := rfl
@[simp] theorem scrambleRams_hostOver (s : State) : (scrambleRams s).hostOver = s.hostOver := rfl
@[simp] theorem scrambleRams_hostStale (s : State) : (scrambleRams s).hostStale = s.hostStale := rfl
@[simp] theorem scrambleRams_hostFault (s : State) : (scrambleRams s).hostFault = s.hostFault := rfl
@[simp] theorem scrambleRams_inbox (s : State) : (scrambleRams s).inbox = s.inbox := rfl
@[simp] theorem scrambleRams_lead (s : State) : (scrambleRams s).lead = s.lead := rfl
@[simp] theorem scrambleRams_reply (s : State) : (scrambleRams s).reply = s.reply := rfl
@[simp] theorem scrambleRams_order (s : State) : (scrambleRams s).order = s.order := rfl
@[simp] theorem scrambleRams_draws (s : State) : (scrambleRams s).draws = s.draws + 2 := rfl

@[simp] theorem scrambleWindow_plat (s : State) : (scrambleWindow s).plat = s.plat := rfl
@[simp] theorem scrambleWindow_ctrl (s : State) : (scrambleWindow s).ctrl = s.ctrl := rfl
@[simp] theorem scrambleWindow_flags (s : State) : (scrambleWindow s).flags = s.flags := rfl
@[simp] theorem scrambleWindow_cmd (s : State) : (scrambleWindow s).cmd = s.cmd := rfl
@[simp] theorem scrambleWindow_errAddr (s : State) : (scrambleWindow s).errAddr = s.errAddr := rfl
@[simp] theorem scrambleWindow_ops (s : State) : (scrambleWindow s).ops = s.ops := rfl
@[simp] theorem scrambleWindow_inflight (s : State) : (scrambleWindow s).inflight = s.inflight := rfl
@[simp] theorem scrambleWindow_mem (s : State) : (scrambleWindow s).mem = s.mem := rfl
@[simp] theorem scrambleWindow_hostDirty (s : State) : (scrambleWindow s).hostDirty = s.hostDirty := rfl
@[simp] theorem scrambleWindow_hostOver (s : State) : (scrambleWindow s).hostOver = s.hostOver := rfl
@[simp] theorem scrambleWindow_hostStale (s : State) : (scrambleWindow s).hostStale = s.hostStale := rfl
@[simp] theorem scrambleWindow_hostFault (s : State) : (scrambleWindow s).hostFault = s.hostFault := rfl
@[simp] theorem scrambleWindow_inbox (s : State) : (scrambleWindow s).inbox = s.inbox := rfl
@[simp] theorem scrambleWindow_lead (s : State) : (scrambleWindow s).lead = s.lead := rfl
@[simp] theorem scrambleWindow_reply (s : State) : (scrambleWindow s).reply = s.reply := rfl
@[simp] theorem scrambleWindow_order (s : State) : (scrambleWindow s).order = s.order := rfl
@[simp] theorem scrambleWindow_draws (s : State) : (scrambleWindow s).draws = s.draws + 7 := rfl

@[simp] theorem draw_plat (s : State) : (s.draw.2).plat = s.plat := rfl
@[simp] theorem draw_ctrl (s : State) : (s.draw.2).ctrl = s.ctrl := rfl
@[simp] theorem draw_flags (s : State) : (s.draw.2).flags = s.flags := rfl
@[simp] theorem draw_cmd (s : State) : (s.draw.2).cmd = s.cmd := rfl
@[simp] theorem draw_errAddr (s : State) : (s.draw.2).errAddr = s.errAddr := rfl
@[simp] theorem draw_ops (s : State) : (s.draw.2).ops = s.ops := rfl
@[simp] theorem draw_win (s : State) : (s.draw.2).win = s.win := rfl
@[simp] theorem draw_inflight (s : State) : (s.draw.2).inflight = s.inflight := rfl
@[simp] theorem draw_mem (s : State) : (s.draw.2).mem = s.mem := rfl
@[simp] theorem draw_hostDirty (s : State) : (s.draw.2).hostDirty = s.hostDirty := rfl
@[simp] theorem draw_hostOver (s : State) : (s.draw.2).hostOver = s.hostOver := rfl
@[simp] theorem draw_hostStale (s : State) : (s.draw.2).hostStale = s.hostStale := rfl
@[simp] theorem draw_hostFault (s : State) : (s.draw.2).hostFault = s.hostFault := rfl
@[simp] theorem draw_inbox (s : State) : (s.draw.2).inbox = s.inbox := rfl
@[simp] theorem draw_lead (s : State) : (s.draw.2).lead = s.lead := rfl
@[simp] theorem draw_reply (s : State) : (s.draw.2).reply = s.reply := rfl
@[simp] theorem draw_order (s : State) : (s.draw.2).order = s.order := rfl
@[simp] theorem draw_draws (s : State) : (s.draw.2).draws = s.draws + 1 := rfl

@[simp] theorem stepped_plat (f : InFlight) (t : Track) (us : List Track) (ps : List Phase) (b : Byte) (s : State) : (stepped f t us ps b s).plat = s.plat :=
  rfl
@[simp] theorem stepped_ctrl (f : InFlight) (t : Track) (us : List Track) (ps : List Phase) (b : Byte) (s : State) : (stepped f t us ps b s).ctrl = s.ctrl :=
  rfl
@[simp] theorem stepped_flags (f : InFlight) (t : Track) (us : List Track) (ps : List Phase) (b : Byte) (s : State) : (stepped f t us ps b s).flags = s.flags :=
  rfl
@[simp] theorem stepped_cmd (f : InFlight) (t : Track) (us : List Track) (ps : List Phase) (b : Byte) (s : State) : (stepped f t us ps b s).cmd = s.cmd :=
  rfl
@[simp] theorem stepped_errAddr (f : InFlight) (t : Track) (us : List Track) (ps : List Phase) (b : Byte) (s : State) : (stepped f t us ps b s).errAddr = s.errAddr :=
  rfl
@[simp] theorem stepped_ops (f : InFlight) (t : Track) (us : List Track) (ps : List Phase) (b : Byte) (s : State) : (stepped f t us ps b s).ops = s.ops :=
  rfl
@[simp] theorem stepped_win (f : InFlight) (t : Track) (us : List Track) (ps : List Phase) (b : Byte) (s : State) : (stepped f t us ps b s).win = f.window t b s :=
  rfl
@[simp] theorem stepped_inflight (f : InFlight) (t : Track) (us : List Track) (ps : List Phase) (b : Byte) (s : State) : (stepped f t us ps b s).inflight = some { f with todo := (Phase.of? ((t.after f b s).toList ++ us)).toList ++ ps } :=
  rfl
@[simp] theorem stepped_mem (f : InFlight) (t : Track) (us : List Track) (ps : List Phase) (b : Byte) (s : State) : (stepped f t us ps b s).mem = s.mem :=
  rfl
@[simp] theorem stepped_hostDirty (f : InFlight) (t : Track) (us : List Track) (ps : List Phase) (b : Byte) (s : State) : (stepped f t us ps b s).hostDirty = s.hostDirty :=
  rfl
@[simp] theorem stepped_hostOver (f : InFlight) (t : Track) (us : List Track) (ps : List Phase) (b : Byte) (s : State) : (stepped f t us ps b s).hostOver = s.hostOver :=
  rfl
@[simp] theorem stepped_hostStale (f : InFlight) (t : Track) (us : List Track) (ps : List Phase) (b : Byte) (s : State) : (stepped f t us ps b s).hostStale = s.hostStale :=
  rfl
@[simp] theorem stepped_hostFault (f : InFlight) (t : Track) (us : List Track) (ps : List Phase) (b : Byte) (s : State) : (stepped f t us ps b s).hostFault = s.hostFault :=
  rfl
@[simp] theorem stepped_inbox (f : InFlight) (t : Track) (us : List Track) (ps : List Phase) (b : Byte) (s : State) : (stepped f t us ps b s).inbox = s.inbox :=
  rfl
@[simp] theorem stepped_lead (f : InFlight) (t : Track) (us : List Track) (ps : List Phase) (b : Byte) (s : State) : (stepped f t us ps b s).lead = s.lead :=
  rfl
@[simp] theorem stepped_reply (f : InFlight) (t : Track) (us : List Track) (ps : List Phase) (b : Byte) (s : State) : (stepped f t us ps b s).reply = s.reply :=
  rfl
@[simp] theorem stepped_order (f : InFlight) (t : Track) (us : List Track) (ps : List Phase) (b : Byte) (s : State) : (stepped f t us ps b s).order = s.order :=
  rfl
@[simp] theorem stepped_draws (f : InFlight) (t : Track) (us : List Track) (ps : List Phase) (b : Byte) (s : State) : (stepped f t us ps b s).draws = s.draws :=
  rfl

/-! ## A choice takes at most one entry of `order` -/

@[simp] theorem choose_plat (n : Nat) (s : State) : ((s.choose n).2).plat = s.plat := by
  unfold State.choose; split
  · rfl
  · split <;> rfl
@[simp] theorem choose_ctrl (n : Nat) (s : State) : ((s.choose n).2).ctrl = s.ctrl := by
  unfold State.choose; split
  · rfl
  · split <;> rfl
@[simp] theorem choose_flags (n : Nat) (s : State) : ((s.choose n).2).flags = s.flags := by
  unfold State.choose; split
  · rfl
  · split <;> rfl
@[simp] theorem choose_cmd (n : Nat) (s : State) : ((s.choose n).2).cmd = s.cmd := by
  unfold State.choose; split
  · rfl
  · split <;> rfl
@[simp] theorem choose_errAddr (n : Nat) (s : State) : ((s.choose n).2).errAddr = s.errAddr := by
  unfold State.choose; split
  · rfl
  · split <;> rfl
@[simp] theorem choose_ops (n : Nat) (s : State) : ((s.choose n).2).ops = s.ops := by
  unfold State.choose; split
  · rfl
  · split <;> rfl
@[simp] theorem choose_win (n : Nat) (s : State) : ((s.choose n).2).win = s.win := by
  unfold State.choose; split
  · rfl
  · split <;> rfl
@[simp] theorem choose_inflight (n : Nat) (s : State) : ((s.choose n).2).inflight = s.inflight := by
  unfold State.choose; split
  · rfl
  · split <;> rfl
@[simp] theorem choose_mem (n : Nat) (s : State) : ((s.choose n).2).mem = s.mem := by
  unfold State.choose; split
  · rfl
  · split <;> rfl
@[simp] theorem choose_hostDirty (n : Nat) (s : State) : ((s.choose n).2).hostDirty = s.hostDirty := by
  unfold State.choose; split
  · rfl
  · split <;> rfl
@[simp] theorem choose_hostOver (n : Nat) (s : State) : ((s.choose n).2).hostOver = s.hostOver := by
  unfold State.choose; split
  · rfl
  · split <;> rfl
@[simp] theorem choose_hostStale (n : Nat) (s : State) : ((s.choose n).2).hostStale = s.hostStale := by
  unfold State.choose; split
  · rfl
  · split <;> rfl
@[simp] theorem choose_hostFault (n : Nat) (s : State) : ((s.choose n).2).hostFault = s.hostFault := by
  unfold State.choose; split
  · rfl
  · split <;> rfl
@[simp] theorem choose_inbox (n : Nat) (s : State) : ((s.choose n).2).inbox = s.inbox := by
  unfold State.choose; split
  · rfl
  · split <;> rfl
@[simp] theorem choose_lead (n : Nat) (s : State) : ((s.choose n).2).lead = s.lead := by
  unfold State.choose; split
  · rfl
  · split <;> rfl
@[simp] theorem choose_reply (n : Nat) (s : State) : ((s.choose n).2).reply = s.reply := by
  unfold State.choose; split
  · rfl
  · split <;> rfl
@[simp] theorem choose_draws (n : Nat) (s : State) : ((s.choose n).2).draws = s.draws := by
  unfold State.choose; split
  · rfl
  · split <;> rfl

/-! ## The updates that recurse over a list -/

@[simp] theorem scrambleBytes_plat (ks : List Nat) (s : State) : (scrambleBytes ks s).plat = s.plat := by
  induction ks generalizing s with
  | nil => rfl
  | cons a as ih => exact ih _
@[simp] theorem scrambleBytes_ctrl (ks : List Nat) (s : State) : (scrambleBytes ks s).ctrl = s.ctrl := by
  induction ks generalizing s with
  | nil => rfl
  | cons a as ih => exact ih _
@[simp] theorem scrambleBytes_flags (ks : List Nat) (s : State) : (scrambleBytes ks s).flags = s.flags := by
  induction ks generalizing s with
  | nil => rfl
  | cons a as ih => exact ih _
@[simp] theorem scrambleBytes_cmd (ks : List Nat) (s : State) : (scrambleBytes ks s).cmd = s.cmd := by
  induction ks generalizing s with
  | nil => rfl
  | cons a as ih => exact ih _
@[simp] theorem scrambleBytes_errAddr (ks : List Nat) (s : State) : (scrambleBytes ks s).errAddr = s.errAddr := by
  induction ks generalizing s with
  | nil => rfl
  | cons a as ih => exact ih _
@[simp] theorem scrambleBytes_ops (ks : List Nat) (s : State) : (scrambleBytes ks s).ops = s.ops := by
  induction ks generalizing s with
  | nil => rfl
  | cons a as ih => exact ih _
@[simp] theorem scrambleBytes_win (ks : List Nat) (s : State) : (scrambleBytes ks s).win = s.win := by
  induction ks generalizing s with
  | nil => rfl
  | cons a as ih => exact ih _
@[simp] theorem scrambleBytes_inflight (ks : List Nat) (s : State) : (scrambleBytes ks s).inflight = s.inflight := by
  induction ks generalizing s with
  | nil => rfl
  | cons a as ih => exact ih _
@[simp] theorem scrambleBytes_hostDirty (ks : List Nat) (s : State) : (scrambleBytes ks s).hostDirty = s.hostDirty := by
  induction ks generalizing s with
  | nil => rfl
  | cons a as ih => exact ih _
@[simp] theorem scrambleBytes_hostOver (ks : List Nat) (s : State) : (scrambleBytes ks s).hostOver = s.hostOver := by
  induction ks generalizing s with
  | nil => rfl
  | cons a as ih => exact ih _
@[simp] theorem scrambleBytes_hostStale (ks : List Nat) (s : State) : (scrambleBytes ks s).hostStale = s.hostStale := by
  induction ks generalizing s with
  | nil => rfl
  | cons a as ih => exact ih _
@[simp] theorem scrambleBytes_hostFault (ks : List Nat) (s : State) : (scrambleBytes ks s).hostFault = s.hostFault := by
  induction ks generalizing s with
  | nil => rfl
  | cons a as ih => exact ih _
@[simp] theorem scrambleBytes_inbox (ks : List Nat) (s : State) : (scrambleBytes ks s).inbox = s.inbox := by
  induction ks generalizing s with
  | nil => rfl
  | cons a as ih => exact ih _
@[simp] theorem scrambleBytes_lead (ks : List Nat) (s : State) : (scrambleBytes ks s).lead = s.lead := by
  induction ks generalizing s with
  | nil => rfl
  | cons a as ih => exact ih _
@[simp] theorem scrambleBytes_reply (ks : List Nat) (s : State) : (scrambleBytes ks s).reply = s.reply := by
  induction ks generalizing s with
  | nil => rfl
  | cons a as ih => exact ih _
@[simp] theorem scrambleBytes_order (ks : List Nat) (s : State) : (scrambleBytes ks s).order = s.order := by
  induction ks generalizing s with
  | nil => rfl
  | cons a as ih => exact ih _

@[simp] theorem scrambleSlots_plat (ks : List Nat) (s : State) : (scrambleSlots ks s).plat = s.plat := by
  induction ks generalizing s with
  | nil => rfl
  | cons a as ih => exact ih _
@[simp] theorem scrambleSlots_ctrl (ks : List Nat) (s : State) : (scrambleSlots ks s).ctrl = s.ctrl := by
  induction ks generalizing s with
  | nil => rfl
  | cons a as ih => exact ih _
@[simp] theorem scrambleSlots_flags (ks : List Nat) (s : State) : (scrambleSlots ks s).flags = s.flags := by
  induction ks generalizing s with
  | nil => rfl
  | cons a as ih => exact ih _
@[simp] theorem scrambleSlots_cmd (ks : List Nat) (s : State) : (scrambleSlots ks s).cmd = s.cmd := by
  induction ks generalizing s with
  | nil => rfl
  | cons a as ih => exact ih _
@[simp] theorem scrambleSlots_errAddr (ks : List Nat) (s : State) : (scrambleSlots ks s).errAddr = s.errAddr := by
  induction ks generalizing s with
  | nil => rfl
  | cons a as ih => exact ih _
@[simp] theorem scrambleSlots_ops (ks : List Nat) (s : State) : (scrambleSlots ks s).ops = s.ops := by
  induction ks generalizing s with
  | nil => rfl
  | cons a as ih => exact ih _
@[simp] theorem scrambleSlots_inflight (ks : List Nat) (s : State) : (scrambleSlots ks s).inflight = s.inflight := by
  induction ks generalizing s with
  | nil => rfl
  | cons a as ih => exact ih _
@[simp] theorem scrambleSlots_mem (ks : List Nat) (s : State) : (scrambleSlots ks s).mem = s.mem := by
  induction ks generalizing s with
  | nil => rfl
  | cons a as ih => exact ih _
@[simp] theorem scrambleSlots_hostDirty (ks : List Nat) (s : State) : (scrambleSlots ks s).hostDirty = s.hostDirty := by
  induction ks generalizing s with
  | nil => rfl
  | cons a as ih => exact ih _
@[simp] theorem scrambleSlots_hostOver (ks : List Nat) (s : State) : (scrambleSlots ks s).hostOver = s.hostOver := by
  induction ks generalizing s with
  | nil => rfl
  | cons a as ih => exact ih _
@[simp] theorem scrambleSlots_hostStale (ks : List Nat) (s : State) : (scrambleSlots ks s).hostStale = s.hostStale := by
  induction ks generalizing s with
  | nil => rfl
  | cons a as ih => exact ih _
@[simp] theorem scrambleSlots_hostFault (ks : List Nat) (s : State) : (scrambleSlots ks s).hostFault = s.hostFault := by
  induction ks generalizing s with
  | nil => rfl
  | cons a as ih => exact ih _
@[simp] theorem scrambleSlots_inbox (ks : List Nat) (s : State) : (scrambleSlots ks s).inbox = s.inbox := by
  induction ks generalizing s with
  | nil => rfl
  | cons a as ih => exact ih _
@[simp] theorem scrambleSlots_lead (ks : List Nat) (s : State) : (scrambleSlots ks s).lead = s.lead := by
  induction ks generalizing s with
  | nil => rfl
  | cons a as ih => exact ih _
@[simp] theorem scrambleSlots_reply (ks : List Nat) (s : State) : (scrambleSlots ks s).reply = s.reply := by
  induction ks generalizing s with
  | nil => rfl
  | cons a as ih => exact ih _
@[simp] theorem scrambleSlots_order (ks : List Nat) (s : State) : (scrambleSlots ks s).order = s.order := by
  induction ks generalizing s with
  | nil => rfl
  | cons a as ih => exact ih _

/-! ## The end of a command -/

/-- A command with no step left is past all of its write footprint. -/
@[simp] theorem InFlight.written_of_done {f : InFlight} (h : f.todo = []) : f.written = f.foot.writes := by
  simp [InFlight.written, InFlight.stores, h]

@[simp] theorem release_plat (f : InFlight) (s : State) : (release f s).plat = s.plat := by
  simp only [release]; split <;> simp
@[simp] theorem release_ctrl (f : InFlight) (s : State) : (release f s).ctrl = s.ctrl := by
  simp only [release]; split <;> simp
@[simp] theorem release_flags (f : InFlight) (s : State) : (release f s).flags = s.flags := by
  simp only [release]; split <;> simp
@[simp] theorem release_cmd (f : InFlight) (s : State) : (release f s).cmd = s.cmd := by
  simp only [release]; split <;> simp
@[simp] theorem release_errAddr (f : InFlight) (s : State) : (release f s).errAddr = s.errAddr := by
  simp only [release]; split <;> simp
@[simp] theorem release_ops (f : InFlight) (s : State) : (release f s).ops = s.ops := by
  simp only [release]; split <;> simp
@[simp] theorem release_win (f : InFlight) (s : State) : (release f s).win = s.win := by
  simp only [release]; split <;> simp
@[simp] theorem release_hostDirty (f : InFlight) (s : State) : (release f s).hostDirty = s.hostDirty := by
  simp only [release]; split <;> simp
@[simp] theorem release_hostOver (f : InFlight) (s : State) :
    (release f s).hostOver = if s.plat.coherent then s.hostOver else f.written.union s.hostOver := by
  simp only [release]; split <;> simp
@[simp] theorem release_hostStale (f : InFlight) (s : State) :
    (release f s).hostStale
      = if s.plat.coherent then s.hostStale else (f.foot.writes.map s.plat.cacheLine).union s.hostStale := by
  simp only [release]; split <;> simp
@[simp] theorem release_hostFault (f : InFlight) (s : State) : (release f s).hostFault = s.hostFault := by
  simp only [release]; split <;> simp
@[simp] theorem release_inbox (f : InFlight) (s : State) : (release f s).inbox = s.inbox := by
  simp only [release]; split <;> simp
@[simp] theorem release_lead (f : InFlight) (s : State) : (release f s).lead = s.lead := by
  simp only [release]; split <;> simp
@[simp] theorem release_reply (f : InFlight) (s : State) : (release f s).reply = s.reply := by
  simp only [release]; split <;> simp
@[simp] theorem release_order (f : InFlight) (s : State) : (release f s).order = s.order := by
  simp only [release]; split <;> simp

@[simp] theorem release_inflight (f : InFlight) (s : State) : (release f s).inflight = none := rfl

@[simp] theorem releaseUnspecified_plat (f : InFlight) (s : State) : (releaseUnspecified f s).plat = s.plat := by
  simp [releaseUnspecified]
@[simp] theorem releaseUnspecified_ctrl (f : InFlight) (s : State) : (releaseUnspecified f s).ctrl = s.ctrl := by
  simp [releaseUnspecified]
@[simp] theorem releaseUnspecified_flags (f : InFlight) (s : State) : (releaseUnspecified f s).flags = s.flags := by
  simp [releaseUnspecified]
@[simp] theorem releaseUnspecified_cmd (f : InFlight) (s : State) : (releaseUnspecified f s).cmd = s.cmd := by
  simp [releaseUnspecified]
@[simp] theorem releaseUnspecified_errAddr (f : InFlight) (s : State) : (releaseUnspecified f s).errAddr = s.errAddr := by
  simp [releaseUnspecified]
@[simp] theorem releaseUnspecified_ops (f : InFlight) (s : State) : (releaseUnspecified f s).ops = s.ops := by
  simp [releaseUnspecified]
@[simp] theorem releaseUnspecified_win (f : InFlight) (s : State) : (releaseUnspecified f s).win = s.win := by
  simp [releaseUnspecified]
@[simp] theorem releaseUnspecified_hostDirty (f : InFlight) (s : State) : (releaseUnspecified f s).hostDirty = s.hostDirty := by
  simp [releaseUnspecified]
@[simp] theorem releaseUnspecified_hostOver (f : InFlight) (s : State) :
    (releaseUnspecified f s).hostOver = if s.plat.coherent then s.hostOver else f.foot.writes.union s.hostOver := by
  simp [releaseUnspecified]
@[simp] theorem releaseUnspecified_hostStale (f : InFlight) (s : State) :
    (releaseUnspecified f s).hostStale
      = if s.plat.coherent then s.hostStale else (f.foot.writes.map s.plat.cacheLine).union s.hostStale := by
  simp [releaseUnspecified]
@[simp] theorem releaseUnspecified_hostFault (f : InFlight) (s : State) : (releaseUnspecified f s).hostFault = s.hostFault := by
  simp [releaseUnspecified]
@[simp] theorem releaseUnspecified_inbox (f : InFlight) (s : State) : (releaseUnspecified f s).inbox = s.inbox := by
  simp [releaseUnspecified]
@[simp] theorem releaseUnspecified_lead (f : InFlight) (s : State) : (releaseUnspecified f s).lead = s.lead := by
  simp [releaseUnspecified]
@[simp] theorem releaseUnspecified_reply (f : InFlight) (s : State) : (releaseUnspecified f s).reply = s.reply := by
  simp [releaseUnspecified]
@[simp] theorem releaseUnspecified_order (f : InFlight) (s : State) : (releaseUnspecified f s).order = s.order := by
  simp [releaseUnspecified]

@[simp] theorem releaseUnspecified_inflight (f : InFlight) (s : State) : (releaseUnspecified f s).inflight = none := rfl

@[simp] theorem complete_plat (f : InFlight) (s : State) : (complete f s).plat = s.plat := by
  simp only [complete]; split <;> simp
@[simp] theorem complete_ctrl (f : InFlight) (s : State) : (complete f s).ctrl = s.ctrl := by
  simp only [complete]; split <;> simp
@[simp] theorem complete_flags (f : InFlight) (s : State) : (complete f s).flags = s.flags.completed := by
  simp only [complete]; split <;> simp
@[simp] theorem complete_cmd (f : InFlight) (s : State) : (complete f s).cmd = s.cmd := by
  simp only [complete]; split <;> simp
@[simp] theorem complete_errAddr (f : InFlight) (s : State) : (complete f s).errAddr = s.errAddr := by
  simp only [complete]; split <;> simp
@[simp] theorem complete_ops (f : InFlight) (s : State) : (complete f s).ops = s.ops := by
  simp only [complete]; split <;> simp
@[simp] theorem complete_inflight (f : InFlight) (s : State) : (complete f s).inflight = none := by
  simp only [complete]; split <;> simp
@[simp] theorem complete_hostDirty (f : InFlight) (s : State) : (complete f s).hostDirty = s.hostDirty := by
  simp only [complete]; split <;> simp
@[simp] theorem complete_hostOver (f : InFlight) (s : State) :
    (complete f s).hostOver = if s.plat.coherent then s.hostOver else f.written.union s.hostOver := by
  simp only [complete]; split <;> simp
@[simp] theorem complete_hostStale (f : InFlight) (s : State) :
    (complete f s).hostStale
      = if s.plat.coherent then s.hostStale else (f.foot.writes.map s.plat.cacheLine).union s.hostStale := by
  simp only [complete]; split <;> simp
@[simp] theorem complete_hostFault (f : InFlight) (s : State) : (complete f s).hostFault = s.hostFault := by
  simp only [complete]; split <;> simp
@[simp] theorem complete_inbox (f : InFlight) (s : State) : (complete f s).inbox = s.inbox := by
  simp only [complete]; split <;> simp
@[simp] theorem complete_lead (f : InFlight) (s : State) : (complete f s).lead = s.lead := by
  simp only [complete]; split <;> simp
@[simp] theorem complete_reply (f : InFlight) (s : State) : (complete f s).reply = s.reply := by
  simp only [complete]; split <;> simp
@[simp] theorem complete_order (f : InFlight) (s : State) : (complete f s).order = s.order := by
  simp only [complete]; split <;> simp

end Sys2Proof.Machine
end

