-- ==== Sys2Proof/Laws/Ops.lean ====
section
/-! SUPPORT. What each shared operation can do, said once: scrambling, engine accesses, release, completion, issue. -/

namespace Sys2Proof.Machine

/-! ## Scrambling -/

/-- Scrambling a list of bytes leaves every other byte alone. -/
theorem scrambleBytes_read_of_not_mem (as : List Nat) (s : State) (b : Nat) (h : b ∉ as) :
    (scrambleBytes as s).mem.read b = s.mem.read b := by
  induction as generalizing s with
  | nil => rfl
  | cons a as ih =>
    rw [List.mem_cons, not_or] at h
    rw [scrambleBytes, ih _ h.2]
    exact Memory.read_write_of_ne _ _ (Ne.symm h.1)

/-- Scrambling bytes of the data space keeps the canonical form. -/
theorem scrambleBytes_wf (as : List Nat) (s : State) (has : ∀ a ∈ as, a < Config.spaceBytes) (h : s.mem.wf = true) :
    (scrambleBytes as s).mem.wf = true := by
  induction as generalizing s with
  | nil => exact h
  | cons a as ih =>
    exact ih _ (fun b hb => has b (List.mem_cons_of_mem a hb))
      (Memory.wf_write _ (has a List.mem_cons_self) h)

@[simp] theorem scrambleSlots_map (ks : List Nat) (s : State) : (scrambleSlots ks s).win.map = s.win.map := by
  induction ks generalizing s with
  | nil => rfl
  | cons k ks ih => exact ih _

/-- Scrambling WSTORE entries leaves every other entry alone. -/
theorem scrambleSlots_get_of_not_mem (ks : List Nat) (s : State) (j : Nat) (h : j ∉ ks) :
    (scrambleSlots ks s).win.wstore.get j = s.win.wstore.get j := by
  induction ks generalizing s with
  | nil => rfl
  | cons k ks ih =>
    rw [List.mem_cons, not_or] at h
    rw [scrambleSlots, ih _ h.2]
    exact Ram.get_set_of_ne _ _ (Ne.symm h.1)

/-- Scrambling WSTORE entries keeps the canonical form. -/
theorem scrambleSlots_wf (ks : List Nat) (s : State) (hks : ∀ k ∈ ks, k < 512) (h : s.win.wstore.wf 512 = true) :
    (scrambleSlots ks s).win.wstore.wf 512 = true := by
  induction ks generalizing s with
  | nil => exact h
  | cons k ks ih =>
    exact ih _ (fun j hj => hks j (List.mem_cons_of_mem k hj)) (Ram.wf_set _ (hks k List.mem_cons_self) h)

/-- What scrambling bytes leaves. -/
theorem scrambleBytes_frame (as : List Nat) (s : State) :
    scrambleBytes as s = { s with mem := (scrambleBytes as s).mem, draws := s.draws + as.length } := by
  induction as generalizing s with
  | nil => rfl
  | cons a as ih =>
    rw [scrambleBytes, ih, List.length_cons, Nat.add_assoc, Nat.add_comm 1]

/-- What scrambling WSTORE entries leaves. -/
theorem scrambleSlots_frame (ks : List Nat) (s : State) :
    scrambleSlots ks s =
      { s with win := { s.win with wstore := (scrambleSlots ks s).win.wstore }, draws := s.draws + ks.length } := by
  induction ks generalizing s with
  | nil => rfl
  | cons k ks ih =>
    rw [scrambleSlots, ih, List.length_cons, Nat.add_assoc, Nat.add_comm 1]

@[simp] theorem scrambleRegs_wstore (s : State) : (scrambleRegs s).win.wstore = s.win.wstore := rfl
@[simp] theorem scrambleRegs_map (s : State) : (scrambleRegs s).win.map = s.win.map := rfl

/-! ## Engine accesses -/

/-- An engine read that answers changes nothing but the draw counter, and its address is usable. -/
theorem engineRead_ok {a : Nat} {s t : State} {v : Byte} (h : engineRead a s = .ok (v, t)) :
    s.plat.memOk a = true ∧ (t = s ∧ v = s.mem.read a ∨ s.isTainted a = true ∧ t = s.draw.2) := by
  unfold engineRead at h
  split at h
  · next hok =>
    refine ⟨hok, ?_⟩
    split at h
    · next ht => cases h; exact .inr ⟨ht, rfl⟩
    · cases h; exact .inl ⟨rfl, rfl⟩
  · cases h

/-- An engine read fails exactly at its own address, where `MEM_OK` is false (R431). -/
theorem engineRead_error {a b : Nat} {s : State} (h : engineRead a s = .error b) :
    b = a ∧ s.plat.memOk a = false := by
  unfold engineRead at h
  split at h
  · split at h <;> cases h
  · next hok => cases h; exact ⟨rfl, by simpa using hok⟩

/-- An engine write that answers writes that one byte. -/
theorem engineWrite_ok {a : Nat} {v : Byte} {s t : State} (h : engineWrite a v s = .ok t) :
    s.plat.memOk a = true ∧ t = { s with mem := s.mem.write a v } := by
  unfold engineWrite at h
  split at h
  · next hok => cases h; exact ⟨hok, rfl⟩
  · cases h

/-- An engine write fails exactly at its own address, where `MEM_OK` is false (R431). -/
theorem engineWrite_error {a b : Nat} {v : Byte} {s : State} (h : engineWrite a v s = .error b) :
    b = a ∧ s.plat.memOk a = false := by
  unfold engineWrite at h
  split at h
  · cases h
  · next hok => cases h; exact ⟨rfl, by simpa using hok⟩

/-- A choice between `n + 1` tracks takes at most the first entry of `order`, and none if there is one track. -/
theorem choose_order (n : Nat) (s : State) :
    ∃ o, o <:+ s.order ∧ (n = 0 → o = s.order) ∧ (s.choose n).2 = { s with order := o } := by
  unfold State.choose
  split
  · exact ⟨s.order, List.suffix_rfl, fun _ => rfl, rfl⟩
  · next h =>
    split
    · exact ⟨s.order, List.suffix_rfl, fun _ => rfl, rfl⟩
    · next k ks hk => exact ⟨ks, hk ▸ List.suffix_cons k ks, fun h0 => absurd h0 h, rfl⟩

/-! ## Release and completion -/

/-- An untainted command that ends changes no byte. -/
theorem release_untainted (f : InFlight) (s : State) (h : f.tainted = []) :
    release f s =
      { s with
        inflight  := none
        hostOver  := if s.plat.coherent then s.hostOver else f.written.union s.hostOver
        hostStale := if s.plat.coherent then s.hostStale else (f.foot.writes.map s.plat.cacheLine).union s.hostStale } := by
  simp [release, h]

/-- Everything the end of a command changes (R404, R408, R155, R160). -/
theorem release_frame (f : InFlight) (s : State) :
    release f s =
      { s with
        inflight  := none
        mem       := (release f s).mem
        draws     := (release f s).draws
        hostOver  := (release f s).hostOver
        hostStale := (release f s).hostStale } := by
  unfold release
  simp only
  split
  · rfl
  · rw [scrambleBytes_frame]

theorem release_wf (f : InFlight) (s : State) (hf : ∀ a ∈ f.foot.writes, a < Config.spaceBytes) (h : s.mem.wf = true) :
    (release f s).mem.wf = true := by
  unfold release
  simp only
  split
  · exact h
  · exact scrambleBytes_wf _ _ hf h

theorem releaseUnspecified_frame (f : InFlight) (s : State) :
    releaseUnspecified f s =
      { s with
        inflight  := none
        mem       := (releaseUnspecified f s).mem
        draws     := (releaseUnspecified f s).draws
        hostOver  := (releaseUnspecified f s).hostOver
        hostStale := (releaseUnspecified f s).hostStale } := by
  unfold releaseUnspecified
  rw [release_frame, scrambleBytes_frame]

theorem releaseUnspecified_wf (f : InFlight) (s : State) (hf : ∀ a ∈ f.foot.writes, a < Config.spaceBytes)
    (h : s.mem.wf = true) : (releaseUnspecified f s).mem.wf = true :=
  release_wf { f with tainted := [], todo := [] } _ hf (scrambleBytes_wf _ _ hf h)

/-- A command that ends changes no byte outside its write footprint. -/
theorem release_read_of_not_mem (f : InFlight) (s : State) (b : Nat) (h : b ∉ f.foot.writes) :
    (release f s).mem.read b = s.mem.read b := by
  simp only [release]
  split
  · rfl
  · exact scrambleBytes_read_of_not_mem _ _ _ h

theorem releaseUnspecified_read_of_not_mem (f : InFlight) (s : State) (b : Nat) (h : b ∉ f.foot.writes) :
    (releaseUnspecified f s).mem.read b = s.mem.read b :=
  (release_read_of_not_mem { f with tainted := [] } _ b h).trans (scrambleBytes_read_of_not_mem _ _ _ h)

theorem complete_read_of_not_mem (f : InFlight) (s : State) (b : Nat) (h : b ∉ f.foot.writes) :
    (complete f s).mem.read b = s.mem.read b := by
  simp only [complete]
  split
  · simpa using release_read_of_not_mem f s b h
  · exact release_read_of_not_mem f s b h

/-- A line command that completes leaves the window state its steps wrote (R404). -/
theorem complete_win_of_line (f : InFlight) (s : State) (h : isImage f.cmd = false) :
    (complete f s).win = s.win := by simp [complete, h]

/-! ## Issue -/

/-- Everything an issue can do (R400, R403, R151, R154). -/
theorem issue_cases (i : Instr) (p : Plan) (s : State) :
    (s.busy = true ∧ issue i p s = .next (advance (lostIssue s)))
    ∨ (s.busy = false ∧ ∃ e, p.check = some e ∧ issue i p s = .next (raiseError e 0 (accept (encode i) s)))
    ∨ (s.busy = false ∧ p.check = none ∧ (∃ a ∈ p.foot.all, s.plat.inWindow a = true)
        ∧ issue i p s = .refused .bufferInRegisterWindow)
    ∨ (s.busy = false ∧ p.check = none ∧ (∀ a ∈ p.foot.all, s.plat.inWindow a = false)
        ∧ (∃ a ∈ p.foot.all, s.plat.inDevice a = true) ∧ issue i p s = .fault .nonIdempotentBuffer)
    ∨ (s.busy = false ∧ p.check = none ∧ (∀ a ∈ p.foot.all, s.plat.inWindow a = false)
        ∧ (∀ a ∈ p.foot.all, s.plat.inDevice a = false)
        ∧ issue i p s = .next (advance (start i p (accept (encode i) s)))) := by
  unfold issue
  cases hb : s.busy
  · cases hc : p.check with
    | some e => simp
    | none =>
      cases hw : p.foot.all.any s.plat.inWindow
      · have hw' : ∀ a ∈ p.foot.all, s.plat.inWindow a = false := by simpa using hw
        cases hd : p.foot.all.any s.plat.inDevice
        · have hd' : ∀ a ∈ p.foot.all, s.plat.inDevice a = false := by simpa using hd
          exact .inr (.inr (.inr (.inr ⟨rfl, rfl, hw', hd', by simp⟩)))
        · exact .inr (.inr (.inr (.inl ⟨rfl, rfl, hw', by simpa using hd, by simp⟩)))
      · exact .inr (.inr (.inl ⟨rfl, rfl, by simpa using hw, by simp⟩))
  · simp

end Sys2Proof.Machine
end

