-- ==== Sys2Proof/Laws/Engine.lean ====
section
/-! SUPPORT. What one engine step and a run of engine steps can do, said once: the cases of a step, the bound on a run (R401),
and the bytes a run may store to. -/

namespace Sys2Proof.Machine

/-! ## Choosing a track -/

/-- The picked element and the others are the list, in some order. -/
theorem pick_perm {α : Type} (k : Nat) (t : α) (ts : List α) : ((pick k t ts).1 :: (pick k t ts).2).Perm (t :: ts) := by
  induction k generalizing t ts with
  | zero => exact .rfl
  | succ k ih =>
    cases ts with
    | nil => exact .rfl
    | cons u us => exact (List.Perm.swap _ _ _).trans ((ih u us).cons t)

theorem pick_map {α β : Type} (f : α → β) (k : Nat) (t : α) (ts : List α) :
    pick k (f t) (ts.map f) = (f (pick k t ts).1, (pick k t ts).2.map f) := by
  induction k generalizing t ts with
  | zero => rfl
  | succ k ih =>
    cases ts with
    | nil => rfl
    | cons u us => simp only [List.map_cons, pick, ih]

/-! ## One step of a track -/

/-- The fields an engine step of a pseudocode never touches. -/
def EngineFrame (s t : State) : Prop :=
  t = { s with
    win := t.win, inflight := t.inflight, mem := t.mem, order := t.order, draws := t.draws }

theorem EngineFrame.refl (s : State) : EngineFrame s s := rfl

theorem EngineFrame.trans {s t u : State} (h1 : EngineFrame s t) (h2 : EngineFrame t u) : EngineFrame s u := by
  unfold EngineFrame at *
  rw [h1] at h2
  exact h2

theorem EngineFrame.plat {s t : State} (h : EngineFrame s t) : t.plat = s.plat := by rw [h]
theorem EngineFrame.flags {s t : State} (h : EngineFrame s t) : t.flags = s.flags := by rw [h]
theorem EngineFrame.errAddr {s t : State} (h : EngineFrame s t) : t.errAddr = s.errAddr := by rw [h]
theorem EngineFrame.hostDirty {s t : State} (h : EngineFrame s t) : t.hostDirty = s.hostDirty := by rw [h]
theorem EngineFrame.hostOver {s t : State} (h : EngineFrame s t) : t.hostOver = s.hostOver := by rw [h]
theorem EngineFrame.hostStale {s t : State} (h : EngineFrame s t) : t.hostStale = s.hostStale := by rw [h]

theorem engineFrame_stepped (f : InFlight) (t : Track) (us : List Track) (ps : List Phase) (b : Byte) (s : State) :
    EngineFrame s (stepped f t us ps b s) := rfl

/-- The variables of a track hang on the window alone. -/
theorem vars_congr (f : InFlight) (t : Track) {s s1 : State} (h : s1.win = s.win) : f.vars t s1 = f.vars t s := by
  unfold InFlight.vars; rw [h]

theorem engineRead_frame {a : Nat} {s t : State} {v : Byte} (h : engineRead a s = .ok (v, t)) :
    EngineFrame s t ∧ t.mem = s.mem ∧ t.win = s.win ∧ t.order = s.order := by
  rcases (engineRead_ok h).2 with ⟨rfl, -⟩ | ⟨-, rfl⟩
  · exact ⟨rfl, rfl, rfl, rfl⟩
  · exact ⟨rfl, rfl, rfl, rfl⟩

/-- Everything a step of a track can do when its access answers. -/
theorem trackStep_ok {f : InFlight} {t : Track} {us : List Track} {ps : List Phase} {s u : State}
    (h : trackStep f t us ps s = .ok u) :
    (t.next.access (f.vars t s) = .none ∧ u = stepped f t us ps 0 s)
    ∨ (∃ a b s1, t.next.access (f.vars t s) = .read a ∧ engineRead a s = .ok (b, s1) ∧ u = stepped f t us ps b s1)
    ∨ (∃ a v s1, t.next.access (f.vars t s) = .write a v ∧ engineWrite a v s = .ok s1 ∧ u = stepped f t us ps 0 s1) := by
  unfold trackStep at h
  split at h
  · next ha => cases h; exact .inl ⟨ha, rfl⟩
  · next a ha =>
    split at h
    · cases h
    · next b s1 hr => cases h; exact .inr (.inl ⟨a, b, s1, ha, hr, rfl⟩)
  · next a v ha =>
    split at h
    · cases h
    · next s1 hw => cases h; exact .inr (.inr ⟨a, v, s1, ha, hw, rfl⟩)

/-- A step of a track fails exactly at the address of its access, where `MEM_OK` is false (R431). -/
theorem trackStep_error {f : InFlight} {t : Track} {us : List Track} {ps : List Phase} {s : State} {a : Nat}
    (h : trackStep f t us ps s = .error a) :
    (t.next.access (f.vars t s) = .read a ∨ ∃ v, t.next.access (f.vars t s) = .write a v) ∧ s.plat.memOk a = false := by
  unfold trackStep at h
  split at h
  · cases h
  · next b ha =>
    split at h
    · next e he => cases h; obtain ⟨rfl, hm⟩ := engineRead_error he; exact ⟨.inl ha, hm⟩
    · cases h
  · next b v ha =>
    split at h
    · next e he => cases h; obtain ⟨rfl, hm⟩ := engineWrite_error he; exact ⟨.inr ⟨v, ha⟩, hm⟩
    · cases h

theorem MicroOp.access_write {v : Vars} {op : MicroOp} {a : Nat} {x : Byte} (h : op.access v = .write a x) :
    op.target = some a := by
  cases op <;> simp_all [MicroOp.access, MicroOp.target]

theorem MicroOp.stores_target {op : MicroOp} {a : Nat} (h : op.target = some a) : a ∈ op.stores := by
  cases op <;> simp_all [MicroOp.stores, MicroOp.target]

theorem MicroOp.stores_follow (o : OperandRegs) (b : Byte) (v : Vars) (op : MicroOp) :
    ∀ x ∈ op.follow o b v, ∀ a ∈ x.stores, a ∈ op.stores := by
  cases op <;> simp only [MicroOp.follow, List.not_mem_nil, false_implies, implies_true]
  split
  · intro x hx a ha
    simp only [laneSteps, List.mem_cons, List.not_mem_nil, or_false] at hx
    rcases hx with rfl | rfl | rfl | rfl | rfl | rfl <;>
      simp_all [MicroOp.stores, MicroOp.target]
  · simp

theorem mem_stores_of? (l : Latch) (w : LineRegs) (ops : List MicroOp) (a : Nat) :
    a ∈ (Track.of? l w ops).toList.flatMap Track.stores ↔ a ∈ ops.flatMap MicroOp.stores := by
  cases ops <;> simp [Track.of?, Track.stores]

theorem mem_stores_phase (ts : List Track) (a : Nat) :
    a ∈ (Phase.of? ts).toList.flatMap Phase.stores ↔ a ∈ ts.flatMap Track.stores := by
  cases ts <;> simp [Phase.of?, Phase.stores, Phase.tracks]

/-- The steps that stand after one step store where the steps before it may. -/
theorem mem_stores_after {f : InFlight} {t : Track} {b : Byte} {s : State} {a : Nat}
    (h : a ∈ (t.after f b s).toList.flatMap Track.stores) : a ∈ t.stores := by
  rw [Track.after, mem_stores_of?, List.flatMap_append, List.mem_append] at h
  rw [Track.stores, List.flatMap_cons, List.mem_append]
  rcases h with h | h
  · obtain ⟨x, hx, ha⟩ := List.mem_flatMap.1 h
    exact .inl (MicroOp.stores_follow _ _ _ _ x hx a ha)
  · exact .inr h

/-! ## One engine step -/

/-- Everything one engine step can do (R401, R404, R409, R431): nothing while idle; completion when no step is left; else the
next step of the picked track of the phase, which answers or fails. -/
theorem engineStep_cases (s : State) :
    (s.inflight = none ∧ engineStep s = s)
    ∨ (∃ f, s.inflight = some f ∧ f.todo = [] ∧ engineStep s = complete f s)
    ∨ (∃ f p ps k t us o, s.inflight = some f ∧ f.todo = p :: ps ∧ pick k p.head p.others = (t, us)
        ∧ o <:+ s.order ∧ (p.others = [] → o = s.order)
        ∧ ((∃ u, trackStep f t us ps { s with order := o } = .ok u ∧ engineStep s = u)
          ∨ ∃ a, trackStep f t us ps { s with order := o } = .error a
              ∧ engineStep s = busError f a { s with order := o })) := by
  obtain hi | ⟨f, hi⟩ := Option.eq_none_or_eq_some s.inflight
  · exact .inl ⟨hi, by simp [engineStep, hi]⟩
  · cases ht : f.todo with
    | nil => exact .inr (.inl ⟨f, hi, ht, by simp [engineStep, hi, ht]⟩)
    | cons p ps =>
      obtain ⟨o, ho, ho0, he⟩ := choose_order p.others.length s
      refine .inr (.inr ⟨f, p, ps, (s.choose p.others.length).1, (pick (s.choose p.others.length).1 p.head p.others).1,
        (pick (s.choose p.others.length).1 p.head p.others).2, o, hi, ht, rfl, ho, fun h => ho0 (by simp [h]), ?_⟩)
      rw [← he]
      cases hm : trackStep f (pick (s.choose p.others.length).1 p.head p.others).1
        (pick (s.choose p.others.length).1 p.head p.others).2 ps (s.choose p.others.length).2 with
      | ok u => exact .inl ⟨u, rfl, by simp [engineStep, hi, ht, hm]⟩
      | error a => exact .inr ⟨a, rfl, by simp [engineStep, hi, ht, hm]⟩

@[simp] theorem engineStep_idle (s : State) (h : s.inflight = none) : engineStep s = s := by
  simp [engineStep, h]

/-- The step of the track that is picked. -/
theorem engineStep_pick {s s1 : State} {f : InFlight} {p : Phase} {ps : List Phase} {k : Nat} {t : Track} {us : List Track}
    (hi : s.inflight = some f) (ht : f.todo = p :: ps) (hc : s.choose p.others.length = (k, s1))
    (hp : pick k p.head p.others = (t, us)) :
    engineStep s = match trackStep f t us ps s1 with
      | .ok u => u
      | .error a => busError f a s1 := by
  unfold engineStep
  rw [hi]
  simp only [ht]
  rw [hc]
  show (match pick k p.head p.others with
    | (t, others) => match trackStep f t others ps s1 with
      | .ok u => u
      | .error a => busError f a s1) = _
  rw [hp]

/-! ## Runs -/

@[simp] theorem engineRun_zero (s : State) : engineRun 0 s = s := rfl

theorem engineRun_idle (n : Nat) (s : State) (h : s.inflight = none) : engineRun n s = s := by
  cases n <;> simp [engineRun, State.busy, h]

theorem engineRun_succ (n : Nat) (s : State) : engineRun (n + 1) s = engineRun n (engineStep s) := by
  cases h : s.inflight with
  | none => simp [engineRun_idle, h]
  | some f => simp [engineRun, State.busy, h]

/-- Engine steps add up. -/
theorem engineRun_add (n m : Nat) (s : State) : engineRun (n + m) s = engineRun m (engineRun n s) := by
  induction n generalizing s with
  | zero => simp
  | succ n ih => rw [Nat.succ_add, engineRun_succ, engineRun_succ, ih]

/-- Whatever every engine step keeps, every run keeps. -/
theorem engineRun_induction {P : State → Prop} (hstep : ∀ s, P s → P (engineStep s)) (n : Nat) (s : State)
    (h : P s) : P (engineRun n s) := by
  induction n generalizing s with
  | zero => exact h
  | succ n ih => rw [engineRun_succ]; exact ih _ (hstep s h)

/-! ## Every run ends (R401) -/

theorem follow_cost (o : OperandRegs) (b : Byte) (v : Vars) (op : MicroOp) :
    ((op.follow o b v).map MicroOp.cost).sum + 1 ≤ op.cost := by
  cases op <;> simp only [MicroOp.follow, MicroOp.cost] <;> try exact le_rfl
  split
  · exact le_refl 7
  · exact Nat.le_of_ble_eq_true rfl

theorem cost_of? (l : Latch) (w : LineRegs) (ops : List MicroOp) :
    ((Track.of? l w ops).toList.map Track.cost).sum = (ops.map MicroOp.cost).sum := by
  cases ops <;> simp [Track.of?, Track.cost]

theorem cost_phase (ts : List Track) : ((Phase.of? ts).toList.map Phase.cost).sum = (ts.map Track.cost).sum := by
  cases ts <;> simp [Phase.of?, Phase.cost, Phase.tracks]

/-- Each step that leaves the command in flight brings its end nearer. -/
theorem engineStep_remaining (s : State) (h : (engineStep s).inflight ≠ none) : (engineStep s).remaining < s.remaining := by
  rcases engineStep_cases s with ⟨hi, he⟩ | ⟨f, -, -, he⟩ | ⟨f, p, ps, k, t, us, o, hi, ht, hk, -, -, ⟨u, hu, he⟩ | ⟨a, -, he⟩⟩
  · rw [he] at h; exact absurd hi h
  · rw [he] at h; simp at h
  · have hrem : s.remaining = ((p.tracks.map Track.cost).sum + (ps.map Phase.cost).sum) + 1 := by
      simp [State.remaining, hi, ht, Phase.cost]
    have hperm : ((t :: us).map Track.cost).sum = (p.tracks.map Track.cost).sum := by
      have := pick_perm k p.head p.others
      rw [hk] at this
      exact ((this.map _).sum_eq)
    have key : ∀ b s1, (stepped f t us ps b s1).remaining < s.remaining := by
      intro b s1
      have hf := follow_cost f.snap b (f.vars t s1) t.next
      rw [hrem, ← hperm]
      simp only [State.remaining, stepped, List.map_append, List.sum_append, cost_phase, Track.after, cost_of?,
        List.map_cons, List.sum_cons, Track.cost]
      omega
    rw [he]
    rcases trackStep_ok hu with ⟨-, rfl⟩ | ⟨_, _, _, -, -, rfl⟩ | ⟨_, _, _, -, -, rfl⟩ <;> exact key _ _
  · rw [he] at h
    refine absurd ?_ h
    unfold busError
    split <;> rfl

/-- Every command that is left alone ends within its bound. -/
theorem engineRun_ends (n : Nat) (s : State) (h : s.remaining ≤ n) : (engineRun n s).inflight = none := by
  induction n generalizing s with
  | zero =>
    cases hi : s.inflight with
    | none => exact hi
    | some f => simp [State.remaining, hi] at h
  | succ n ih =>
    rw [engineRun_succ]
    by_cases hi : (engineStep s).inflight = none
    · rw [engineRun_idle _ _ hi]; exact hi
    · exact ih _ (by have := engineStep_remaining s hi; omega)

/-- Two runs that both end, end in the same state. -/
theorem engineRun_unique {n m : Nat} {s : State} (hn : (engineRun n s).inflight = none)
    (hm : (engineRun m s).inflight = none) : engineRun n s = engineRun m s := by
  rcases Nat.le_total n m with h | h
  · obtain ⟨k, rfl⟩ := Nat.exists_eq_add_of_le h
    rw [engineRun_add, engineRun_idle _ _ hn]
  · obtain ⟨k, rfl⟩ := Nat.exists_eq_add_of_le h
    rw [engineRun_add, engineRun_idle _ _ hm]

/-- An undisturbed command runs to its end. -/
theorem advance_eq {s : State} {n : Nat} (hl : s.lead = .untilDone) (hn : (engineRun n s).inflight = none) :
    advance s = engineRun n s := by
  unfold advance
  rw [hl]
  exact engineRun_unique (engineRun_ends _ _ le_rfl) hn

end Sys2Proof.Machine
end

