-- ==== Sys2Proof/Laws/Clean.lean ====
section
/-! SUPPORT. The clean run of a command: no bus error, no owned byte touched by the host. A track's steps are a relation on
memory and variables alone (`Work.Runs`). A phase of one track runs it (`single_run`); a phase of many, whose tracks keep to
bytes of their own, leaves in every order what each track leaves by itself (`phase_run`, R156 b, R444). -/

namespace Sys2Proof.Machine

/-! ## The steps of one track, by themselves -/

/-- What the steps of a track work on. -/
structure Work where
  mem  : Memory
  vars : Vars

/-- The byte a step reads. -/
def Work.byte (c : Work) (op : MicroOp) : Byte :=
  match op.access c.vars with
  | .read a => c.mem.read a
  | .none | .write _ _ => 0

/-- Memory after a step. -/
def Work.stored (c : Work) (op : MicroOp) : Memory :=
  match op.access c.vars with
  | .write a v => c.mem.write a v
  | .none | .read _ => c.mem

/-- The effect of one step. -/
def Work.step (o : OperandRegs) (c : Work) (op : MicroOp) : Work := ⟨c.stored op, op.update o (c.byte op) c.vars⟩

/-- A read keeps to `rd` and a write to `wr`. -/
def Access.within (rd wr : Nat → Prop) : Access → Prop
  | .none => True
  | .read a => rd a
  | .write a _ => wr a

/-- Running a list of steps, those they call for included, from `c` ends at `d`, with its reads in `rd` and its writes in
`wr`. -/
inductive Work.Runs (o : OperandRegs) (rd wr : Nat → Prop) : Work → List MicroOp → Work → Prop where
  | done (c : Work) : Work.Runs o rd wr c [] c
  | step {c d : Work} {op : MicroOp} {ops : List MicroOp} (h : (op.access c.vars).within rd wr)
      (hr : Work.Runs o rd wr (c.step o op) (op.follow o (c.byte op) c.vars ++ ops) d) : Work.Runs o rd wr c (op :: ops) d

theorem Work.Runs.append {o : OperandRegs} {rd wr : Nat → Prop} {c d e : Work} {xs ys : List MicroOp}
    (h1 : Work.Runs o rd wr c xs d) (h2 : Work.Runs o rd wr d ys e) : Work.Runs o rd wr c (xs ++ ys) e := by
  induction h1 with
  | done c => exact h2
  | step h _ ih => exact .step h (by have := ih h2; rwa [List.append_assoc] at this)

/-- A run writes nothing outside `wr`. -/
theorem Work.Runs.frame {o : OperandRegs} {rd wr : Nat → Prop} {c d : Work} {ops : List MicroOp}
    (h : Work.Runs o rd wr c ops d) {a : Nat} (ha : ¬wr a) : d.mem.read a = c.mem.read a := by
  induction h with
  | done c => rfl
  | @step c d op ops h _ ih =>
    rw [ih, Work.step, Work.stored]
    split
    · next b v hb =>
      rw [hb] at h
      exact Memory.read_write_of_ne _ _ (fun he => ha (he ▸ h))
    all_goals rfl

/-- Steps that call for no others. -/
def MicroOp.straight : MicroOp → Bool
  | .loadBlurred _ _ => false
  | .setMap _ _ | .sample _ _ _ _ | .fillSlot _ | .setWsum | .setInsum | .setOutsum | .setSp _ | .setPos _ | .emit _ _ _
  | .dropLeft | .dropLeaving _ | .dropSample _ | .takeMapped _ _ | .take _ | .enterSlot _ | .enterInsum | .addRight
  | .addSample | .advanceSp _ | .centreOut | .centreIn | .store _ | .loadRed _ | .loadGreen _ | .loadBlue _
  | .storeLuma _ | .loadLuma _ | .storeLane _ => true

theorem MicroOp.follow_straight {op : MicroOp} (h : op.straight = true) (o : OperandRegs) (b : Byte) (v : Vars) :
    op.follow o b v = [] := by cases op <;> first | rfl | cases h

/-- The fold of straight steps. -/
def Work.runOps (o : OperandRegs) (c : Work) (ops : List MicroOp) : Work := ops.foldl (fun c op => c.step o op) c

/-- Every access of straight steps stays within `rd` and `wr`. -/
def Work.runOpsOk (o : OperandRegs) (rd wr : Nat → Prop) : Work → List MicroOp → Prop
  | _, [] => True
  | c, op :: ops => (op.access c.vars).within rd wr ∧ Work.runOpsOk o rd wr (c.step o op) ops

@[simp] theorem Work.runOps_nil (o : OperandRegs) (c : Work) : c.runOps o [] = c := rfl
@[simp] theorem Work.runOps_cons (o : OperandRegs) (c : Work) (op : MicroOp) (ops : List MicroOp) :
    c.runOps o (op :: ops) = (c.step o op).runOps o ops := rfl
theorem Work.runOps_append (o : OperandRegs) (c : Work) (xs ys : List MicroOp) :
    c.runOps o (xs ++ ys) = (c.runOps o xs).runOps o ys := List.foldl_append

theorem Work.runOpsOk_append (o : OperandRegs) (rd wr : Nat → Prop) (c : Work) (xs ys : List MicroOp) :
    Work.runOpsOk o rd wr c (xs ++ ys) ↔ Work.runOpsOk o rd wr c xs ∧ Work.runOpsOk o rd wr (c.runOps o xs) ys := by
  induction xs generalizing c with
  | nil => simp [Work.runOpsOk]
  | cons x xs ih => simp [Work.runOpsOk, ih, and_assoc]

/-- A list of straight steps runs as its fold. -/
theorem Work.Runs.of_straight {o : OperandRegs} {rd wr : Nat → Prop} {ops : List MicroOp}
    (hs : ∀ op ∈ ops, op.straight = true) (c : Work) (h : Work.runOpsOk o rd wr c ops) :
    Work.Runs o rd wr c ops (c.runOps o ops) := by
  induction ops generalizing c with
  | nil => exact .done c
  | cons op ops ih =>
    refine .step h.1 ?_
    rw [MicroOp.follow_straight (hs op List.mem_cons_self)]
    exact ih (fun x hx => hs x (List.mem_cons_of_mem op hx)) _ h.2

/-! ## A step of the engine on a clean run -/

theorem engineRead_clean {a : Nat} {s : State} {f : InFlight} (hs : s.inflight = some f) (ht : f.tainted = [])
    (hok : s.plat.memOk a = true) : engineRead a s = .ok (s.mem.read a, s) := by
  simp [engineRead, hok, State.isTainted, hs, ht]

/-- On a clean step the engine does what `Work.step` says, if memory holds what the track works on where it reads. -/
theorem trackStep_clean {f f' : InFlight} {t : Track} {us : List Track} {ps : List Phase} {s : State} {c : Work}
    {rd wr : Nat → Prop} (hi : s.inflight = some f') (ht : f'.tainted = []) (hv : f.vars t s = c.vars)
    (hm : ∀ a, rd a → c.mem.read a = s.mem.read a) (hok : ∀ a, rd a ∨ wr a → s.plat.memOk a = true)
    (h : (t.next.access c.vars).within rd wr) :
    trackStep f t us ps s = .ok (stepped f t us ps (c.byte t.next)
      { s with mem := Work.stored ⟨s.mem, c.vars⟩ t.next }) := by
  unfold trackStep Work.byte Work.stored
  rw [hv]
  cases ha : t.next.access c.vars with
  | none => rfl
  | read a =>
    rw [ha] at h
    simp [engineRead_clean hi ht (hok a (.inl h)), hm a h]
  | write a v =>
    rw [ha] at h
    simp [engineWrite, hok a (.inr h)]

/-- What is left of a track that works on variables `v`. -/
theorem after_eq (f : InFlight) (t : Track) {b : Byte} {s : State} {v : Vars} (h : f.vars t s = v) :
    t.after f b s = Track.of? (t.next.update f.snap b v).latch (t.next.update f.snap b v).regs
      (t.next.follow f.snap b v ++ t.ops) := by subst h; rfl

/-- `t` is `s` with memory, window and the choices moved on, and `todo` still to do. -/
def State.At (s : State) (f : InFlight) (todo : List Phase) (t : State) : Prop :=
  t = { s with mem := t.mem, win := t.win, order := t.order, inflight := some { f with todo := todo } }

theorem State.At.inflight {s t : State} {f : InFlight} {todo : List Phase} (h : s.At f todo t) :
    t.inflight = some { f with todo := todo } := by rw [h]

theorem State.At.plat {s t : State} {f : InFlight} {todo : List Phase} (h : s.At f todo t) : t.plat = s.plat := by rw [h]

theorem State.At.trans {s t u : State} {f : InFlight} {xs ys : List Phase} (h1 : s.At f xs t) (h2 : t.At f ys u) :
    s.At f ys u := by
  unfold State.At at *
  rw [h1] at h2
  exact h2

/-- Some number of engine steps leads to a state with `P`. -/
def Reaches (s : State) (P : State → Prop) : Prop := ∃ n, P (engineRun n s)

theorem Reaches.refl {s : State} {P : State → Prop} (h : P s) : Reaches s P := ⟨0, h⟩

theorem Reaches.trans {s : State} {P Q : State → Prop} (h : Reaches s P) (hq : ∀ t, P t → Reaches t Q) : Reaches s Q := by
  obtain ⟨n, hn⟩ := h
  obtain ⟨m, hm⟩ := hq _ hn
  exact ⟨n + m, by rw [engineRun_add]; exact hm⟩

theorem Reaches.step {s : State} {P : State → Prop} (h : Reaches (engineStep s) P) : Reaches s P := by
  obtain ⟨n, hn⟩ := h
  exact ⟨n + 1, by rw [engineRun_succ]; exact hn⟩

theorem Reaches.imp {s : State} {P Q : State → Prop} (h : Reaches s P) (hq : ∀ t, P t → Q t) : Reaches s Q :=
  h.trans (fun t ht => .refl (hq t ht))

/-! ## A phase of one track -/

/-- The phase of one list of steps, if it has any. -/
def singlePhase (l : Latch) (w : LineRegs) (ops : List MicroOp) : List Phase := (Phase.of? (Track.of? l w ops).toList).toList

/-- The window of a command that works on variables `v`. -/
def windowOf (i : Instr) (w : LineRegs) (v : Vars) : Window := ⟨if isImage i then w else v.regs, v.map⟩

/-- A phase of one track whose first steps `ops` run comes to the rest `ys`, as the steps leave it, and chooses nothing. -/
theorem prefix_run {f : InFlight} {ps : List Phase} {rd wr : Nat → Prop} {c d : Work} {ops : List MicroOp}
    (ys : List MicroOp) (h : Work.Runs f.snap rd wr c ops d) (ht : f.tainted = []) (s : State)
    (hs : s.inflight = some { f with todo := singlePhase c.vars.latch c.vars.regs (ops ++ ys) ++ ps })
    (hm : s.mem = c.mem) (hw : s.win = windowOf f.cmd s.win.toLineRegs c.vars)
    (hok : ∀ a, rd a ∨ wr a → s.plat.memOk a = true) :
    Reaches s (fun t => s.At f (singlePhase d.vars.latch d.vars.regs ys ++ ps) t ∧ t.mem = d.mem
      ∧ t.win = windowOf f.cmd s.win.toLineRegs d.vars ∧ t.order = s.order) := by
  induction h generalizing s with
  | done c =>
    refine .refl ⟨?_, hm, hw, rfl⟩
    unfold State.At
    rw [← show s.inflight = some { f with todo := singlePhase c.vars.latch c.vars.regs ys ++ ps } from hs]
  | @step c d op ops h _ ih =>
    apply Reaches.step
    let f' : InFlight := { f with todo := singlePhase c.vars.latch c.vars.regs (op :: ops ++ ys) ++ ps }
    let t : Track := ⟨op, ops ++ ys, c.vars.latch, c.vars.regs⟩
    have hmap : s.win.map = c.vars.map := by rw [hw]; rfl
    have hregs : (if isImage f.cmd then c.vars.regs else s.win.toLineRegs) = c.vars.regs := by
      split
      · rfl
      · next hn => rw [hw]; simp [windowOf, hn]
    have hv : f'.vars t s = c.vars := by
      show Vars.mk c.vars.latch (if isImage f.cmd then c.vars.regs else s.win.toLineRegs) s.win.map = c.vars
      rw [hregs, hmap]
    have hstep := trackStep_clean (f := f') (t := t) (us := []) (ps := ps) hs ht hv (fun a _ => by rw [hm]) hok h
    have he : engineStep s = stepped f' t [] ps (c.byte op) { s with mem := c.stored op } := by
      rw [hm] at hstep
      rw [engineStep_pick (f := f') (p := ⟨t, []⟩) (ps := ps) (k := 0) (s1 := s) (t := t) (us := []) hs rfl rfl rfl, hstep]
    have hv2 : f'.vars t { s with mem := c.stored op } = c.vars := hv
    have hwin : (stepped f' t [] ps (c.byte op) { s with mem := c.stored op }).win
        = windowOf f.cmd s.win.toLineRegs (c.step f.snap op).vars := by
      show (⟨if isImage f.cmd then s.win.toLineRegs else (op.update f.snap (c.byte op) (f'.vars t _)).regs,
        (op.update f.snap (c.byte op) (f'.vars t _)).map⟩ : Window) = _
      rw [hv2]
      rfl
    rw [he]
    refine (ih (stepped f' t [] ps (c.byte op) { s with mem := c.stored op }) ?_ rfl ?_ ?_).imp ?_
    · rw [stepped_inflight]
      rw [after_eq f' t hv2, List.append_nil, List.append_assoc]
      rfl
    · rw [hwin]
      cases hb : isImage f.cmd <;> simp [windowOf, hb]
    · exact hok
    · rintro u ⟨h1, h2, h3, h4⟩
      refine ⟨?_, h2, ?_, h4⟩
      · unfold State.At at h1 ⊢
        rw [h1]
        rfl
      · rw [h3, hwin]
        cases hb : isImage f.cmd <;> simp [windowOf, hb]

/-- A phase of one track does what its steps do, and chooses nothing. -/
theorem single_run {f : InFlight} {ps : List Phase} {rd wr : Nat → Prop} {c d : Work} {ops : List MicroOp}
    (h : Work.Runs f.snap rd wr c ops d) (ht : f.tainted = []) (s : State)
    (hs : s.inflight = some { f with todo := singlePhase c.vars.latch c.vars.regs ops ++ ps })
    (hm : s.mem = c.mem) (hw : s.win = windowOf f.cmd s.win.toLineRegs c.vars)
    (hok : ∀ a, rd a ∨ wr a → s.plat.memOk a = true) :
    Reaches s (fun t => s.At f ps t ∧ t.mem = d.mem ∧ t.win = windowOf f.cmd s.win.toLineRegs d.vars
      ∧ t.order = s.order) :=
  prefix_run [] h ht s (by rw [List.append_nil]; exact hs) hm hw hok

/-! ## A phase of many tracks, in any order -/

/-- A track, the bytes it keeps to, and what it leaves in those it writes. -/
structure Job where
  track : Track
  rd    : Nat → Prop
  wr    : Nat → Prop
  final : Nat → Byte

/-- A step that does not write MAP. -/
def MicroOp.keepsMap (op : MicroOp) : Prop := ∀ o b v, (op.update o b v).map = v.map

theorem MicroOp.keepsMap_follow (o : OperandRegs) (b : Byte) (v : Vars) (op : MicroOp) :
    ∀ x ∈ op.follow o b v, x.keepsMap := by
  cases op <;> simp only [MicroOp.follow, List.not_mem_nil, false_implies, implies_true]
  split
  · intro x hx
    simp only [laneSteps, List.mem_cons, List.not_mem_nil, or_false] at hx
    rcases hx with rfl | rfl | rfl | rfl | rfl | rfl <;> exact fun _ _ _ => rfl
  · simp

/-- From memory `m` the track's steps run to what the job says. -/
def Job.Ready (o : OperandRegs) (map : Ram 32) (m : Memory) (j : Job) : Prop :=
  (∀ op ∈ j.track.next :: j.track.ops, op.keepsMap)
  ∧ ∃ c d, Work.Runs o j.rd j.wr c (j.track.next :: j.track.ops) d ∧ c.vars = ⟨j.track.latch, j.track.regs, map⟩
    ∧ (∀ a, j.rd a ∨ j.wr a → c.mem.read a = m.read a) ∧ ∀ a, j.wr a → d.mem.read a = j.final a

/-- Neither job writes where the other reads or writes. -/
def Job.Apart (j k : Job) : Prop := ∀ a, ¬(j.wr a ∧ (k.rd a ∨ k.wr a)) ∧ ¬(k.wr a ∧ (j.rd a ∨ j.wr a))

theorem Job.Apart.symm {j k : Job} (h : j.Apart k) : k.Apart j := fun a => (h a).symm

/-- A job's readiness is not touched by a write to another's bytes. -/
theorem Job.Ready.congr {o : OperandRegs} {map : Ram 32} {m m' : Memory} {j : Job} (h : j.Ready o map m)
    (hm : ∀ a, j.rd a ∨ j.wr a → m'.read a = m.read a) : j.Ready o map m' := by
  obtain ⟨hk, c, d, h1, h2, h3, h4⟩ := h
  exact ⟨hk, c, d, h1, h2, fun a ha => (h3 a ha).trans (hm a ha).symm, h4⟩

/-- THE ORDER OF THE TRACKS DOES NOT SHOW (R156 b, R444). A phase whose jobs keep to bytes of their own ends, whatever the
choices are, with every job's bytes as the job leaves them by itself and every other byte as before. -/
theorem phase_run {f : InFlight} {ps : List Phase} (hc : isImage f.cmd = true) (ht : f.tainted = []) (N : Nat) :
    ∀ (js : List Job) (s : State), s.remaining ≤ N →
      s.inflight = some { f with todo := (Phase.of? (js.map Job.track)).toList ++ ps } →
      (∀ j ∈ js, j.Ready f.snap s.win.map s.mem) → js.Pairwise Job.Apart →
      (∀ j ∈ js, ∀ a, j.rd a ∨ j.wr a → s.plat.memOk a = true) →
      Reaches s (fun t => s.At f ps t ∧ t.win = s.win ∧ (∀ j ∈ js, ∀ a, j.wr a → t.mem.read a = j.final a)
        ∧ ∀ a, (∀ j ∈ js, ¬j.wr a) → t.mem.read a = s.mem.read a) := by
  induction N with
  | zero => intro js s hN hs; simp [State.remaining, hs] at hN
  | succ N ih =>
    intro js s hN hs hready hapart hok
    cases js with
    | nil =>
      refine .refl ⟨?_, rfl, by simp, fun a _ => rfl⟩
      unfold State.At
      rw [← show s.inflight = some { f with todo := ps } from hs]
    | cons j0 js0 =>
      let f' : InFlight := { f with todo := (Phase.of? ((j0 :: js0).map Job.track)).toList ++ ps }
      obtain ⟨k, hk⟩ : ∃ k, k = (s.choose (js0.map Job.track).length).1 := ⟨_, rfl⟩
      obtain ⟨o, -, -, ho⟩ := choose_order (js0.map Job.track).length s
      obtain ⟨j, jo, hj⟩ : ∃ j jo, pick k j0 js0 = (j, jo) := ⟨_, _, rfl⟩
      have hperm : (j :: jo).Perm (j0 :: js0) := by have := pick_perm k j0 js0; rwa [hj] at this
      have hmem : ∀ x, x ∈ j0 :: js0 ↔ x ∈ j :: jo := fun x => hperm.mem_iff.symm
      have hpw : (j :: jo).Pairwise Job.Apart := hperm.symm.pairwise hapart (fun h => Job.Apart.symm h)
      obtain ⟨hjap, hjo⟩ := List.pairwise_cons.1 hpw
      obtain ⟨hkeep, c, d, hrun, hcv, hcm, hfin⟩ := hready j ((hmem j).2 List.mem_cons_self)
      have hokj := hok j ((hmem j).2 List.mem_cons_self)
      let s1 : State := { s with order := o }
      have hv : f'.vars j.track s1 = c.vars := by
        rw [hcv]; show Vars.mk j.track.latch (if isImage f.cmd then _ else _) s.win.map = _
        rw [hc]; rfl
      obtain ⟨hacc, hrest⟩ : (j.track.next.access c.vars).within j.rd j.wr ∧ Work.Runs f.snap j.rd j.wr
          (c.step f.snap j.track.next) (j.track.next.follow f.snap (c.byte j.track.next) c.vars ++ j.track.ops) d := by
        cases hrun with | step h hr => exact ⟨h, hr⟩
      have hstep := trackStep_clean (f := f') (t := j.track) (us := jo.map Job.track) (ps := ps) (s := s1) hs ht hv
        (fun a ha => hcm a (.inl ha)) hokj hacc
      let b := c.byte j.track.next
      let m' := Work.stored ⟨s.mem, c.vars⟩ j.track.next
      let s2 : State := { s1 with mem := m' }
      have he : engineStep s = stepped f' j.track (jo.map Job.track) ps b s2 := by
        have hp : pick k j0.track (js0.map Job.track) = (j.track, jo.map Job.track) := by rw [pick_map, hj]
        rw [engineStep_pick (f := f') (p := ⟨j0.track, js0.map Job.track⟩) (ps := ps) hs rfl (Prod.ext hk.symm ho) hp, hstep]
      -- memory moves only at a byte of job `j`
      have hm' : ∀ a, ¬j.wr a → m'.read a = s.mem.read a := by
        intro a ha
        show (Work.stored ⟨s.mem, c.vars⟩ j.track.next).read a = _
        unfold Work.stored
        split
        · next x v hx => rw [hx] at hacc; exact Memory.read_write_of_ne _ _ (fun h => ha (h ▸ hacc))
        all_goals rfl
      have hcm' : ∀ a, j.rd a ∨ j.wr a → (c.step f.snap j.track.next).mem.read a = m'.read a := by
        intro a ha
        show (Work.stored c j.track.next).read a = (Work.stored ⟨s.mem, c.vars⟩ j.track.next).read a
        unfold Work.stored
        cases j.track.next.access c.vars with
        | write x v => simp only [Memory.read_write, hcm a ha]
        | none => exact hcm a ha
        | read x => exact hcm a ha
      have hmap : (j.track.next.update f.snap b c.vars).map = s.win.map := by
        rw [hkeep _ List.mem_cons_self, hcv]
      have hwin : (stepped f' j.track (jo.map Job.track) ps b s2).win = s.win := by
        show (⟨if isImage f.cmd then s.win.toLineRegs else _, (j.track.next.update f.snap b (f'.vars j.track s1)).map⟩
          : Window) = s.win
        rw [hv, hmap, hc]; rfl
      have hready' : ∀ x ∈ jo, x.Ready f.snap s.win.map m' := fun x hx =>
        (hready x ((hmem x).2 (List.mem_cons_of_mem j hx))).congr
          (fun a ha => hm' a (fun hw => (hjap x hx a).1 ⟨hw, ha⟩))
      have hat : ∀ u, (stepped f' j.track (jo.map Job.track) ps b s2).At f ps u → s.At f ps u := by
        intro u h1
        unfold State.At at h1 ⊢
        rw [h1]
        rfl
      have hlt := engineStep_remaining s (by rw [he]; simp)
      rw [he] at hlt
      apply Reaches.step
      rw [he]
      cases hnext : j.track.next.follow f.snap b c.vars ++ j.track.ops with
      | nil =>
        -- the track is done
        have hd : d = c.step f.snap j.track.next := by
          rw [show c.byte j.track.next = b from rfl, hnext] at hrest
          cases hrest; rfl
        refine (ih jo (stepped f' j.track (jo.map Job.track) ps b s2) (by omega) ?_ (by rw [hwin]; exact hready') hjo
          (fun x hx => hok x ((hmem x).2 (List.mem_cons_of_mem j hx)))).imp ?_
        · rw [stepped_inflight]
          rw [after_eq f' j.track (s := s2) hv, show f'.snap = f.snap from rfl, hnext]
          rfl
        · rintro u ⟨h1, h2, h3, h4⟩
          refine ⟨hat u h1, h2.trans hwin, fun x hx a ha => ?_, fun a ha => ?_⟩
          · rcases List.mem_cons.1 ((hmem x).1 hx) with rfl | hx'
            · rw [h4 a (fun y hy hw => (hjap y hy a).1 ⟨ha, .inr hw⟩), ← hfin a ha, hd]
              exact (hcm' a (.inr ha)).symm
            · exact h3 x hx' a ha
          · rw [h4 a (fun y hy => ha y ((hmem y).2 (List.mem_cons_of_mem j hy)))]
            exact hm' a (ha j ((hmem j).2 List.mem_cons_self))
      | cons op ops =>
        -- the track goes on
        let t' : Track := ⟨op, ops, (j.track.next.update f.snap b c.vars).latch, (j.track.next.update f.snap b c.vars).regs⟩
        let j' : Job := { j with track := t' }
        have hj' : j'.Ready f.snap s.win.map m' := by
          refine ⟨fun x hx => ?_, c.step f.snap j.track.next, d, ?_, ?_, hcm', hfin⟩
          · rw [show j'.track.next :: j'.track.ops = op :: ops from rfl, ← hnext] at hx
            rcases List.mem_append.1 hx with hx | hx
            · exact MicroOp.keepsMap_follow _ _ _ _ x hx
            · exact hkeep x (List.mem_cons_of_mem _ hx)
          · rw [show c.byte j.track.next = b from rfl, hnext] at hrest
            exact hrest
          · show j.track.next.update f.snap b c.vars = _
            rw [← hmap]
        refine (ih (j' :: jo) (stepped f' j.track (jo.map Job.track) ps b s2) (by omega) ?_ ?_ ?_ ?_).imp ?_
        · rw [stepped_inflight]
          rw [after_eq f' j.track (s := s2) hv, show f'.snap = f.snap from rfl, hnext]
          rfl
        · rw [hwin]
          intro x hx
          rcases List.mem_cons.1 hx with rfl | hx
          · exact hj'
          · exact hready' x hx
        · exact List.pairwise_cons.2 ⟨hjap, hjo⟩
        · intro x hx
          rcases List.mem_cons.1 hx with rfl | hx
          · exact hokj
          · exact hok x ((hmem x).2 (List.mem_cons_of_mem j hx))
        · rintro u ⟨h1, h2, h3, h4⟩
          refine ⟨hat u h1, h2.trans hwin, fun x hx a ha => ?_, fun a ha => ?_⟩
          · rcases List.mem_cons.1 ((hmem x).1 hx) with rfl | hx'
            · exact h3 j' List.mem_cons_self a ha
            · exact h3 x (List.mem_cons_of_mem j' hx') a ha
          · have hja := ha j ((hmem j).2 List.mem_cons_self)
            rw [h4 a (fun y hy => ?_)]
            · exact hm' a hja
            · rcases List.mem_cons.1 hy with rfl | hy
              · exact hja
              · exact ha y ((hmem y).2 (List.mem_cons_of_mem j hy))

end Sys2Proof.Machine
end

