-- ==== Sys2Proof/Laws/Progress.lean ====
section
/-! SUPPORT. What any run of the engine keeps, clean or not, finished or not: which fields it can change, which bytes, and which
cache marks of the host (R155, R160, R404, R431). -/

namespace Sys2Proof.Machine

/-- From `s` the engine has come to `t`, where the command in flight may write the bytes `W` and no others. -/
structure Progress (W : List Nat) (s t : State) : Prop where
  frame : t = { s with
    flags := t.flags, errAddr := t.errAddr, win := t.win, inflight := t.inflight, mem := t.mem, hostOver := t.hostOver
    hostStale := t.hostStale, order := t.order, draws := t.draws }
  lost : t.flags.lost = s.flags.lost
  order : t.order <:+ s.order
  draws : s.draws ≤ t.draws
  mem : ∀ a, a ∉ W → t.mem.read a = s.mem.read a
  overKept : ∀ a ∈ s.hostOver, a ∈ t.hostOver
  overNew : ∀ a ∈ t.hostOver, a ∈ s.hostOver ∨ (s.plat.coherent = false ∧ a ∈ W)
  overIdle : t.inflight.isSome = true → t.hostOver = s.hostOver
  running : ∀ f, t.inflight = some f → f.foot.writes = W ∧ ∀ a ∈ f.stores, a ∈ W

theorem Progress.refl {W : List Nat} {s : State} (h : ∀ f, s.inflight = some f → f.foot.writes = W ∧ ∀ a ∈ f.stores, a ∈ W) :
    Progress W s s :=
  ⟨rfl, rfl, List.suffix_rfl, le_rfl, fun _ _ => rfl, fun _ h => h, fun _ h => .inl h, fun _ => rfl, h⟩

theorem scrambleBytes_draws (as : List Nat) (s : State) : (scrambleBytes as s).draws = s.draws + as.length := by
  rw [scrambleBytes_frame]

theorem release_draws_le (f : InFlight) (s : State) : s.draws ≤ (release f s).draws := by
  unfold release
  simp only
  split
  · exact le_rfl
  · simp [scrambleBytes_draws]

theorem releaseUnspecified_draws_le (f : InFlight) (s : State) : s.draws ≤ (releaseUnspecified f s).draws := by
  refine le_trans ?_ (release_draws_le _ _)
  simp [scrambleBytes_draws]

/-- Everything completion changes. -/
theorem complete_frame (f : InFlight) (s : State) :
    complete f s = { s with
      flags := s.flags.completed, win := (complete f s).win, inflight := none, mem := (complete f s).mem
      hostOver := (complete f s).hostOver, hostStale := (complete f s).hostStale, draws := (complete f s).draws } := by
  have h := release_frame f s
  unfold complete
  simp only
  generalize release f s = u at h
  rw [h]
  split <;> rfl

theorem complete_draws_le (f : InFlight) (s : State) : s.draws ≤ (complete f s).draws := by
  unfold complete
  simp only
  split
  · exact le_trans (release_draws_le f s) (by simp)
  · exact release_draws_le f s

/-- Everything E_BUSERR changes (R431, R433, R251, R75). -/
theorem busError_frame (f : InFlight) (a : Nat) (s : State) :
    busError f a s = { s with
      flags := s.flags.failed .busErr, errAddr := BitVec.ofNat 32 a, win := (busError f a s).win, inflight := none
      mem := (busError f a s).mem, hostOver := (busError f a s).hostOver, hostStale := (busError f a s).hostStale
      draws := (busError f a s).draws } := by
  unfold busError
  split
  · have h := releaseUnspecified_frame f s
    unfold imageBusError
    generalize releaseUnspecified f s = u at h
    rw [h]; rfl
  · have h := release_frame f s
    unfold lineBusError
    generalize release f s = u at h
    rw [h]
    have h2 := scrambleSlots_frame f.slots (scrambleRegs
      { s with inflight := none, mem := u.mem, draws := u.draws, hostOver := u.hostOver, hostStale := u.hostStale })
    generalize scrambleSlots f.slots (scrambleRegs
      { s with inflight := none, mem := u.mem, draws := u.draws, hostOver := u.hostOver, hostStale := u.hostStale }) = v at h2
    rw [h2]; rfl

/-- The bytes the host's lines are behind on after E_BUSERR: a line command leaves those it had written, a whole-image command
all of its write footprint. -/
theorem busError_hostOver (f : InFlight) (a : Nat) (s : State) :
    (busError f a s).hostOver = if s.plat.coherent then s.hostOver
      else (if isImage f.cmd then f.foot.writes else f.written).union s.hostOver := by
  unfold busError
  split
  · simp [imageBusError]
  · simp [lineBusError]

theorem busError_hostStale (f : InFlight) (a : Nat) (s : State) :
    (busError f a s).hostStale
      = if s.plat.coherent then s.hostStale else (f.foot.writes.map s.plat.cacheLine).union s.hostStale := by
  unfold busError
  split
  · simp [imageBusError]
  · simp [lineBusError]

theorem mem_written {f : InFlight} {a : Nat} : a ∈ f.written ↔ a ∈ f.foot.writes ∧ a ∉ f.stores := by
  simp [InFlight.written]

/-- A mark of the host's kept by the end of a command, and a new one. -/
theorem mem_over {c : Bool} {W old : List Nat} {a : Nat} :
    a ∈ (if c then old else W.union old) ↔ a ∈ old ∨ (c = false ∧ a ∈ W) := by
  cases c with
  | true => simp
  | false => exact (List.mem_union_iff (l₁ := W)).trans (by simp [or_comm])

theorem busError_draws_le (f : InFlight) (a : Nat) (s : State) : s.draws ≤ (busError f a s).draws := by
  unfold busError
  split
  · exact le_trans (releaseUnspecified_draws_le f s) (by simp [imageBusError])
  · refine le_trans (release_draws_le f s) ?_
    unfold lineBusError
    rw [scrambleSlots_frame]
    simp only [raiseError_draws, scrambleRegs_draws]
    omega

theorem busError_read_of_not_mem (f : InFlight) (a : Nat) (s : State) (b : Nat) (h : b ∉ f.foot.writes) :
    (busError f a s).mem.read b = s.mem.read b := by
  unfold busError
  split
  · simpa [imageBusError] using releaseUnspecified_read_of_not_mem f s b h
  · simpa [lineBusError] using release_read_of_not_mem f s b h

/-- The steps left after a step of the picked track store where those before it may. -/
theorem mem_stores_stepped {f : InFlight} {p : Phase} {ps : List Phase} {k : Nat} {t : Track} {us : List Track}
    (ht : f.todo = p :: ps) (hk : pick k p.head p.others = (t, us)) (b : Byte) (s : State) :
    (∀ a ∈ t.stores, a ∈ f.stores)
    ∧ ∀ a ∈ ((Phase.of? ((t.after f b s).toList ++ us)).toList ++ ps).flatMap Phase.stores, a ∈ f.stores := by
  have hperm := pick_perm k p.head p.others
  rw [hk] at hperm
  have hin : ∀ x ∈ t :: us, ∀ a ∈ x.stores, a ∈ f.stores := by
    intro x hx a ha
    rw [InFlight.stores, ht, List.flatMap_cons, List.mem_append]
    exact .inl (List.mem_flatMap.2 ⟨x, hperm.mem_iff.1 hx, ha⟩)
  refine ⟨hin t List.mem_cons_self, fun a ha => ?_⟩
  rw [List.flatMap_append, List.mem_append, mem_stores_phase, List.flatMap_append, List.mem_append] at ha
  rcases ha with (ha | ha) | ha
  · exact hin t List.mem_cons_self a (mem_stores_after ha)
  · obtain ⟨x, hx, hax⟩ := List.mem_flatMap.1 ha
    exact hin x (List.mem_cons_of_mem t hx) a hax
  · rw [InFlight.stores, ht, List.flatMap_cons, List.mem_append]
    exact .inr ha

/-- Every engine step is progress. -/
theorem Progress.engineStep {W : List Nat} {s t : State} (h : Progress W s t) : Progress W s (engineStep t) := by
  rcases engineStep_cases t with ⟨-, he⟩ | ⟨f, hf, -, he⟩
    | ⟨f, p, ps, k, tr, us, o, hf, ht, hk, ho, -, ⟨u, hu, he⟩ | ⟨a, -, he⟩⟩
  · rw [he]; exact h
  · rw [he]
    obtain ⟨hW, -⟩ := h.running f hf
    have hr : ∀ a, a ∉ W → (complete f t).mem.read a = t.mem.read a := fun a ha =>
      complete_read_of_not_mem f t a (by rw [hW]; exact ha)
    have hd := complete_draws_le f t
    have hfr := complete_frame f t
    have ho := complete_hostOver f t
    generalize complete f t = v at hr hd hfr ho
    have hov : ∀ a, a ∈ v.hostOver ↔ a ∈ t.hostOver ∨ (t.plat.coherent = false ∧ a ∈ f.written) := by
      rw [ho]; exact fun a => mem_over
    refine ⟨?_, ?_, ?_, h.draws.trans hd, fun a ha => (hr a ha).trans (h.mem a ha), ?_, ?_, ?_, ?_⟩
    · rw [hfr, h.frame]
    · rw [hfr]; exact h.lost
    · rw [hfr]; exact h.order
    · exact fun a ha => (hov a).2 (.inl (h.overKept a ha))
    · intro a ha
      rcases (hov a).1 ha with ha | ⟨hc, ha⟩
      · exact h.overNew a ha
      · exact .inr ⟨by rw [← hc, h.frame], hW ▸ (mem_written.1 ha).1⟩
    · rw [hfr]; simp
    · rw [hfr]; simp
  · rw [he]
    obtain ⟨hW, hst⟩ := h.running f hf
    obtain ⟨hin, hafter⟩ := mem_stores_stepped (f := f) ht hk 0 t
    -- what a step leaves, whatever the byte it read
    have key : ∀ b (s1 : State), s1 = { t with order := o, mem := s1.mem, draws := s1.draws } →
        t.draws ≤ s1.draws → (∀ a, a ∉ W → s1.mem.read a = t.mem.read a) → Progress W s (stepped f tr us ps b s1) := by
      intro b s1 h1 hd hm
      have ho1 : s1.hostOver = t.hostOver := by rw [h1]
      refine ⟨?_, ?_, ?_, h.draws.trans hd, fun a ha => (hm a ha).trans (h.mem a ha), ?_, ?_, fun _ => ?_, fun g hg => ?_⟩
      · unfold stepped; rw [h1, h.frame]
      · rw [stepped_flags, h1]; exact h.lost
      · rw [stepped_order, h1]; exact ho.trans h.order
      · rw [stepped_hostOver, ho1]; exact h.overKept
      · rw [stepped_hostOver, ho1]; exact h.overNew
      · rw [stepped_hostOver, ho1]; exact h.overIdle (by rw [hf]; rfl)
      · rw [stepped_inflight] at hg
        cases hg
        exact ⟨hW, fun a ha => hst a ((mem_stores_stepped ht hk b s1).2 a ha)⟩
    rcases trackStep_ok hu with ⟨-, rfl⟩ | ⟨a, b, s1, -, hr, rfl⟩ | ⟨a, v, s1, hacc, hw, rfl⟩
    · exact key _ _ rfl le_rfl (fun _ _ => rfl)
    · rcases (engineRead_ok hr).2 with ⟨rfl, -⟩ | ⟨-, rfl⟩
      · exact key _ _ rfl le_rfl (fun _ _ => rfl)
      · exact key _ _ rfl (by simp) (fun _ _ => rfl)
    · obtain ⟨-, rfl⟩ := engineWrite_ok hw
      have haW : a ∈ W := by
        refine hst a (hin a ?_)
        rw [Track.stores, List.flatMap_cons, List.mem_append]
        exact .inl (MicroOp.stores_target (MicroOp.access_write hacc))
      exact key _ _ rfl le_rfl (fun b hb => Memory.read_write_of_ne _ _ (fun he => hb (he ▸ haW)))
  · rw [he]
    obtain ⟨hW, -⟩ := h.running f hf
    have hr : ∀ b, b ∉ W → (busError f a { t with order := o }).mem.read b = t.mem.read b := fun b hb =>
      busError_read_of_not_mem f a { t with order := o } b (by rw [hW]; exact hb)
    have hd := busError_draws_le f a { t with order := o }
    have hfr := busError_frame f a { t with order := o }
    have hov := busError_hostOver f a { t with order := o }
    generalize busError f a { t with order := o } = v at hr hd hfr hov
    have hov : ∀ b, b ∈ v.hostOver ↔ b ∈ t.hostOver ∨ (t.plat.coherent = false
        ∧ b ∈ if isImage f.cmd then f.foot.writes else f.written) := by
      rw [hov]; exact fun b => mem_over
    refine ⟨?_, ?_, ?_, h.draws.trans hd, fun b hb => (hr b hb).trans (h.mem b hb), ?_, ?_, ?_, ?_⟩
    · rw [hfr, h.frame]
    · rw [hfr]; exact h.lost
    · rw [hfr]; exact ho.trans h.order
    · exact fun b hb => (hov b).2 (.inl (h.overKept b hb))
    · intro b hb
      rcases (hov b).1 hb with hb | ⟨hc, hb⟩
      · exact h.overNew b hb
      · refine .inr ⟨by rw [← hc, h.frame], hW ▸ ?_⟩
        split at hb
        · exact hb
        · exact (mem_written.1 hb).1
    · rw [hfr]; simp
    · rw [hfr]; simp

/-- Every run is progress. -/
theorem Progress.engineRun {W : List Nat} {s t : State} (h : Progress W s t) (n : Nat) : Progress W s (engineRun n t) :=
  engineRun_induction (P := Progress W s) (fun _ => Progress.engineStep) n t h

end Sys2Proof.Machine
end

