-- ==== Sys2Proof/Laws/Drawn.lean ====
section
/-! SUPPORT. What became unspecified holds drawn values: bytes, WSTORE entries, the window, and what the end of a command leaves
(R75, R155, R251, R431). -/

namespace Sys2Proof.Machine

/-- A drawn value stays one when more are drawn. -/
theorem Drawn.mono {w : Nat} {s u t : State} {v : BitVec w} (h : Drawn s u v) (hd : u.draws ≤ t.draws) : Drawn s t v := by
  obtain ⟨n, h1, h2, h3⟩ := h
  exact ⟨n, h1, by omega, h3⟩

theorem scrambleBytes_drawn (as : List Nat) {s u : State} (hd : s.draws ≤ u.draws) {a : Nat} (ha : a ∈ as) :
    Drawn s (scrambleBytes as u) ((scrambleBytes as u).mem.read a) := by
  induction as generalizing u with
  | nil => exact absurd ha List.not_mem_nil
  | cons b as ih =>
    rw [scrambleBytes]
    by_cases h : a ∈ as
    · exact ih (Nat.le_succ_of_le hd) h
    · obtain rfl : a = b := by simpa [h] using ha
      refine ⟨u.draws, hd, ?_, ?_⟩
      · rw [scrambleBytes_draws]
        exact Nat.lt_of_lt_of_le (Nat.lt_succ_self _) (Nat.le_add_right _ _)
      · rw [scrambleBytes_read_of_not_mem _ _ _ h]
        exact Memory.read_write_self _ _ _

theorem scrambleSlots_drawn (ks : List Nat) {s u : State} (hd : s.draws ≤ u.draws) {k : Nat} (hk : k ∈ ks) :
    Drawn s (scrambleSlots ks u) ((scrambleSlots ks u).win.wstore.get k) := by
  induction ks generalizing u with
  | nil => exact absurd hk List.not_mem_nil
  | cons j ks ih =>
    rw [scrambleSlots]
    by_cases h : k ∈ ks
    · exact ih (Nat.le_succ_of_le hd) h
    · obtain rfl : k = j := by simpa [h] using hk
      refine ⟨u.draws, hd, ?_, ?_⟩
      · rw [scrambleSlots_frame]
        exact Nat.lt_of_lt_of_le (Nat.lt_succ_self _) (Nat.le_add_right _ _)
      · rw [scrambleSlots_get_of_not_mem _ _ _ h]
        exact Ram.get_set_self _ _ _

theorem scrambleWindow_drawn {s u : State} (hd : s.draws ≤ u.draws) : WindowDrawn s (scrambleWindow u) := by
  refine ⟨⟨⟨u.draws, ?_⟩, ⟨u.draws + 1, ?_⟩, ⟨u.draws + 2, ?_⟩, ⟨u.draws + 3, ?_⟩, ⟨u.draws + 4, ?_⟩⟩, ⟨u.draws + 5, ?_⟩,
    ⟨u.draws + 6, ?_⟩⟩ <;> simp [scrambleWindow, scrambleRegs, scrambleRams, Ram.get]
  all_goals omega

/-- A command that ends after the host wrote one of its bytes leaves its write footprint unspecified (R155 b). -/
theorem release_drawn {f : InFlight} {s u : State} (hd : s.draws ≤ u.draws) (ht : f.tainted ≠ []) {b : Nat}
    (hb : b ∈ f.foot.writes) : Drawn s (release f u) ((release f u).mem.read b) := by
  have : f.tainted.isEmpty = false := by
    cases h : f.tainted with
    | nil => exact absurd h ht
    | cons => rfl
  unfold release
  simp only [this, Bool.false_eq_true, if_false]
  exact scrambleBytes_drawn f.foot.writes hd hb

theorem releaseUnspecified_drawn {f : InFlight} {s u : State} (hd : s.draws ≤ u.draws) {b : Nat} (hb : b ∈ f.foot.writes) :
    Drawn s (releaseUnspecified f u) ((releaseUnspecified f u).mem.read b) := by
  unfold releaseUnspecified
  rw [release_untainted _ _ rfl]
  exact scrambleBytes_drawn f.foot.writes hd hb

end Sys2Proof.Machine
end

