-- ==== Sys2Proof/Laws/Plan.lean ====
section
/-! SUPPORT. The plan of every command beside the terms of Safety.lean: its acceptance check is `expectedError`, its footprint
is `footprintOf`, what `exec` does busy and idle, an undisturbed command whose phases run clean completes with what they leave
(`exec_clean`), and a line command ends at the first access that does not answer (`exec_line_error`). -/

namespace Sys2Proof.Machine

/-- The plan each meaning issues. -/
def planOf (i : Instr) (o : OperandRegs) (w : Window) (p : Platform) : Plan :=
  match i with
  | .nop => ⟨none, ⟨[], []⟩, [], []⟩
  | .mapgen => planMapgen o w p
  | .winitT => planWinit .T o w p
  | .winitU => planWinit .U o w p
  | .slideT => planSlideT o w p
  | .slideU => planSlideU o w p
  | .blurT => planBlur .T o w p
  | .blurU => planBlur .U o w p
  | .grey => planGrey o w p
  | .diffthr => planDiffthr o w p
  | .unsharp => planUnsharp o w p

/-- Every meaning but NOP's is the issue of its plan. -/
theorem exec_eq_issue (i : Instr) (s : State) (h : i ≠ .nop) : exec i s = issue i (planOf i s.ops s.win s.plat) s := by
  cases i <;> first | exact absurd rfl h | rfl

/-- The footprint of a plan is that of R165. -/
theorem planOf_foot (i : Instr) (o : OperandRegs) (w : Window) (p : Platform) : (planOf i o w p).foot = footprintOf i o w := by
  cases i <;> rfl

theorem badLineDim_iff (o : OperandRegs) (p : Platform) :
    badLineDim o p = true ↔ o.lineLen.toNat = 0 ∨ p.maxLine < o.lineLen.toNat ∨ o.lineStride.toNat = 0 := by
  simp only [badLineDim, Bool.or_eq_true, decide_eq_true_eq, beq_iff_eq, or_assoc]
  rfl

theorem badImageDim_iff (o : OperandRegs) (p : Platform) :
    badImageDim o p = true ↔
      o.width.toNat = 0 ∨ o.height.toNat = 0 ∨ p.maxLine < o.width.toNat ∨ p.maxLine < o.height.toNat := by
  simp only [badImageDim, Bool.or_eq_true, decide_eq_true_eq, beq_iff_eq, or_assoc]

/-- A command with legal dimensions has at least one pixel. -/
theorem n_pos {o : OperandRegs} (hw : o.width.toNat ≠ 0) (hh : o.height.toNat ≠ 0) : 0 < o.width.toNat * o.height.toNat :=
  Nat.mul_pos (by omega) (by omega)

/-- The checks a plan runs are those of R432. -/
theorem planOf_check (i : Instr) (o : OperandRegs) (w : Window) (p : Platform) :
    (planOf i o w p).check = expectedError i o w p := by
  have image : ∀ (k src m out j : Nat), (0 < o.width.toNat * o.height.toNat → 0 < m ∧ 0 < j) →
      firstError [(badImageDim o p, ErrCode.dim), (badLen k o, .len),
        (pastTop (src + m - 1) || pastTop (out + j - 1), .range), (meets src m out j, .overlap)]
      = if o.width.toNat = 0 ∨ o.height.toNat = 0 ∨ p.maxLine < o.width.toNat ∨ p.maxLine < o.height.toNat then some .dim
        else if o.len.toNat ≠ k * (o.width.toNat * o.height.toNat) then some .len
        else if src + m - 1 > 0xFFFFFFFF ∨ out + j - 1 > 0xFFFFFFFF then some .range
        else if src < out + j ∧ out < src + m then some .overlap else none := by
    intro k src m out j hpos
    simp only [firstError, badImageDim_iff]
    split
    · rfl
    · next hd =>
      obtain ⟨hm, hj⟩ := hpos (n_pos (o := o) (by omega) (by omega))
      simp [badLen, OperandRegs.n, pastTop, meets, hm, hj]
  cases i with
  | nop => rfl
  | mapgen => simp only [planOf, planMapgen, firstError, badLineDim_iff, expectedError]
  | winitT | winitU =>
    simp only [planOf, planWinit, firstError, badLineDim_iff, pastTop, decide_eq_true_eq]
    rfl
  | slideT =>
    simp only [planOf, planSlideT, firstError, badLineDim_iff, pastTop, decide_eq_true_eq, Bool.or_eq_true, mappedAddrs,
      List.any_map, List.any_eq_true, List.mem_range, Function.comp_apply]
    rfl
  | slideU =>
    simp only [planOf, planSlideU, firstError, badLineDim_iff, pastTop, decide_eq_true_eq, Bool.or_eq_true]
    rfl
  | blurT =>
    refine (image 1 o.src o.n o.dst o.n (fun h => ⟨h, h⟩)).trans ?_
    simp only [expectedError, one_mul]; rfl
  | blurU =>
    refine (image 1 o.src o.n o.dst o.n (fun h => ⟨h, h⟩)).trans ?_
    simp only [expectedError, one_mul]; rfl
  | grey =>
    refine (image 4 o.src (4 * o.n) o.dst (1 * o.n) (fun h => ⟨by simp only [OperandRegs.n]; omega, by simp only [OperandRegs.n]; omega⟩)).trans ?_
    simp only [expectedError, one_mul]; rfl
  | diffthr =>
    exact image 4 o.src (4 * o.n) o.work (2 * o.n) (fun h => ⟨by simp only [OperandRegs.n]; omega, by simp only [OperandRegs.n]; omega⟩)
  | unsharp =>
    exact image 4 o.src (4 * o.n) o.work (2 * o.n) (fun h => ⟨by simp only [OperandRegs.n]; omega, by simp only [OperandRegs.n]; omega⟩)

/-! ## The steps of a program -/

theorem mem_lineAddrs {base L s a : Nat} : a ∈ lineAddrs base L s ↔ ∃ j < L, base + j * s = a := by
  simp [lineAddrs]
theorem mem_span {base n a : Nat} : a ∈ span base n ↔ ∃ q < n, base + q = a := by
  simp [span]
theorem mem_colourAddrs {base n a : Nat} : a ∈ colourAddrs base n ↔ ∃ q < n, ∃ c < 3, base + 4 * q + c = a := by
  simp only [colourAddrs, List.mem_flatMap, List.mem_range, List.mem_cons, List.not_mem_nil, or_false]
  constructor
  · rintro ⟨q, hq, h | h | h⟩
    · exact ⟨q, hq, 0, by omega, h.symm⟩
    · exact ⟨q, hq, 1, by omega, h.symm⟩
    · exact ⟨q, hq, 2, by omega, h.symm⟩
  · rintro ⟨q, hq, c, hc, rfl⟩
    have : c = 0 ∨ c = 1 ∨ c = 2 := by omega
    exact ⟨q, hq, by rcases this with rfl | rfl | rfl <;> simp⟩

theorem pixel_lt {w h x y : Nat} (hx : x < w) (hy : y < h) : y * w + x < w * h := by
  have : y * w + w ≤ h * w := by rw [← Nat.succ_mul]; exact Nat.mul_le_mul_right w hy
  rw [Nat.mul_comm w h]; omega

/-- A step that stays inside the RAMs and stores to `W` only. -/
def MicroOp.Legal (n : Nat) (W : List Nat) (op : MicroOp) : Prop := op.inRams n ∧ ∀ a ∈ op.stores, a ∈ W

/-- Every step of a list of lines is legal. -/
def LegalLines (n : Nat) (W : List Nat) (lines : List (List MicroOp)) : Prop := ∀ ops ∈ lines, ∀ op ∈ ops, op.Legal n W

theorem legal_mapSteps {n L s r : Nat} (W : List Nat) (hL : L ≤ n) : ∀ op ∈ mapSteps L s r, op.Legal n W := by
  intro op hop
  obtain ⟨i, hi, rfl⟩ := List.mem_map.1 hop
  exact ⟨lt_of_lt_of_le (List.mem_range.1 hi) hL, by simp [MicroOp.stores, MicroOp.target]⟩

theorem legal_winitSteps {n : Nat} {W : List Nat} (var : Variant) {base L s r : Nat} (hr : r < 256) :
    ∀ op ∈ winitSteps var base L s r, op.Legal n W := by
  intro op hop
  simp only [winitSteps, List.mem_append, List.mem_map, List.mem_cons, List.not_mem_nil, or_false] at hop
  rcases hop with (⟨j, -, rfl⟩ | ⟨j, hj, rfl⟩) | rfl | rfl | rfl | rfl | rfl <;>
    refine ⟨?_, by simp [MicroOp.stores, MicroOp.target]⟩ <;> try trivial
  have := List.mem_range.1 hj
  unfold diameter at this
  show j < 512
  omega

theorem legal_slideSteps {n : Nat} {W : List Nat} (var : Variant) {src dst L s r : Nat} (hr : r < 256)
    (hW : ∀ i < L, dst + i * s ∈ W) : ∀ op ∈ slideSteps var src dst L s r, op.Legal n W := by
  intro op hop
  obtain ⟨i, hi, h⟩ := List.mem_flatMap.1 hop
  have hi := hW i (List.mem_range.1 hi)
  cases var <;>
  · simp only [slideStep, List.mem_cons, List.not_mem_nil, or_false] at h
    rcases h with rfl | rfl | rfl | rfl | rfl | rfl | rfl | rfl | rfl | rfl | rfl <;>
      exact ⟨by trivial, by simp [MicroOp.stores, MicroOp.target, hi]⟩

theorem legal_lineSteps {n : Nat} {W : List Nat} (var : Variant) {base L s r : Nat} (hr : r < 256)
    (hW : ∀ i < L, base + i * s ∈ W) : ∀ op ∈ lineSteps var base L s r, op.Legal n W := fun op hop =>
  (List.mem_append.1 hop).elim (legal_winitSteps var hr op) (legal_slideSteps var hr hW op)

theorem legal_blurPhases {n : Nat} {W : List Nat} (var : Variant) {src dst w h r steps : Nat} (hr : r < 256) (hw : w ≤ n)
    (hh : h ≤ n) (hW : ∀ q < w * h, dst + q ∈ W) : ∀ lines ∈ blurPhases var src dst w h r steps, LegalLines n W lines := by
  intro lines hl
  have map : ∀ {L s}, L ≤ n → lines ∈ sweepMap var L s r → LegalLines n W lines := by
    intro L s hL hm ops hops
    cases var with
    | T =>
      rw [List.mem_singleton.1 hm] at hops
      rw [List.mem_singleton.1 hops]
      exact legal_mapSteps W hL
    | U => exact absurd hm List.not_mem_nil
  rcases List.mem_cons.1 hl with rfl | hl
  · intro ops hops op hop
    obtain ⟨q, hq, rfl⟩ := List.mem_map.1 hops
    simp only [List.mem_cons, List.not_mem_nil, or_false] at hop
    rcases hop with rfl | rfl
    · exact ⟨trivial, by simp [MicroOp.stores, MicroOp.target]⟩
    · exact ⟨trivial, by simpa [MicroOp.stores, MicroOp.target] using hW q (List.mem_range.1 hq)⟩
  · split at hl
    · exact absurd hl List.not_mem_nil
    · obtain ⟨ph, hph, hl⟩ := List.mem_flatten.1 hl
      rw [(List.mem_replicate.1 hph).2] at hl
      rcases List.mem_append.1 hl with hl | hl <;> rcases List.mem_append.1 hl with hl | hl
      · exact map hw hl
      · rw [List.mem_singleton.1 hl]
        intro ops hops
        obtain ⟨y, hy, rfl⟩ := List.mem_map.1 hops
        refine legal_lineSteps var hr (fun i hi => ?_)
        have := hW (y * w + i) (pixel_lt hi (List.mem_range.1 hy))
        rwa [Nat.mul_one, Nat.add_assoc]
      · exact map hh hl
      · rw [List.mem_singleton.1 hl]
        intro ops hops
        obtain ⟨x, hx, rfl⟩ := List.mem_map.1 hops
        refine legal_lineSteps var hr (fun i hi => ?_)
        have := hW (i * w + x) (pixel_lt (List.mem_range.1 hx) hi)
        rwa [Nat.add_assoc, Nat.add_comm x]

theorem legal_greyLines {n : Nat} {W : List Nat} {src dst k : Nat} (hW : ∀ q < k, dst + q ∈ W) :
    LegalLines n W (greyLines src dst k) := by
  intro ops hops op hop
  obtain ⟨q, hq, rfl⟩ := List.mem_map.1 hops
  have := hW q (List.mem_range.1 hq)
  simp only [List.mem_cons, List.not_mem_nil, or_false] at hop
  rcases hop with rfl | rfl | rfl | rfl <;> exact ⟨trivial, by simp [MicroOp.stores, MicroOp.target, this]⟩

theorem legal_diffthrLines {n : Nat} {W : List Nat} {src work k : Nat} (hW : ∀ q < k, ∀ c < 3, src + 4 * q + c ∈ W) :
    LegalLines n W (diffthrLines src work k) := by
  intro ops hops op hop
  obtain ⟨q, hq, rfl⟩ := List.mem_map.1 hops
  have := hW q (List.mem_range.1 hq)
  simp only [List.mem_cons, List.not_mem_nil, or_false] at hop
  rcases hop with rfl | rfl
  · exact ⟨trivial, by simp [MicroOp.stores, MicroOp.target]⟩
  · exact ⟨trivial, by simpa [MicroOp.stores] using ⟨this 0 (by omega), this 1 (by omega), this 2 (by omega)⟩⟩

/-- The steps of a command that passes its checks stay inside the RAMs and store to its write footprint only, and that stays
inside the data space. -/
theorem planOf_legal (i : Instr) (o : OperandRegs) (w : Window) (p : Platform) (h : expectedError i o w p = none) :
    (∀ lines ∈ (planOf i o w p).prog, LegalLines p.maxLine (footprintOf i o w).writes lines)
    ∧ (∀ k ∈ (planOf i o w p).slots, k < 512) ∧ ∀ a ∈ (footprintOf i o w).writes, a < Config.spaceBytes := by
  have hr : o.r < 256 := o.radius.isLt
  have nil : ∀ k ∈ ([] : List Nat), k < 512 := by simp
  have nilw : ∀ k ∈ ([] : List Nat), k < Config.spaceBytes := by simp
  have top : ∀ {base L s j : Nat}, j < L → ¬(base + (L - 1) * s > 0xFFFFFFFF) → base + j * s < Config.spaceBytes := by
    intro base L s j hj hn
    have : j * s ≤ (L - 1) * s := Nat.mul_le_mul_right s (by omega)
    unfold Config.spaceBytes; omega
  have line : ∀ {base L s : Nat}, ¬(base + (L - 1) * s > 0xFFFFFFFF) → ∀ a ∈ lineAddrs base L s, a < Config.spaceBytes := by
    intro base L s hn a ha
    obtain ⟨j, hj, rfl⟩ := mem_lineAddrs.1 ha
    exact top hj hn
  have slots : ∀ {sp L : Nat}, ∀ k ∈ slideSlots sp o.r L, k < 512 := by
    intro sp L k hk
    obtain ⟨i, -, rfl⟩ := List.mem_map.1 hk
    have := Nat.mod_lt (sp + o.r + 1 + i) (show 0 < diameter o.r by unfold diameter; omega)
    unfold diameter at this ⊢
    omega
  have spanw : ∀ {base n : Nat}, ¬(base + n - 1 > 0xFFFFFFFF) → ∀ a ∈ span base n, a < Config.spaceBytes := by
    intro base n hn a ha
    obtain ⟨q, hq, rfl⟩ := mem_span.1 ha
    unfold Config.spaceBytes; omega
  have colw : ∀ {base n : Nat}, ¬(base + 4 * n - 1 > 0xFFFFFFFF) → ∀ a ∈ colourAddrs base n, a < Config.spaceBytes := by
    intro base n hn a ha
    obtain ⟨q, hq, c, hc, rfl⟩ := mem_colourAddrs.1 ha
    unfold Config.spaceBytes; omega
  have one : ∀ {W : List Nat} {ops : List MicroOp}, (∀ op ∈ ops, op.Legal p.maxLine W) →
      ∀ lines ∈ [[ops]], LegalLines p.maxLine W lines := by
    intro W ops h lines hl ops' hops'
    rw [List.mem_singleton.1 hl] at hops'
    rw [List.mem_singleton.1 hops']
    exact h
  have phase : ∀ {W : List Nat} {ls : List (List MicroOp)}, LegalLines p.maxLine W ls →
      ∀ lines ∈ [ls], LegalLines p.maxLine W lines := by
    intro W ls h lines hl
    rw [List.mem_singleton.1 hl]
    exact h
  cases i <;> simp only [expectedError, ite_eq_iff, reduceCtorEq, and_false, false_or, and_true, not_not] at h
  case nop => exact ⟨by simp [planOf], by simp [planOf], by simp [footprintOf]⟩
  case mapgen => exact ⟨one (legal_mapSteps _ (by unfold OperandRegs.lineL; omega)), nil, nilw⟩
  case winitT | winitU =>
    refine ⟨one (legal_winitSteps _ hr), ?_, nilw⟩
    intro k hk
    have := List.mem_range.1 hk
    unfold diameter at this
    omega
  case slideT | slideU =>
    exact ⟨one (legal_slideSteps _ hr (fun i hi => mem_lineAddrs.2 ⟨i, hi, rfl⟩)), slots, line (by omega)⟩
  case blurT | blurU =>
    exact ⟨legal_blurPhases _ hr (by omega) (by omega) (fun q hq => mem_span.2 ⟨q, hq, rfl⟩), nil, spanw (by omega)⟩
  case grey => exact ⟨phase (legal_greyLines (fun q hq => mem_span.2 ⟨q, hq, rfl⟩)), nil, spanw (by omega)⟩
  case diffthr =>
    exact ⟨phase (legal_diffthrLines (fun q hq c hc => mem_colourAddrs.2 ⟨q, hq, c, hc, rfl⟩)), nil, colw (by omega)⟩
  case unsharp =>
    refine ⟨fun lines hl => ?_, nil, fun a ha => (List.mem_append.1 ha).elim (colw (by omega) a) (spanw (by omega) a)⟩
    have hwork : ∀ q < 2 * (o.width.toNat * o.height.toNat), o.workAddr.toNat + q
        ∈ colourAddrs o.srcAddr.toNat (o.width.toNat * o.height.toNat)
          ++ span o.workAddr.toNat (2 * (o.width.toNat * o.height.toNat)) :=
      fun q hq => List.mem_append_right _ (mem_span.2 ⟨q, hq, rfl⟩)
    rcases List.mem_cons.1 hl with rfl | hl
    · exact legal_greyLines (fun q hq => hwork q (by omega))
    · rcases List.mem_append.1 hl with hl | hl
      · refine legal_blurPhases .T (by decide) (by omega) (by omega) (fun q hq => ?_) lines hl
        have := hwork (o.width.toNat * o.height.toNat + q) (by omega)
        rwa [← Nat.add_assoc] at this
      · rw [List.mem_singleton.1 hl]
        exact legal_diffthrLines (fun q hq c hc => List.mem_append_left _ (mem_colourAddrs.2 ⟨q, hq, c, hc, rfl⟩))

/-- What stands in the phases of a program: its lines, each with a copy of the window registers. -/
theorem mem_phasesOf {w : LineRegs} {prog : List (List (List MicroOp))} {p : Phase} {t : Track} (hp : p ∈ phasesOf w prog)
    (ht : t ∈ p.tracks) : t.regs = w ∧ t.latch = Latch.fresh ∧ ∃ lines ∈ prog, t.next :: t.ops ∈ lines := by
  obtain ⟨lines, hl, hpl⟩ := List.mem_filterMap.1 hp
  have : t ∈ lines.filterMap (Track.of? Latch.fresh w) := by
    cases hc : lines.filterMap (Track.of? Latch.fresh w) with
    | nil => rw [hc] at hpl; cases hpl
    | cons x xs => rw [hc] at hpl; cases hpl; exact ht
  obtain ⟨ops, ho, hto⟩ := List.mem_filterMap.1 this
  cases ops with
  | nil => cases hto
  | cons op ops => cases hto; exact ⟨rfl, rfl, lines, hl, ho⟩

/-! ## The clean run of a command -/

/-- The command in flight right after acceptance with nothing tainted. -/
def flightOf (i : Instr) (s : State) : InFlight :=
  { cmd := i, snap := s.ops, foot := s.footprint i, slots := (planOf i s.ops s.win s.plat).slots
    todo := phasesOf s.win.toLineRegs (planOf i s.ops s.win s.plat).prog, tainted := [] }

/-- The machine right after acceptance with nothing tainted. -/
def startOf (i : Instr) (s : State) : State := { accept (encode i) s with inflight := some (flightOf i s) }

/-- While BUSY = 1 every command is lost (R403). -/
theorem exec_busy (i : Instr) {s : State} (hb : s.busy = true) : exec i s = .next (advance (lostIssue s)) := by
  by_cases h : i = .nop
  · subst h
    exact if_pos hb
  · rw [exec_eq_issue i s h]
    exact if_pos hb

/-- What an idle engine can answer a command with, if it answers a next state: a precise error, or the run from its start. -/
theorem exec_idle {i : Instr} {s t : State} (hi : s.inflight = none) (hn : i ≠ .nop) (h : exec i s = .next t) :
    (∃ e, expectedError i s.ops s.win s.plat = some e ∧ t = raiseError e 0 (accept (encode i) s))
    ∨ (expectedError i s.ops s.win s.plat = none
      ∧ t = advance (start i (planOf i s.ops s.win s.plat) (accept (encode i) s))) := by
  rw [exec_eq_issue i s hn] at h
  rcases issue_cases i (planOf i s.ops s.win s.plat) s with h' | ⟨-, e, he, h'⟩ | ⟨-, -, -, h'⟩ | ⟨-, -, -, -, h'⟩
    | ⟨-, hc, -, -, h'⟩
  · simp [State.busy, hi] at h'
  · rw [h'] at h; cases h; exact .inl ⟨e, by rw [← planOf_check, he], rfl⟩
  · rw [h'] at h; cases h
  · rw [h'] at h; cases h
  · rw [h'] at h; cases h; exact .inr ⟨by rw [← planOf_check, hc], rfl⟩

/-- An undisturbed command past its checks, with a footprint outside the register window and in idempotent memory and no
unwritten host line over its reads, is the run from its start. -/
theorem exec_start (i : Instr) (s : State) (hi : i ≠ .nop) (hu : s.inflight = none)
    (hc : expectedError i s.ops s.win s.plat = none) (hf : Clear (s.footprint i) s) :
    exec i s = .next (advance (startOf i s)) := by
  have hfoot : (planOf i s.ops s.win s.plat).foot = s.footprint i := planOf_foot ..
  have hcheck : (planOf i s.ops s.win s.plat).check = none := by rw [planOf_check, hc]
  have hbusy : s.busy = false := by simp [State.busy, hu]
  rw [exec_eq_issue i s hi]
  have hissue : issue i (planOf i s.ops s.win s.plat) s
      = .next (advance (start i (planOf i s.ops s.win s.plat) (accept (encode i) s))) := by
    rcases issue_cases i (planOf i s.ops s.win s.plat) s with h | ⟨-, e, he, -⟩ | ⟨-, -, ⟨a, ha, hw⟩, -⟩
      | ⟨-, -, -, ⟨a, ha, hd⟩, -⟩ | h
    · simp [hbusy] at h
    · simp [hcheck] at he
    · have := (hf.1 a (by rwa [Footprint.all, hfoot] at ha)).1
      simp [this] at hw
    · have := (hf.1 a (by rwa [Footprint.all, hfoot] at ha)).2
      simp [this] at hd
    · exact h.2.2.2.2
  rw [hissue]
  congr 2
  have htaint : (if s.plat.coherent then [] else (s.footprint i).reads.filter s.dirtyLine) = [] := by
    rcases hf.2 with h | h
    · simp [h]
    · split
      · rfl
      · exact List.filter_eq_nil_iff.2 (fun a ha hd => by
          obtain ⟨b, hb, he⟩ := List.any_eq_true.1 hd
          exact h b hb a ha (beq_iff_eq.1 he).symm)
  show ({ accept (encode i) s with inflight := some { flightOf i s with
      foot := (planOf i s.ops s.win s.plat).foot
      tainted := if s.plat.coherent then [] else (planOf i s.ops s.win s.plat).foot.reads.filter s.dirtyLine } } : State) = _
  rw [hfoot, htaint]
  rfl

/-- Every run of a command that passed its checks writes its write footprint only. -/
theorem progress_of_start {i : Instr} {s u : State} {f : InFlight} (hc : expectedError i s.ops s.win s.plat = none)
    (hu : u.inflight = some f) (hw : f.foot = s.footprint i)
    (ht : f.todo = phasesOf s.win.toLineRegs (planOf i s.ops s.win s.plat).prog) (n : Nat) :
    Progress (s.footprint i).writes u (engineRun n u) := by
  refine (Progress.refl (fun g hg => ?_)).engineRun n
  obtain rfl : f = g := Option.some.inj (hu.symm.trans hg)
  refine ⟨by rw [hw], fun a ha => ?_⟩
  obtain ⟨p, hp, hap⟩ := List.mem_flatMap.1 ha
  rw [ht] at hp
  obtain ⟨t, ht, hat⟩ := List.mem_flatMap.1 hap
  obtain ⟨op, hop, haop⟩ := List.mem_flatMap.1 hat
  obtain ⟨-, -, lines, hl, hops⟩ := mem_phasesOf hp ht
  exact ((planOf_legal i s.ops s.win s.plat hc).1 lines hl _ hops op hop).2 a haop

/-- What a started command has done after `n` engine steps. -/
theorem startOf_progress {i : Instr} {s : State} (hc : expectedError i s.ops s.win s.plat = none) (n : Nat) :
    Progress (s.footprint i).writes (startOf i s) (engineRun n (startOf i s)) :=
  progress_of_start hc rfl rfl rfl n

/-- The same from any start, tainted or not, up to the host's next step. -/
theorem start_progress {i : Instr} {s : State} (hc : expectedError i s.ops s.win s.plat = none) :
    let u := start i (planOf i s.ops s.win s.plat) (accept (encode i) s)
    Progress (s.footprint i).writes u (advance u) := by
  intro u
  have key := fun n => progress_of_start (u := u) hc rfl (planOf_foot i s.ops s.win s.plat) rfl n
  unfold advance
  split <;> exact key _

/-- What the end of a command adds to its last step: completion (R404), with the window unspecified after a whole-image
command (R75). -/
structure EndsAs (i : Instr) (s u t : State) : Prop where
  completed : Completed (encode i) (s.footprint i).writes s t
  mem : t.mem = u.mem
  order : t.order = u.order
  line : isImage i = false → t.win = u.win ∧ t.draws = s.draws
  image : isImage i = true → t.win = (scrambleWindow s).win ∧ t.draws = (scrambleWindow s).draws

/-- THE CLEAN RUN OF A COMMAND. An undisturbed command past its checks whose phases lead, step by step, to a state with none
left completes with the memory and window of that state. -/
theorem exec_clean (i : Instr) (s : State) (hi : i ≠ .nop) (hu : Undisturbed s)
    (hc : expectedError i s.ops s.win s.plat = none) (hf : Clear (s.footprint i) s) {Q : State → Prop}
    (hr : Reaches (startOf i s) (fun u => (startOf i s).At (flightOf i s) [] u ∧ Q u)) :
    ∃ t u, exec i s = .next t ∧ Q u ∧ EndsAs i s u t := by
  obtain ⟨n, hat, hq⟩ := hr
  have hprog := startOf_progress hc n
  generalize hg : engineRun n (startOf i s) = u at hat hq hprog
  have hdone : engineStep u = complete { flightOf i s with todo := [] } u := by simp [engineStep, hat.inflight]
  have hlead : (startOf i s).lead = .untilDone := hu.2
  have hrun : engineRun (n + 1) (startOf i s) = complete { flightOf i s with todo := [] } u := by
    rw [engineRun_add, hg, engineRun_succ, hdone]; rfl
  refine ⟨complete { flightOf i s with todo := [] } u, u, ?_, hq, ?_⟩
  · rw [exec_start i s hi hu.1 hc hf, advance_eq hlead (n := n + 1) (by rw [hrun]; simp), hrun]
  · have hrel := release_untainted { flightOf i s with todo := [] } u rfl
    have hord : u.order <:+ s.order := hprog.order
    have hcomp : complete { flightOf i s with todo := [] } u = { s with
        cmd := encode i
        flags := { done := true, err := false, lost := s.flags.lost, code := .none }
        errAddr := 0
        mem := u.mem
        win := (if isImage i then scrambleWindow u else u).win
        draws := (if isImage i then scrambleWindow u else u).draws
        order := u.order
        hostOver := if s.plat.coherent then s.hostOver else (s.footprint i).writes.union s.hostOver
        hostStale := staleAfter (s.footprint i).writes s } := by
      unfold complete
      simp only [hrel]
      rw [hat]
      have hin : s.inflight = none := hu.1
      cases s
      cases hin
      cases hb : isImage i <;> simp [hb, startOf, flightOf, accept, Flags.accepted, Flags.completed, scrambleWindow,
        scrambleRegs, scrambleRams] <;> rfl
    have hdr : u.draws = s.draws := by rw [hat]; rfl
    rw [hcomp]
    refine ⟨⟨rfl, hord⟩, rfl, rfl, fun hb => ?_, fun hb => ?_⟩
    · simp [hb, hdr]
    · simp [hb, scrambleWindow, scrambleRegs, scrambleRams, hdr]

/-- A whole-image command that completes leaves the window unspecified (R75). -/
theorem EndsAs.windowDrawn {i : Instr} {s u t : State} (h : EndsAs i s u t) (hi : isImage i = true) : WindowDrawn s t := by
  obtain ⟨hw, hd⟩ := h.image hi
  simp only [WindowDrawn, RegsDrawn, Drawn, DrawnRam, hw, hd]
  exact scrambleWindow_drawn le_rfl

/-- A line command that passes its checks has a length and a stride. -/
theorem line_dims {i : Instr} {s : State} (h : expectedError i s.ops s.win s.plat = none)
    (hi : i ∈ [Instr.mapgen, .winitT, .winitU, .slideT, .slideU]) :
    0 < s.ops.lineLen.toNat ∧ 0 < s.ops.lineStride.toNat := by
  simp only [List.mem_cons, List.not_mem_nil, or_false] at hi
  have key : ¬(s.ops.lineLen.toNat = 0 ∨ s.plat.maxLine < s.ops.lineLen.toNat ∨ s.ops.lineStride.toNat = 0) := by
    intro hb
    rcases hi with rfl | rfl | rfl | rfl | rfl <;> simp [expectedError, hb] at h
  omega

/-- A whole-image command that passes its checks has a pixel. -/
theorem image_dims {i : Instr} {s : State} (h : expectedError i s.ops s.win s.plat = none) (hi : isImage i = true) :
    0 < s.ops.width.toNat ∧ 0 < s.ops.height.toNat := by
  have key : ¬(s.ops.width.toNat = 0 ∨ s.ops.height.toNat = 0 ∨ s.plat.maxLine < s.ops.width.toNat
      ∨ s.plat.maxLine < s.ops.height.toNat) := by
    intro hb
    cases i <;> first | (exfalso; revert hi; decide) | simp [expectedError, hb] at h
  omega

/-! ## The phases of a program -/

theorem phasesOf_append (w : LineRegs) (xs ys : List (List (List MicroOp))) :
    phasesOf w (xs ++ ys) = phasesOf w xs ++ phasesOf w ys := List.filterMap_append

theorem phasesOf_single (w : LineRegs) (ops : List MicroOp) : phasesOf w [[ops]] = singlePhase Latch.fresh w ops := by
  cases ops <;> rfl

/-- What a line command's steps start from. -/
def lineWork (s : State) : Work := ⟨s.mem, Latch.fresh, s.win.toLineRegs, s.win.map⟩

/-- THE CLEAN RUN OF A LINE COMMAND. It completes with what its steps leave by themselves, and draws and chooses nothing. -/
theorem exec_line {i : Instr} {s : State} {ops : List MicroOp} {rd wr : Nat → Prop} {d : Work} (hi : i ≠ .nop)
    (hl : isImage i = false) (hu : Undisturbed s) (hc : expectedError i s.ops s.win s.plat = none)
    (hf : Clear (s.footprint i) s) (hp : (planOf i s.ops s.win s.plat).prog = [[ops]])
    (hr : Work.Runs s.ops rd wr (lineWork s) ops d) (hok : ∀ a, rd a ∨ wr a → s.plat.memOk a = true) :
    ∃ t, exec i s = .next t ∧ Completed (encode i) (s.footprint i).writes s t ∧ t.mem = d.mem
      ∧ t.win = ⟨d.vars.regs, d.vars.map⟩ ∧ t.draws = s.draws ∧ t.order = s.order := by
  have hrun := single_run (f := flightOf i s) (ps := []) hr rfl (startOf i s)
    (by show some (flightOf i s) = some { flightOf i s with todo := singlePhase Latch.fresh s.win.toLineRegs ops ++ [] }
        rw [List.append_nil, ← phasesOf_single, ← hp]; rfl)
    rfl (by show s.win = windowOf i s.win.toLineRegs (lineWork s).vars; unfold windowOf; rw [hl]; rfl) hok
  obtain ⟨t, u, h1, ⟨q1, q2, q3⟩, h2⟩ := exec_clean i s hi hu hc hf
    (Q := fun u => u.mem = d.mem ∧ u.win = ⟨d.vars.regs, d.vars.map⟩ ∧ u.order = s.order)
    (hrun.imp (fun u h => ⟨h.1, h.2.1, by rw [h.2.2.1]; show windowOf i _ _ = _; unfold windowOf; rw [hl]; rfl, h.2.2.2⟩))
  obtain ⟨w1, w2⟩ := h2.line hl
  exact ⟨t, h1, h2.completed, h2.mem.trans q1, w1.trans q2, w2, h2.order.trans q3⟩

/-- THE BUS ERROR OF A LINE COMMAND. If its steps `xs` run and the access of the step after them does not answer, it ends with
E_BUSERR at that address, with what the steps left of memory, and the rest as R251 and R431 say. -/
theorem exec_line_error {i : Instr} {s : State} {xs ys : List MicroOp} {op : MicroOp} {a : Nat} {rd wr : Nat → Prop}
    {d : Work} (hi : i ≠ .nop) (hl : isImage i = false) (hu : Undisturbed s) (hc : expectedError i s.ops s.win s.plat = none)
    (hf : Clear (s.footprint i) s) (hp : (planOf i s.ops s.win s.plat).prog = [[xs ++ op :: ys]])
    (hr : Work.Runs s.ops rd wr (lineWork s) xs d) (hok : ∀ a, rd a ∨ wr a → s.plat.memOk a = true)
    (ha : op.access d.vars = .read a ∨ ∃ v, op.access d.vars = .write a v) (hbad : s.plat.memOk a = false) :
    ∃ t, exec i s = .next t
      ∧ BusErrored (encode i) (BitVec.ofNat 32 a) (s.footprint i).writes
          ((s.footprint i).writes.filter (fun b => !((op :: ys).flatMap MicroOp.stores).contains b)) s t
      ∧ t.mem = d.mem
      ∧ t.win.map = d.vars.map ∧ RegsDrawn s t ∧ (∀ k ∈ (planOf i s.ops s.win s.plat).slots, Drawn s t (t.win.wstore.get k))
      ∧ (∀ k, k ∉ (planOf i s.ops s.win s.plat).slots → t.win.wstore.get k = d.vars.regs.wstore.get k)
      ∧ t.order = s.order := by
  obtain ⟨n, h1, h2, h3, h4⟩ := prefix_run (f := flightOf i s) (ps := []) (op :: ys) hr rfl (startOf i s)
    (by show some (flightOf i s) = some { flightOf i s with todo := singlePhase Latch.fresh s.win.toLineRegs (xs ++ op :: ys) ++ [] }
        rw [List.append_nil, ← phasesOf_single, ← hp]; rfl)
    rfl (by show s.win = windowOf i s.win.toLineRegs (lineWork s).vars; unfold windowOf; rw [hl]; rfl) hok
  have hprog := startOf_progress hc n
  generalize hg : engineRun n (startOf i s) = u at h1 h2 h3 h4 hprog
  have hwin : u.win = ⟨d.vars.regs, d.vars.map⟩ := by rw [h3]; show windowOf i _ _ = _; unfold windowOf; rw [hl]; rfl
  let f' : InFlight := { flightOf i s with todo := singlePhase d.vars.latch d.vars.regs (op :: ys) ++ [] }
  let t : Track := ⟨op, ys, d.vars.latch, d.vars.regs⟩
  have hv : f'.vars t u = d.vars := by
    show Vars.mk d.vars.latch (if isImage i then d.vars.regs else u.win.toLineRegs) u.win.map = d.vars
    rw [hl, hwin]; rfl
  have hplat : u.plat = s.plat := h1.plat
  have hstep : engineStep u = busError f' a u := by
    rw [engineStep_pick (f := f') (p := ⟨t, []⟩) (ps := []) (k := 0) (s1 := u) (t := t) (us := []) h1.inflight rfl rfl rfl]
    unfold trackStep
    rw [hv]
    show (match (match op.access d.vars with | .none => _ | .read a => _ | .write a v => _ : Except Nat State) with
      | .ok u => u
      | .error a => busError f' a u) = _
    rcases ha with ha | ⟨v, ha⟩
    · rw [ha]; simp [engineRead, hplat, hbad]
    · rw [ha]; simp [engineWrite, hplat, hbad]
  have hrun : engineRun (n + 1) (startOf i s) = busError f' a u := by
    rw [engineRun_add, hg, engineRun_succ, hstep]; rfl
  have hbe : busError f' a u = raiseError .busErr a (scrambleSlots f'.slots (scrambleRegs (release f' u))) := by
    unfold busError
    rw [show isImage f'.cmd = false from hl]
    rfl
  have hrel := release_untainted f' u rfl
  have hin : s.inflight = none := hu.1
  refine ⟨busError f' a u, ?_, ⟨?_, ?_, ?_⟩, ?_, ?_, ?_, ?_, ?_, ?_⟩
  · rw [exec_start i s hi hu.1 hc hf, advance_eq (show (startOf i s).lead = .untilDone from hu.2) (n := n + 1)
      (by rw [hrun, busError_frame]), hrun]
  · have hfr := busError_frame f' a u
    have hst : (busError f' a u).hostStale = staleAfter (s.footprint i).writes s := by
      rw [busError_hostStale, h1]; rfl
    have hord : (busError f' a u).order = u.order := by rw [hfr]
    generalize busError f' a u = v at hfr hst hord
    rw [hst] at hfr
    rw [hord, hfr, h1]
    cases s; cases hin; rfl
  · rw [busError_frame]; exact hprog.order
  · intro b
    rw [busError_hostOver, show isImage f'.cmd = false from hl, hplat, h1]
    have : f'.written = (s.footprint i).writes.filter (fun b => !((op :: ys).flatMap MicroOp.stores).contains b) := by
      show (s.footprint i).writes.filter (fun b => !f'.stores.contains b) = _
      rw [show f'.stores = (op :: ys).flatMap MicroOp.stores by
        simp [f', InFlight.stores, singlePhase, Track.of?, Phase.of?, Phase.stores, Phase.tracks, Track.stores]]
    rw [← this]
    exact mem_over
  · rw [hbe, hrel, scrambleSlots_frame]; exact h2
  · rw [hbe]
    show (scrambleSlots _ _).win.map = _
    rw [scrambleSlots_map, hrel]; show u.win.map = _; rw [hwin]
  · have hud : u.draws = s.draws := by rw [h1]; rfl
    rw [hbe, hrel, scrambleSlots_frame]
    refine ⟨⟨s.draws, ?_⟩, ⟨s.draws + 1, ?_⟩, ⟨s.draws + 2, ?_⟩, ⟨s.draws + 3, ?_⟩, ⟨s.draws + 4, ?_⟩⟩ <;>
      simp [raiseError, scrambleRegs, hud] <;> omega
  · intro k hk
    have hud : u.draws = s.draws := by rw [h1]; rfl
    rw [hbe]
    exact scrambleSlots_drawn f'.slots (u := scrambleRegs (release f' u)) (by rw [hrel]; simp [scrambleRegs, hud]) hk
  · intro k hk
    rw [hbe]
    show (scrambleSlots f'.slots (scrambleRegs (release f' u))).win.wstore.get k = _
    rw [scrambleSlots_get_of_not_mem _ _ _ (show k ∉ f'.slots from hk), hrel]
    show u.win.wstore.get k = _
    rw [hwin]
  · rw [busError_frame]; exact h4

end Sys2Proof.Machine
end

