-- ==== Sys2Proof/Laws/Line.lean ====
section
/-! SUPPORT. What the steps of one line leave: the mapping (R252), the opened window (R255, R256), and each step of SLIDE beside
its pseudocode over integers (R259, R260). -/

namespace Sys2Proof.Machine

/-! ## MAPGEN -/

/-- Setting the entries below `n` of MAP. -/
theorem runOps_setMap (o : OperandRegs) (f : Nat → Nat) (n : Nat) (c : Work) :
    ∃ m : Ram 32, c.runOps o ((List.range n).map (fun i => .setMap i (f i))) = ⟨c.mem, { c.vars with map := m }⟩
      ∧ ∀ j, m.get j = if j < n then BitVec.ofNat 32 (f j) else c.vars.map.get j := by
  induction n with
  | zero => exact ⟨c.vars.map, rfl, fun j => by simp⟩
  | succ n ih =>
    obtain ⟨m, hm, hg⟩ := ih
    refine ⟨m.set n (BitVec.ofNat 32 (f n)), ?_, fun j => ?_⟩
    · rw [List.range_succ, List.map_append, Work.runOps_append, hm]; rfl
    · rw [Ram.get_set]
      rcases Nat.lt_trichotomy j n with h | h | h
      · rw [if_neg (by omega), hg, if_pos h, if_pos (by omega)]
      · rw [if_pos h.symm, if_pos (by omega), h]
      · rw [if_neg (by omega), hg, if_neg (by omega), if_neg (by omega)]

theorem runOpsOk_map {α : Type} (o : OperandRegs) (rd wr : Nat → Prop) (g : α → MicroOp) (xs : List α)
    (h : ∀ x ∈ xs, ∀ v, ((g x).access v).within rd wr) (c : Work) : Work.runOpsOk o rd wr c (xs.map g) := by
  induction xs generalizing c with
  | nil => exact trivial
  | cons x xs ih => exact ⟨h x List.mem_cons_self _, ih (fun y hy => h y (List.mem_cons_of_mem x hy)) _⟩

/-- MAPGEN's steps (R252). -/
theorem runs_mapSteps (o : OperandRegs) (rd wr : Nat → Prop) (L s r : Nat) (c : Work) :
    ∃ m : Ram 32, Work.Runs o rd wr c (mapSteps L s r) ⟨c.mem, { c.vars with map := m }⟩
      ∧ ∀ j, m.get j = if j < L then BitVec.ofNat 32 (min (j + r + 1) (L - 1) * s) else c.vars.map.get j := by
  obtain ⟨m, hm, hg⟩ := runOps_setMap o (fun i => enteringIndex L r i * s) L c
  refine ⟨m, ?_, hg⟩
  rw [← hm]
  refine Work.Runs.of_straight (fun op hop => ?_) c (runOpsOk_map o rd wr (fun i => .setMap i (enteringIndex L r i * s)) _
    (fun _ _ _ => trivial) c)
  obtain ⟨i, -, rfl⟩ := List.mem_map.1 hop
  rfl

/-! ## WINIT -/

theorem clampIndex_eq_edge (L : Nat) (j : Int) : clampIndex L j = edge L j := rfl

theorem weight_eq_coeff (var : Variant) (r : Nat) (k : Int) : weight var r k = coeff var r k := by cases var <;> rfl

/-- What the first `n` slots hold after they are filled from the samples. -/
theorem runOps_fill (o : OperandRegs) (n : Nat) (c : Work) (hn : n ≤ c.vars.latch.samples.length) :
    ∃ ws : Ram 8, c.runOps o ((List.range n).map .fillSlot) =
        ⟨c.mem, { c.vars with regs := { c.vars.regs with wstore := ws } }⟩
      ∧ ∀ j, ws.get j = if j < n then (c.vars.latch.samples[j]?).getD 0 else c.vars.regs.wstore.get j := by
  induction n with
  | zero => exact ⟨c.vars.regs.wstore, rfl, fun j => by simp⟩
  | succ n ih =>
    obtain ⟨ws, hw, hg⟩ := ih (by omega)
    have hv : c.vars.latch.samples[n]? = some c.vars.latch.samples[n] := List.getElem?_eq_getElem (by omega)
    refine ⟨ws.set n c.vars.latch.samples[n], ?_, fun j => ?_⟩
    · rw [List.range_succ, List.map_append, Work.runOps_append, hw]
      simp only [List.map_cons, List.map_nil, Work.runOps_cons, Work.runOps_nil, Work.step, Work.stored, MicroOp.access,
        MicroOp.update, LineRegs.fill, hv]
    · rw [Ram.get_set]
      rcases Nat.lt_trichotomy j n with h | h | h
      · rw [if_neg (by omega), hg, if_pos h, if_pos (by omega)]
      · subst h; rw [if_pos rfl, if_pos (by omega), hv]; rfl
      · rw [if_neg (by omega), hg, if_neg (by omega), if_neg (by omega)]

/-- The accumulators of WINIT are empty. -/
def Latch.Empty (l : Latch) : Prop := l.samples = [] ∧ l.acc = 0 ∧ l.ins = 0 ∧ l.outs = 0

theorem Latch.empty_fresh : Latch.fresh.Empty := ⟨rfl, rfl, rfl, rfl⟩

/-- The latches after the first `n` samples of WINIT. -/
theorem runOps_samples (o : OperandRegs) (var : Variant) (r : Nat) (addr : Nat → Nat) (c : Work) (hl : c.vars.latch.Empty)
    (n : Nat) :
    c.runOps o ((List.range n).map (fun j => .sample var r (sampleOffset r j) (addr j))) =
      ⟨c.mem, { c.vars with latch := { c.vars.latch with
          samples := (List.range n).map (fun j => c.mem.read (addr j))
          acc  := ∑ j ∈ Finset.range n, coeff var r ((j : Int) - r) * (c.mem.read (addr j)).toNat
          ins  := ∑ j ∈ Finset.range n, if r < j then (c.mem.read (addr j)).toNat else 0
          outs := ∑ j ∈ Finset.range n, if r < j then 0 else (c.mem.read (addr j)).toNat } }⟩ := by
  induction n with
  | zero =>
    obtain ⟨m, l, w, mp⟩ := c
    obtain ⟨h1, h2, h3, h4⟩ := hl
    cases l
    cases h1; cases h2; cases h3; cases h4
    rfl
  | succ n ih =>
    rw [List.range_succ, List.map_append, Work.runOps_append, ih]
    simp only [List.map_cons, List.map_nil, Work.runOps_cons, Work.runOps_nil, Work.step, Work.stored,
      Work.byte, MicroOp.access, MicroOp.update, Latch.addSample,
      Finset.sum_range_succ, List.map_append, weight_eq_coeff, sampleOffset]
    by_cases h : r < n
    · have : (0 : Int) < (n : Int) - r := by omega
      simp [h]
    · have : ¬(0 : Int) < (n : Int) - r := by omega
      simp [h]

theorem coeff_le (var : Variant) (r : Nat) (k : Int) : coeff var r k ≤ r + 1 := by
  cases var <;> simp [coeff]

theorem le255 (n : Nat) (h : n < 256) : n ≤ 255 := by omega

/-- A sum of samples weighted by at most `r + 1` stays below 2^32. -/
theorem kernelSum_lt (var : Variant) (r : Nat) (hr : r < 256) (p : Int → Nat) (hp : ∀ k, p k < 256) (x : Int) :
    kernelSum var r p x < 4294967296 := by
  have h1 : kernelSum var r p x ≤ ∑ _j ∈ Finset.range (2 * r + 1), (r + 1) * 255 :=
    Finset.sum_le_sum (fun j _ => Nat.mul_le_mul (coeff_le ..) (le255 _ (hp _)))
  rw [Finset.sum_const, Finset.card_range, smul_eq_mul] at h1
  have h2 : (2 * r + 1) * ((r + 1) * 255) ≤ 511 * (256 * 255) :=
    Nat.mul_le_mul (by omega) (Nat.mul_le_mul (by omega) le_rfl)
  omega

theorem rightSum_lt (r : Nat) (hr : r < 256) (p : Int → Nat) (hp : ∀ k, p k < 256) (x : Int) :
    rightSum r p x ≤ 255 * 255 := by
  have h1 : rightSum r p x ≤ ∑ _j ∈ Finset.range r, 255 := Finset.sum_le_sum (fun j _ => le255 _ (hp _))
  rw [Finset.sum_const, Finset.card_range, smul_eq_mul] at h1
  exact h1.trans (Nat.mul_le_mul (by omega) le_rfl)

theorem leftSum_lt (r : Nat) (hr : r < 256) (p : Int → Nat) (hp : ∀ k, p k < 256) (x : Int) :
    leftSum r p x ≤ 256 * 255 := by
  have h1 : leftSum r p x ≤ ∑ _j ∈ Finset.range (r + 1), 255 := Finset.sum_le_sum (fun j _ => le255 _ (hp _))
  rw [Finset.sum_const, Finset.card_range, smul_eq_mul] at h1
  exact h1.trans (Nat.mul_le_mul (by omega) le_rfl)

/-- The samples right of the centre, summed over all `d` offsets. -/
theorem sum_right (r : Nat) (p : Int → Nat) (x : Int) :
    (∑ j ∈ Finset.range (2 * r + 1), if r < j then p (x + ((j : Int) - r)) else 0) = rightSum r p x := by
  have : 2 * r + 1 = (r + 1) + r := by omega
  rw [this, Finset.sum_range_add]
  have h0 : (∑ j ∈ Finset.range (r + 1), if r < j then p (x + ((j : Int) - r)) else 0) = 0 :=
    Finset.sum_eq_zero (fun j hj => if_neg (by have := Finset.mem_range.1 hj; omega))
  rw [h0, Nat.zero_add]
  refine Finset.sum_congr rfl (fun j _ => ?_)
  rw [if_pos (by omega)]
  congr 2
  push_cast
  ring

/-- The centre and the samples left of it, summed over all `d` offsets. -/
theorem sum_left (r : Nat) (p : Int → Nat) (x : Int) :
    (∑ j ∈ Finset.range (2 * r + 1), if r < j then 0 else p (x + ((j : Int) - r))) = leftSum r p x := by
  have : 2 * r + 1 = (r + 1) + r := by omega
  rw [this, Finset.sum_range_add]
  have h0 : (∑ j ∈ Finset.range r, if r < r + 1 + j then 0 else p (x + (((r + 1 + j : Nat) : Int) - r))) = 0 :=
    Finset.sum_eq_zero (fun j _ => if_pos (by omega))
  rw [h0, Nat.add_zero, leftSum, ← Finset.sum_range_reflect]
  refine Finset.sum_congr rfl (fun j hj => ?_)
  have := Finset.mem_range.1 hj
  rw [if_neg (by omega)]
  congr 2
  omega

/-- The window WINIT opens on a line whose samples are `p` (R255, R256). -/
theorem runs_winitSteps (o : OperandRegs) (rd wr : Nat → Prop) (var : Variant) (base L s r : Nat) (hr : r < 256) (hL : 0 < L)
    (c : Work) (hl : c.vars.latch.Empty) (hrd : ∀ j < L, rd (base + j * s)) :
    let p := lineSample c.mem base s L
    ∃ l w, Work.Runs o rd wr c (winitSteps var base L s r) ⟨c.mem, l, w, c.vars.map⟩
      ∧ (∀ j < 2 * r + 1, (w.wstore.get j).toNat = p ((j : Int) - r))
      ∧ (∀ j, 2 * r + 1 ≤ j → w.wstore.get j = c.vars.regs.wstore.get j)
      ∧ w.wsum.toNat = kernelSum var r p 0 ∧ w.insum.toNat = rightSum r p 0
      ∧ w.outsum.toNat = leftSum r p 0 ∧ w.sp.toNat = r ∧ w.pos = 0 := by
  intro p
  have hp : ∀ k, p k < 256 := fun k => (c.mem.read _).isLt
  have hread : ∀ j : Nat, (c.mem.read (base + clampIndex L (sampleOffset r j) * s)).toNat = p (0 + ((j : Int) - r)) :=
    fun j => by rw [zero_add]; rfl
  have hsamples := runOps_samples o var r (fun j => base + clampIndex L (sampleOffset r j) * s) c hl (2 * r + 1)
  simp only [hread, sum_right, sum_left] at hsamples
  obtain ⟨ws, hfill, hws⟩ := runOps_fill o (2 * r + 1) _ (le_of_eq (by rw [hsamples]; simp) :
    2 * r + 1 ≤ (c.runOps o ((List.range (2 * r + 1)).map (fun j => .sample var r (sampleOffset r j)
      (base + clampIndex L (sampleOffset r j) * s)))).vars.latch.samples.length)
  have hstraight : ∀ op ∈ winitSteps var base L s r, op.straight = true := by
    intro op hop
    simp only [winitSteps, List.mem_append, List.mem_map, List.mem_cons, List.not_mem_nil, or_false] at hop
    rcases hop with (⟨_, -, rfl⟩ | ⟨_, -, rfl⟩) | rfl | rfl | rfl | rfl | rfl <;> rfl
  have hok : Work.runOpsOk o rd wr c (winitSteps var base L s r) := by
    rw [winitSteps, Work.runOpsOk_append, Work.runOpsOk_append]
    refine ⟨⟨runOpsOk_map o rd wr _ _ (fun j _ v => ?_) c, runOpsOk_map o rd wr .fillSlot _ (fun _ _ _ => trivial) _⟩,
      trivial, trivial, trivial, trivial, trivial, trivial⟩
    refine hrd _ ?_
    simp only [clampIndex, clamp]
    omega
  have hrun := Work.Runs.of_straight hstraight c hok
  rw [winitSteps, diameter, Work.runOps_append, Work.runOps_append, hfill, hsamples] at hrun
  refine ⟨_, _, hrun, fun j hj => ?_, fun j hj => ?_, ?_, ?_, ?_, ?_, rfl⟩
  · show (ws.get j).toNat = _
    rw [hws, if_pos hj, hsamples]
    simp only [List.getElem?_map, List.getElem?_range hj, Option.map_some, Option.getD_some, hread, zero_add]
  · show ws.get j = _
    rw [hws, if_neg (by omega), hsamples]
  · exact Nat.mod_eq_of_lt (kernelSum_lt var r hr p hp 0)
  · exact Nat.mod_eq_of_lt (lt_of_le_of_lt (rightSum_lt r hr p hp 0) (by decide))
  · exact Nat.mod_eq_of_lt (lt_of_le_of_lt (leftSum_lt r hr p hp 0) (by decide))
  · exact Nat.mod_eq_of_lt (by omega)

/-! ## SLIDE beside its pseudocode -/

/-- The numbers a work state holds. -/
def LineRef.ofWork (c : Work) : LineRef where
  mem a  := (c.mem.read a).toNat
  ws k   := (c.vars.regs.wstore.get k).toNat
  wsum   := c.vars.regs.wsum.toNat
  insum  := c.vars.regs.insum.toNat
  outsum := c.vars.regs.outsum.toNat
  sp     := c.vars.regs.sp.toNat
  pos    := c.vars.regs.pos.toNat

theorem toNat_add_wrap (a b : Word) : (a + b).toNat = wrap32 ((a.toNat : Int) + b.toNat) := by
  rw [BitVec.toNat_add, wrap32]; omega

theorem toNat_sub_wrap (a b : Word) : (a - b).toNat = wrap32 ((a.toNat : Int) - b.toNat) := by
  rw [BitVec.toNat_sub, wrap32]; omega

theorem toNat_byte (v : Byte) : (v.setWidth 32).toNat = v.toNat := by
  rw [BitVec.toNat_setWidth]; exact Nat.mod_eq_of_lt (lt_trans v.isLt (by decide))

theorem divisor_eq (var : Variant) (r : Nat) : divisor var r = kernelDivisor var r := by
  cases var
  · exact (pow_two (r + 1)).symm
  · rfl

theorem emitted_toNat (w : LineRegs) (var : Variant) (r : Nat) :
    (w.emitted var r).toNat = w.wsum.toNat / kernelDivisor var r % 256 := by
  rw [LineRegs.emitted, divisor_eq]; rfl

theorem read_write_changed (m : Memory) (a : Nat) (v : Byte) :
    (fun b => ((m.write a v).read b).toNat) = changed (fun b => (m.read b).toNat) a v.toNat := by
  funext b
  rw [Memory.read_write, changed]
  by_cases h : a = b
  · rw [if_pos h, if_pos h.symm]
  · rw [if_neg h, if_neg (Ne.symm h)]

theorem get_set_changed (r : Ram 8) (k : Nat) (v : Byte) :
    (fun j => ((r.set k v).get j).toNat) = changed (fun j => (r.get j).toNat) k v.toNat := by
  funext j
  rw [Ram.get_set, changed]
  by_cases h : k = j
  · rw [if_pos h, if_pos h.symm]
  · rw [if_neg h, if_neg (Ne.symm h)]

theorem mod_d_lt (r n : Nat) (hr : r < 256) : n % diameter r < 512 := by
  have := Nat.mod_lt n (show 0 < diameter r by unfold diameter; omega)
  unfold diameter at this ⊢
  omega

/-- What a step that takes in `v` leaves of the window registers, from the sums it has reached. -/
def LineRegs.entered (w : LineRegs) (r i : Nat) (v : Byte) (outsum wsum : Word) : LineRegs :=
  let ws := w.wstore.set (w.trailing r) v
  let sp := BitVec.ofNat 9 ((w.sp.toNat + 1) % diameter r)
  let u := (ws.get sp.toNat).setWidth 32
  ⟨wsum, w.insum + v.setWidth 32 - u, outsum + u, sp, BitVec.ofNat 17 (i + 1), ws⟩

/-- What a step that takes in `v` leaves, as numbers. -/
theorem entered_numbers (w : LineRegs) (r i : Nat) (v : Byte) (outsum wsum : Word) (hr : r < 256) (hi : i < 131071) :
    let w' := w.entered r i v outsum wsum
    let ws := changed (fun k => (w.wstore.get k).toNat) ((w.sp.toNat + r + 1) % (2 * r + 1)) v.toNat
    let sp := (w.sp.toNat + 1) % (2 * r + 1)
    (fun k => (w'.wstore.get k).toNat) = ws ∧ w'.wsum = wsum
      ∧ w'.insum.toNat = wrap32 ((wrap32 ((w.insum.toNat : Int) + v.toNat) : Int) - ws sp)
      ∧ w'.outsum.toNat = wrap32 ((outsum.toNat : Int) + ws sp)
      ∧ w'.sp.toNat = sp ∧ w'.pos.toNat = i + 1 := by
  intro w' ws sp
  have hws : (fun k => (w'.wstore.get k).toNat) = ws := get_set_changed ..
  have hsp : (BitVec.ofNat 9 ((w.sp.toNat + 1) % diameter r)).toNat = sp := Nat.mod_eq_of_lt (mod_d_lt r _ hr)
  have hu : ((w.wstore.set (w.trailing r) v).get sp).toNat = ws sp := congrFun hws sp
  refine ⟨hws, rfl, ?_, ?_, hsp, ?_⟩
  · simp only [w', LineRegs.entered, toNat_sub_wrap, toNat_add_wrap, toNat_byte, hsp, hu]
  · simp only [w', LineRegs.entered, toNat_add_wrap, toNat_byte, hsp, hu]
  · exact Nat.mod_eq_of_lt (by omega)

/-- Memory after part 1 of a step is the pseudocode's. -/
theorem emit_numbers (c : Work) (var : Variant) (r a : Nat) :
    (fun b => ((c.stored (.emit var r a)).read b).toNat)
      = changed (LineRef.ofWork c).mem a (c.vars.regs.wsum.toNat / kernelDivisor var r % 256) := by
  show (fun b => ((c.mem.write a (c.vars.regs.emitted var r)).read b).toNat) = _
  rw [read_write_changed, emitted_toNat]
  rfl

/-- Step `i` of SLIDE.T is the pseudocode's (R259). -/
theorem runOps_slideT (o : OperandRegs) (src dst L s r i : Nat) (hr : r < 256) (hi : i < 131071) (c : Work) :
    let c' := c.runOps o (slideStep .T src dst L s r i)
    LineRef.ofWork c' = LineRef.stepT src dst s r (fun j => (c.vars.map.get j).toNat) (LineRef.ofWork c) i
      ∧ c'.vars.map = c.vars.map := by
  intro c'
  let m1 := c.stored (.emit .T r (dst + i * s))
  let w := c.vars.regs
  let v := m1.read (src + (c.vars.map.get i).toNat)
  obtain ⟨h1, h2, h3, h4, h5, h6⟩ := entered_numbers w r i v
    (w.outsum - (w.wstore.get (w.trailing r)).setWidth 32) (w.wsum - w.outsum + (w.insum + v.setWidth 32)) hr hi
  have hm := emit_numbers c .T r (dst + i * s)
  have hv : v.toNat = changed (LineRef.ofWork c).mem (dst + i * s) (w.wsum.toNat / kernelDivisor .T r % 256)
      (src + (c.vars.map.get i).toNat) := congrFun hm _
  refine ⟨?_, rfl⟩
  let w' := w.entered r i v (w.outsum - (w.wstore.get (w.trailing r)).setWidth 32)
    (w.wsum - w.outsum + (w.insum + v.setWidth 32))
  have hL : LineRef.ofWork c' = ⟨fun a => (m1.read a).toNat, fun k => (w'.wstore.get k).toNat, w'.wsum.toNat,
      w'.insum.toNat, w'.outsum.toNat, w'.sp.toNat, w'.pos.toNat⟩ := rfl
  rw [hL, h1, h2, h3, h4, h5, h6]
  simp only [m1, hm, hv, LineRef.stepT, LineRef.emit, toNat_sub_wrap, toNat_add_wrap, toNat_byte]
  rfl

/-- Step `i` of SLIDE.U is the pseudocode's (R260). -/
theorem runOps_slideU (o : OperandRegs) (src dst L s r i : Nat) (hr : r < 256) (hi : i < 131071) (c : Work) :
    let c' := c.runOps o (slideStep .U src dst L s r i)
    LineRef.ofWork c' = LineRef.stepU src dst L s r (LineRef.ofWork c) i ∧ c'.vars.map = c.vars.map := by
  intro c'
  let m1 := c.stored (.emit .U r (dst + i * s))
  let w := c.vars.regs
  let v := m1.read (src + min (i + r + 1) (L - 1) * s)
  obtain ⟨h1, h2, h3, h4, h5, h6⟩ := entered_numbers w r i v
    (w.outsum - (w.wstore.get (w.trailing r)).setWidth 32)
    (w.wsum - (w.wstore.get (w.trailing r)).setWidth 32 + v.setWidth 32) hr hi
  have hm := emit_numbers c .U r (dst + i * s)
  have hv : v.toNat = changed (LineRef.ofWork c).mem (dst + i * s) (w.wsum.toNat / kernelDivisor .U r % 256)
      (src + min (i + r + 1) (L - 1) * s) := congrFun hm _
  refine ⟨?_, rfl⟩
  let w' := w.entered r i v (w.outsum - (w.wstore.get (w.trailing r)).setWidth 32)
    (w.wsum - (w.wstore.get (w.trailing r)).setWidth 32 + v.setWidth 32)
  have hL : LineRef.ofWork c' = ⟨fun a => (m1.read a).toNat, fun k => (w'.wstore.get k).toNat, w'.wsum.toNat,
      w'.insum.toNat, w'.outsum.toNat, w'.sp.toNat, w'.pos.toNat⟩ := rfl
  rw [hL, h1, h2, h3, h4, h5, h6]
  simp only [m1, hm, hv, LineRef.stepU, LineRef.emit, toNat_sub_wrap, toNat_add_wrap, toNat_byte]
  rfl

/-- One step of SLIDE over numbers, either variant; `rd i` is where step `i` reads. -/
def LineRef.stepAt (var : Variant) (rd : Nat → Nat) (dst s r : Nat) (c : LineRef) (i : Nat) : LineRef :=
  match var with
  | .T => LineRef.stepT 0 dst s r rd c i
  | .U => LineRef.stepU (rd i) dst 1 s r c i

/-- Where step `i` of SLIDE reads. -/
def slideReads (var : Variant) (src L s r : Nat) (map : Nat → Nat) (i : Nat) : Nat :=
  match var with
  | .T => src + map i
  | .U => src + min (i + r + 1) (L - 1) * s

theorem stepT_eq_stepAt (src dst s r : Nat) (map : Nat → Nat) (c : LineRef) (i : Nat) :
    LineRef.stepT src dst s r map c i = LineRef.stepAt .T (fun i => src + map i) dst s r c i := by
  simp only [LineRef.stepAt, LineRef.stepT, Nat.zero_add]

theorem stepU_eq_stepAt (src dst L s r : Nat) (c : LineRef) (i : Nat) :
    LineRef.stepU src dst L s r c i = LineRef.stepAt .U (fun i => src + min (i + r + 1) (L - 1) * s) dst s r c i := by
  simp only [LineRef.stepAt, LineRef.stepU, Nat.sub_self, Nat.min_zero, Nat.zero_mul, Nat.add_zero]

/-- The first `n` steps of SLIDE are the pseudocode's, and do not write MAP. -/
theorem runOps_slideSteps (o : OperandRegs) (var : Variant) (src dst L s r n : Nat) (hr : r < 256) (hn : n ≤ 131071)
    (c : Work) :
    let c' := c.runOps o ((List.range n).flatMap (slideStep var src dst L s r))
    LineRef.ofWork c' = (List.range n).foldl
        (LineRef.stepAt var (slideReads var src L s r (fun j => (c.vars.map.get j).toNat)) dst s r) (LineRef.ofWork c)
      ∧ c'.vars.map = c.vars.map := by
  induction n with
  | zero => exact ⟨rfl, rfl⟩
  | succ n ih =>
    obtain ⟨h1, h2⟩ := ih (by omega)
    simp only [List.range_succ, List.flatMap_append, List.foldl_append, Work.runOps_append, List.flatMap_cons,
      List.flatMap_nil, List.append_nil, List.foldl_cons, List.foldl_nil, ← h1]
    cases var with
    | T =>
      have h := runOps_slideT o src dst L s r n hr (by omega)
        (c.runOps o ((List.range n).flatMap (slideStep .T src dst L s r)))
      rw [h2, stepT_eq_stepAt] at h
      exact h
    | U =>
      have h := runOps_slideU o src dst L s r n hr (by omega)
        (c.runOps o ((List.range n).flatMap (slideStep .U src dst L s r)))
      rw [h2, stepU_eq_stepAt] at h
      exact h

theorem straight_slideStep (var : Variant) (src dst L s r i : Nat) :
    ∀ op ∈ slideStep var src dst L s r i, op.straight = true := by
  cases var <;>
  · intro op hop
    simp only [slideStep, List.mem_cons, List.not_mem_nil, or_false] at hop
    rcases hop with rfl | rfl | rfl | rfl | rfl | rfl | rfl | rfl | rfl | rfl | rfl <;> rfl

/-- The steps of SLIDE run, if what they read and write is within bounds. -/
theorem runs_slideSteps (o : OperandRegs) (rd wr : Nat → Prop) (var : Variant) (src dst L s r n : Nat) (hr : r < 256)
    (hn : n ≤ 131071) (c : Work) (hw : ∀ i < n, wr (dst + i * s))
    (hrd : ∀ i < n, rd (slideReads var src L s r (fun j => (c.vars.map.get j).toNat) i)) :
    Work.Runs o rd wr c ((List.range n).flatMap (slideStep var src dst L s r))
      (c.runOps o ((List.range n).flatMap (slideStep var src dst L s r))) := by
  refine Work.Runs.of_straight (fun op hop => ?_) c ?_
  · obtain ⟨i, -, h⟩ := List.mem_flatMap.1 hop
    exact straight_slideStep var src dst L s r i op h
  · induction n with
    | zero => exact trivial
    | succ n ih =>
      rw [List.range_succ, List.flatMap_append, Work.runOpsOk_append]
      refine ⟨ih (by omega) (fun i hi => hw i (by omega)) (fun i hi => hrd i (by omega)), ?_⟩
      have hmap := (runOps_slideSteps o var src dst L s r n hr (by omega) c).2
      have h1 := hw n (by omega)
      have h2 := hrd n (by omega)
      simp only [List.flatMap_cons, List.flatMap_nil, List.append_nil]
      cases var with
      | T =>
        refine ⟨h1, trivial, trivial, ?_, trivial, trivial, trivial, trivial, trivial, trivial, trivial, trivial⟩
        change rd (src + ((c.runOps o ((List.range n).flatMap (slideStep .T src dst L s r))).vars.map.get n).toNat)
        rw [hmap]; exact h2
      | U =>
        exact ⟨h1, trivial, trivial, h2, trivial, trivial, trivial, trivial, trivial, trivial, trivial, trivial⟩

end Sys2Proof.Machine
end

