-- ==== Sys2Proof/Laws/Window.lean ====
section
/-! SUPPORT. The sliding window: the sums of two neighbouring centres (R261), one step of SLIDE from a window state, and the
outputs of a whole line (R262, R263), all over integers. -/

namespace Sys2Proof.Machine

/-! ## Sums of two neighbouring centres -/

/-- OUTSUM at the next centre. -/
theorem leftSum_succ (r : Nat) (p : Int → Nat) (x : Int) : leftSum r p (x + 1) + p (x - r) = leftSum r p x + p (x + 1) := by
  have h1 : leftSum r p (x + 1) = (∑ j ∈ Finset.range r, p (x - (j : Int))) + p (x + 1) := by
    rw [leftSum, Finset.sum_range_succ']
    congr 1
    · exact Finset.sum_congr rfl (fun j _ => by congr 1; push_cast; ring)
    · simp
  have h2 : leftSum r p x = (∑ j ∈ Finset.range r, p (x - (j : Int))) + p (x - r) := Finset.sum_range_succ ..
  omega

/-- INSUM at the next centre. -/
theorem rightSum_succ (r : Nat) (p : Int → Nat) (x : Int) :
    rightSum r p (x + 1) + p (x + 1) = rightSum r p x + p (x + r + 1) := by
  have h1 : ∑ j ∈ Finset.range (r + 1), p (x + ((j : Int) + 1)) = rightSum r p x + p (x + r + 1) := by
    rw [Finset.sum_range_succ, rightSum, add_assoc x]
  have h2 : ∑ j ∈ Finset.range (r + 1), p (x + ((j : Int) + 1)) = rightSum r p (x + 1) + p (x + 1) := by
    rw [Finset.sum_range_succ', rightSum]
    congr 1
    · exact Finset.sum_congr rfl (fun j _ => by congr 1; push_cast; ring)
  omega

/-- The box sum at the next centre. -/
theorem kernelSum_uniform_succ (r : Nat) (p : Int → Nat) (x : Int) :
    kernelSum .U r p (x + 1) + p (x - r) = kernelSum .U r p x + p (x + r + 1) := by
  have h1 : ∑ j ∈ Finset.range (2 * r + 2), p (x + ((j : Int) - r)) = kernelSum .U r p x + p (x + r + 1) := by
    rw [Finset.sum_range_succ, kernelSum]
    congr 1
    · exact Finset.sum_congr rfl (fun j _ => by simp [coeff])
    · congr 1; push_cast; ring
  have h2 : ∑ j ∈ Finset.range (2 * r + 2), p (x + ((j : Int) - r)) = kernelSum .U r p (x + 1) + p (x - r) := by
    rw [Finset.sum_range_succ', kernelSum]
    congr 1
    · refine Finset.sum_congr rfl (fun j _ => ?_)
      simp only [coeff, one_mul]; congr 1; push_cast; ring
    · congr 1; push_cast; ring
  omega

/-- The triangular sum at the next centre: it loses the left half and gains the right half (C1). -/
theorem kernelSum_triangular_succ (r : Nat) (p : Int → Nat) (x : Int) :
    kernelSum .T r p (x + 1) + leftSum r p x = kernelSum .T r p x + rightSum r p x + p (x + r + 1) := by
  have h1 : kernelSum .T r p x =
      ∑ j ∈ Finset.range (2 * r + 2), coeff .T r ((j : Int) - r) * p (x + ((j : Int) - r)) := by
    rw [Finset.sum_range_succ, kernelSum]
    have : coeff .T r (((2 * r + 1 : Nat) : Int) - r) = 0 := by simp only [coeff]; omega
    rw [this]; simp
  have h2 : kernelSum .T r p (x + 1) =
      ∑ j ∈ Finset.range (2 * r + 2), coeff .T r ((j : Int) - 1 - r) * p (x + ((j : Int) - r)) := by
    rw [Finset.sum_range_succ', kernelSum]
    have : coeff .T r (((0 : Nat) : Int) - 1 - r) = 0 := by simp only [coeff]; omega
    rw [this, Nat.zero_mul, Nat.add_zero]
    refine Finset.sum_congr rfl (fun j _ => ?_)
    congr 2 <;> (push_cast; ring)
  have h3 : leftSum r p x = ∑ j ∈ Finset.range (2 * r + 2), if r < j then 0 else p (x + ((j : Int) - r)) := by
    rw [Finset.sum_range_succ, sum_left, if_pos (by omega), Nat.add_zero]
  have h4 : rightSum r p x + p (x + r + 1) =
      ∑ j ∈ Finset.range (2 * r + 2), if r < j then p (x + ((j : Int) - r)) else 0 := by
    rw [Finset.sum_range_succ, sum_right, if_pos (by omega)]
    congr 2; push_cast; ring
  rw [Nat.add_assoc, h4, h3, h2, h1, ← Finset.sum_add_distrib, ← Finset.sum_add_distrib]
  refine Finset.sum_congr rfl (fun j hj => ?_)
  have hj := Finset.mem_range.1 hj
  by_cases h : r < j
  · have : coeff .T r ((j : Int) - 1 - r) = coeff .T r ((j : Int) - r) + 1 := by simp only [coeff]; omega
    rw [if_pos h, if_pos h, this]; ring
  · have : coeff .T r ((j : Int) - r) = coeff .T r ((j : Int) - 1 - r) + 1 := by simp only [coeff]; omega
    rw [if_neg h, if_neg h, this]; ring

/-- The weights sum to the divisor (R262). -/
theorem sum_coeff (var : Variant) (r : Nat) :
    ∑ j ∈ Finset.range (2 * r + 1), coeff var r ((j : Int) - r) = kernelDivisor var r := by
  cases var with
  | U => simp [coeff, kernelDivisor]
  | T =>
    have gauss : ∀ n : Nat, (∑ j ∈ Finset.range (n + 1), (j + 1)) + ∑ j ∈ Finset.range n, (j + 1) = (n + 1) ^ 2 := by
      intro n
      induction n with
      | zero => rfl
      | succ n ih =>
        rw [Finset.sum_range_succ (fun j => j + 1) (n + 1), Finset.sum_range_succ (fun j => j + 1) n] at *
        nlinarith
    have h : 2 * r + 1 = (r + 1) + r := by omega
    rw [h, Finset.sum_range_add, kernelDivisor, ← gauss r]
    congr 1
    · refine Finset.sum_congr rfl (fun j hj => ?_)
      have := Finset.mem_range.1 hj
      simp only [coeff]; omega
    · rw [← Finset.sum_range_reflect]
      refine Finset.sum_congr rfl (fun j hj => ?_)
      have := Finset.mem_range.1 hj
      simp only [coeff]; omega

theorem kernelDivisor_pos (var : Variant) (r : Nat) : 0 < kernelDivisor var r := by
  cases var
  · exact Nat.pow_pos (Nat.succ_pos r)
  · exact Nat.succ_pos _

/-- The kernel of a constant line is that constant. -/
theorem lineOut_const (var : Variant) (r c : Nat) (p : Int → Nat) (x : Nat) (h : ∀ k, p k = c) : lineOut var r p x = c := by
  have : kernelSum var r p x = kernelDivisor var r * c := by
    simp only [kernelSum, h, ← Finset.sum_mul, sum_coeff]
  rw [lineOut, this, Nat.mul_div_cancel_left _ (kernelDivisor_pos var r)]

/-- An output sample is at most 255 (R262). -/
theorem lineOut_lt (var : Variant) (r : Nat) (p : Int → Nat) (hp : ∀ k, p k < 256) (x : Nat) : lineOut var r p x < 256 := by
  have : kernelSum var r p x ≤ 255 * kernelDivisor var r := by
    rw [← sum_coeff, Finset.mul_sum]
    refine Finset.sum_le_sum (fun j _ => ?_)
    rw [Nat.mul_comm]
    exact Nat.mul_le_mul (le255 _ (hp _)) le_rfl
  exact Nat.lt_succ_of_le (Nat.div_le_of_le_mul (by rwa [Nat.mul_comm] at this))

/-! ## One step of SLIDE from a window state -/

/-- The window state of R261 on numbers. -/
def RefWindow (var : Variant) (r : Nat) (p : Int → Nat) (x : Nat) (c : LineRef) : Prop :=
  c.sp < 2 * r + 1
  ∧ (∀ j < 2 * r + 1,
      c.ws (((c.sp : Int) + ((j : Int) - r)) % ((2 * r + 1 : Nat) : Int)).toNat = p ((x : Int) + ((j : Int) - r)))
  ∧ c.outsum = leftSum r p x ∧ c.insum = rightSum r p x ∧ c.wsum = kernelSum var r p x

theorem windowState_iff (var : Variant) (r : Nat) (p : Int → Nat) (x : Nat) (s : State) :
    WindowState var r p x s.win ↔ RefWindow var r p x (LineRef.of s) := Iff.rfl

/-- The numbers a state holds are those of the work a line command starts with. -/
theorem of_eq_ofWork (s : State) (l : Latch) : LineRef.of s = LineRef.ofWork ⟨s.mem, l, s.win.toLineRegs, s.win.map⟩ := rfl

/-- A step writes its output byte, whatever it reads. -/
theorem stepAt_mem (var : Variant) (rd : Nat → Nat) (dst s r : Nat) (c : LineRef) (i : Nat) :
    (LineRef.stepAt var rd dst s r c i).mem = changed c.mem (dst + i * s) (c.wsum / kernelDivisor var r % 256) := by
  cases var <;> rfl

/-- Slot arithmetic: offset `j - r` from the advanced pointer is offset `j + 1 - r` from the old one. -/
theorem slot_advance (sp r j : Nat) :
    (((((sp + 1) % (2 * r + 1) : Nat) : Int) + ((j : Int) - r)) % ((2 * r + 1 : Nat) : Int))
      = (((sp : Int) + (((j + 1 : Nat) : Int) - r)) % ((2 * r + 1 : Nat) : Int)) := by
  push_cast
  rw [Int.emod_add_emod]
  congr 1
  ring

/-- The trailing slot is offset `-r`, and it is also offset `r + 1`. -/
theorem slot_trailing (sp r : Nat) :
    (((sp : Int) + (((0 : Nat) : Int) - r)) % ((2 * r + 1 : Nat) : Int)).toNat = (sp + r + 1) % (2 * r + 1)
    ∧ (((sp : Int) + (((2 * r + 1 : Nat) : Int) - r)) % ((2 * r + 1 : Nat) : Int)).toNat = (sp + r + 1) % (2 * r + 1) := by
  have h : (((sp + r + 1 : Nat) : Int) % ((2 * r + 1 : Nat) : Int)).toNat = (sp + r + 1) % (2 * r + 1) := by
    rw [← Int.natCast_emod, Int.toNat_natCast]
  constructor
  · have : ((sp + r + 1 : Nat) : Int) = ((sp : Int) + (((0 : Nat) : Int) - r)) + ((2 * r + 1 : Nat) : Int) := by
      push_cast; ring
    rw [← h, this, Int.add_emod_right]
  · have : ((sp + r + 1 : Nat) : Int) = (sp : Int) + (((2 * r + 1 : Nat) : Int) - r) := by push_cast; ring
    rw [← h, this]

/-- The slots of two offsets less than `d` apart differ. -/
theorem slot_ne (sp r j : Nat) (hj : j < 2 * r) :
    (((sp : Int) + (((j + 1 : Nat) : Int) - r)) % ((2 * r + 1 : Nat) : Int)).toNat ≠ (sp + r + 1) % (2 * r + 1) := by
  intro h
  have hd : (0 : Int) < ((2 * r + 1 : Nat) : Int) := by omega
  rw [← (slot_trailing sp r).1] at h
  have h1 := Int.emod_nonneg ((sp : Int) + (((j + 1 : Nat) : Int) - r)) hd.ne'
  have h2 := Int.emod_nonneg ((sp : Int) + (((0 : Nat) : Int) - r)) hd.ne'
  have h3 : ((sp : Int) + (((j + 1 : Nat) : Int) - r)) % ((2 * r + 1 : Nat) : Int)
      = ((sp : Int) + (((0 : Nat) : Int) - r)) % ((2 * r + 1 : Nat) : Int) := by omega
  have h5 : (((2 * r + 1 : Nat) : Int)) ∣ ((sp : Int) + (((j + 1 : Nat) : Int) - r)) - ((sp : Int) + (((0 : Nat) : Int) - r)) :=
    Int.ModEq.dvd (Eq.symm h3)
  have h6 : ((sp : Int) + (((j + 1 : Nat) : Int) - r)) - ((sp : Int) + (((0 : Nat) : Int) - r)) = ((j + 1 : Nat) : Int) := by
    push_cast; ring
  rw [h6, Int.natCast_dvd_natCast] at h5
  have := Nat.le_of_dvd (Nat.succ_pos j) h5
  omega

/-- From the window state at centre `x`, a step that reads the sample at `x + r + 1` leaves the window state at `x + 1`
(R261, R262). -/
theorem refWindow_step (var : Variant) (rd : Nat → Nat) (dst s r : Nat) (hr : r < 256) (p : Int → Nat) (hp : ∀ k, p k < 256)
    (x i : Nat) (c : LineRef) (h : RefWindow var r p x c)
    (hv : (LineRef.stepAt var rd dst s r c i).mem (rd i) = p ((x : Int) + r + 1)) :
    RefWindow var r p (x + 1) (LineRef.stepAt var rd dst s r c i) := by
  obtain ⟨hsp, hws, hout, hin, hsum⟩ := h
  -- what the step leaves, for both variants
  obtain ⟨v, hv0⟩ : ∃ v, v = (LineRef.stepAt var rd dst s r c i).mem (rd i) := ⟨_, rfl⟩
  let t := (c.sp + r + 1) % (2 * r + 1)
  let ws := changed c.ws t v
  let sp := (c.sp + 1) % (2 * r + 1)
  let outsum := wrap32 ((c.outsum : Int) - c.ws t)
  let insum := wrap32 ((c.insum : Int) + v)
  let wsum := match var with
    | .T => wrap32 ((wrap32 ((c.wsum : Int) - c.outsum) : Int) + insum)
    | .U => wrap32 ((wrap32 ((c.wsum : Int) - c.ws t) : Int) + v)
  have hstep : LineRef.stepAt var rd dst s r c i =
      { mem := (LineRef.stepAt var rd dst s r c i).mem, ws := ws, wsum := wsum, insum := wrap32 ((insum : Int) - ws sp)
        outsum := wrap32 ((outsum : Int) + ws sp), sp := sp, pos := i + 1 } := by
    cases var with
    | T =>
      simp only [LineRef.stepAt, LineRef.stepT, LineRef.emit, Nat.zero_add] at hv0
      simp only [LineRef.stepAt, LineRef.stepT, LineRef.emit, Nat.zero_add, ws, sp, outsum, insum, wsum, t, hv0]
    | U =>
      simp only [LineRef.stepAt, LineRef.stepU, LineRef.emit, Nat.sub_self, Nat.min_zero, Nat.zero_mul, Nat.add_zero] at hv0
      simp only [LineRef.stepAt, LineRef.stepU, LineRef.emit, Nat.sub_self, Nat.min_zero, Nat.zero_mul, Nat.add_zero, ws,
        sp, outsum, insum, wsum, t, hv0]
  have hv1 : v = p ((x : Int) + r + 1) := hv0.trans hv
  have hsp' : sp < 2 * r + 1 := Nat.mod_lt _ (by omega)
  have hwt : c.ws t = p ((x : Int) - r) := by
    have := hws 0 (by omega)
    rw [(slot_trailing c.sp r).1] at this
    rw [this]; congr 1; push_cast; ring
  have hws' : ∀ j < 2 * r + 1, ws (((sp : Int) + ((j : Int) - r)) % ((2 * r + 1 : Nat) : Int)).toNat
      = p (((x + 1 : Nat) : Int) + ((j : Int) - r)) := by
    intro j hj
    rw [slot_advance c.sp r j]
    rcases Nat.lt_or_ge j (2 * r) with h | h
    · have hne := slot_ne c.sp r j h
      have := hws (j + 1) (by omega)
      simp only [ws, changed, t, if_neg hne]
      rw [this]; congr 1; push_cast; ring
    · have hj' : j = 2 * r := by omega
      subst hj'
      rw [(slot_trailing c.sp r).2]
      simp only [ws, changed, t, if_true, hv1]
      congr 1; push_cast; ring
  have hu : ws sp = p ((x : Int) + 1) := by
    have := hws' r (by omega)
    have hs : (((sp : Int) + ((r : Int) - r)) % ((2 * r + 1 : Nat) : Int)).toNat = sp := by
      rw [sub_self, add_zero, ← Int.natCast_emod, Int.toNat_natCast, Nat.mod_eq_of_lt hsp']
    rw [hs] at this
    rw [this]; congr 1; push_cast; ring
  have hL := leftSum_succ r p x
  have hR := rightSum_succ r p x
  have bL := leftSum_lt r hr p hp x
  have bL' := leftSum_lt r hr p hp (x + 1)
  have bR := rightSum_lt r hr p hp x
  have bR' := rightSum_lt r hr p hp (x + 1)
  have bp1 := hp ((x : Int) + 1)
  have bp2 := hp ((x : Int) + r + 1)
  have bp3 := hp ((x : Int) - r)
  have bK' := kernelSum_lt var r hr p hp (x + 1)
  have bK := kernelSum_lt var r hr p hp x
  rw [hstep]
  have hx : ((x + 1 : Nat) : Int) = (x : Int) + 1 := by push_cast; rfl
  refine ⟨hsp', hws', ?_, ?_, ?_⟩
  · simp only [outsum, hout, hwt, hu, hx, wrap32]; omega
  · simp only [insum, hin, hv1, hu, hx, wrap32]; omega
  · cases var with
    | T =>
      have hK := kernelSum_triangular_succ r p x
      simp only [wsum, insum, hin, hsum, hout, hv1, hx, wrap32]; omega
    | U =>
      have hK := kernelSum_uniform_succ r p x
      simp only [wsum, hsum, hwt, hv1, hx, wrap32]; omega

/-! ## A whole line (R262, R263) -/

/-- The first `k` steps of SLIDE from the window state at centre 0: every output byte is the kernel, every other byte is as
before, and the window state at centre `k` is left, if the first `k` reads find the samples of the line as it stood. -/
theorem line_steps (var : Variant) (rd : Nat → Nat) (dst s r L : Nat) (hr : r < 256) (p : Int → Nat) (hp : ∀ k, p k < 256)
    (c : LineRef) (h0 : RefWindow var r p 0 c) (hd : ∀ i < L, ∀ j < L, dst + i * s = dst + j * s → i = j)
    (k : Nat) (hk : k ≤ L) (hrd : ∀ i < k, c.mem (rd i) = p ((i : Int) + r + 1) ∧ ∀ j ≤ i, rd i ≠ dst + j * s) :
    let t := (List.range k).foldl (LineRef.stepAt var rd dst s r) c
    RefWindow var r p k t ∧ (∀ x < k, t.mem (dst + x * s) = lineOut var r p x)
      ∧ ∀ a, (∀ j < k, a ≠ dst + j * s) → t.mem a = c.mem a := by
  induction k with
  | zero => exact ⟨h0, fun x hx => absurd hx (Nat.not_lt_zero x), fun a _ => rfl⟩
  | succ k ih =>
    obtain ⟨hw, hout, hframe⟩ := ih (by omega) (fun i hi => hrd i (by omega))
    rw [List.range_succ, List.foldl_append]
    generalize (List.range k).foldl (LineRef.stepAt var rd dst s r) c = t at hw hout hframe ⊢
    simp only [List.foldl_cons, List.foldl_nil]
    have hq : t.wsum / kernelDivisor var r % 256 = lineOut var r p k := by
      rw [hw.2.2.2.2]; exact Nat.mod_eq_of_lt (lineOut_lt var r p hp k)
    have hm := stepAt_mem var rd dst s r t k
    rw [hq] at hm
    obtain ⟨hv, hne⟩ := hrd k (by omega)
    refine ⟨refWindow_step var rd dst s r hr p hp k k t hw ?_, fun x hx => ?_, fun a ha => ?_⟩
    · rw [hm, changed, if_neg (hne k le_rfl), hframe _ (fun j hj => hne j (by omega)), hv]
    · rw [hm, changed]
      rcases Nat.lt_or_ge x k with h | h
      · rw [if_neg (fun he => by have := hd x (by omega) k (by omega) he; omega), hout x h]
      · have : x = k := by omega
        subst this; rw [if_pos rfl]
    · rw [hm, changed, if_neg (ha k (by omega)), hframe a (fun j hj => ha j (by omega))]

/-- The outputs of a whole line: the last step's read does not matter. -/
theorem line_outputs (var : Variant) (rd : Nat → Nat) (dst s r L : Nat) (hr : r < 256) (p : Int → Nat)
    (hp : ∀ k, p k < 256) (c : LineRef) (h0 : RefWindow var r p 0 c)
    (hd : ∀ i < L, ∀ j < L, dst + i * s = dst + j * s → i = j)
    (hrd : ∀ i, i + 1 < L → c.mem (rd i) = p ((i : Int) + r + 1) ∧ ∀ j ≤ i, rd i ≠ dst + j * s) :
    let t := (List.range L).foldl (LineRef.stepAt var rd dst s r) c
    (∀ x < L, t.mem (dst + x * s) = lineOut var r p x) ∧ ∀ a, (∀ j < L, a ≠ dst + j * s) → t.mem a = c.mem a := by
  cases L with
  | zero => exact ⟨fun x hx => absurd hx (Nat.not_lt_zero x), fun a _ => rfl⟩
  | succ k =>
    obtain ⟨hw, hout, hframe⟩ :=
      line_steps var rd dst s r (k + 1) hr p hp c h0 hd k (by omega) (fun i hi => hrd i (by omega))
    rw [List.range_succ, List.foldl_append]
    generalize (List.range k).foldl (LineRef.stepAt var rd dst s r) c = t at hw hout hframe ⊢
    simp only [List.foldl_cons, List.foldl_nil]
    have hq : t.wsum / kernelDivisor var r % 256 = lineOut var r p k := by
      rw [hw.2.2.2.2]; exact Nat.mod_eq_of_lt (lineOut_lt var r p hp k)
    have hm := stepAt_mem var rd dst s r t k
    rw [hq] at hm
    refine ⟨fun x hx => ?_, fun a ha => ?_⟩
    · rw [hm, changed]
      rcases Nat.lt_or_ge x k with h | h
      · rw [if_neg (fun he => by have := hd x (by omega) k (by omega) he; omega), hout x h]
      · have : x = k := by omega
        subst this; rw [if_pos rfl]
    · rw [hm, changed, if_neg (ha k (by omega)), hframe a (fun j hj => ha j (by omega))]

/-- The sample that enters at step `i` is the clamped one. -/
theorem edge_entering (L r i : Nat) (hL : 0 < L) : edge L ((i : Int) + r + 1) = min (i + r + 1) (L - 1) := by
  unfold edge; omega

/-- LINE in place (R301, R263): WINIT, then SLIDE on the same bytes, leaves the kernel of the line at every sample and every
other byte as before; it changes nothing of MAP. For .T, MAP holds the mapping of the line. -/
theorem line_in_place (o : OperandRegs) (rd wr : Nat → Prop) (var : Variant) (base L s r : Nat) (hr : r < 256) (hL : 0 < L)
    (hLm : L ≤ 65535) (hs : 0 < s) (c : Work) (hl : c.vars.latch.Empty)
    (hmap : var = .T → ∀ i < L, (c.vars.map.get i).toNat = min (i + r + 1) (L - 1) * s)
    (hrd : ∀ j < L, rd (base + j * s)) (hwr : ∀ j < L, wr (base + j * s)) :
    ∃ d, Work.Runs o rd wr c (lineSteps var base L s r) d
      ∧ (∀ x < L, (d.mem.read (base + x * s)).toNat = lineOut var r (lineSample c.mem base s L) x)
      ∧ ∀ a, (∀ j < L, a ≠ base + j * s) → d.mem.read a = c.mem.read a := by
  obtain ⟨l, w, hrun, h3, -, h5, h6, h7, h8, -⟩ := runs_winitSteps o rd wr var base L s r hr hL c hl hrd
  let p := lineSample c.mem base s L
  have hp : ∀ k, p k < 256 := fun k => (c.mem.read _).isLt
  let cw : Work := ⟨c.mem, l, w, c.vars.map⟩
  obtain ⟨hL1, -⟩ := runOps_slideSteps o var base base L s r L hr (by omega) cw
  have hrdeq : ∀ i < L, slideReads var base L s r (fun j => (cw.vars.map.get j).toNat) i = base + min (i + r + 1) (L - 1) * s := by
    intro i hi
    cases var with
    | T => simp only [slideReads, cw, hmap rfl i hi]
    | U => rfl
  have h0 : RefWindow var r p 0 (LineRef.ofWork cw) := by
    refine ⟨by simp only [LineRef.ofWork, cw, h8]; omega, fun j hj => ?_, h7, h6, h5⟩
    have hj0 : (((r : Int) + ((j : Int) - r)) % ((2 * r + 1 : Nat) : Int)).toNat = j := by
      rw [add_sub_cancel, ← Int.natCast_emod, Int.toNat_natCast, Nat.mod_eq_of_lt hj]
    simp only [LineRef.ofWork, cw, h8, hj0]
    rw [h3 j hj, Nat.cast_zero, zero_add]
  have hinj : ∀ i < L, ∀ j < L, base + i * s = base + j * s → i = j := by
    intro i _ j _ h
    exact Nat.eq_of_mul_eq_mul_right hs (by omega)
  have hout := line_outputs var (slideReads var base L s r (fun j => (cw.vars.map.get j).toNat)) base s r L hr p hp
    (LineRef.ofWork cw) h0 hinj (fun i hi => by
      rw [hrdeq i (by omega)]
      refine ⟨?_, fun j hj h => ?_⟩
      · show (c.mem.read _).toNat = p _
        simp only [p, lineSample, edge_entering L r i hL]
      · have := hinj _ (by omega) j (by omega) h
        omega)
  rw [← hL1] at hout
  refine ⟨_, hrun.append (runs_slideSteps o rd wr var base base L s r L hr (by omega) cw hwr (fun i hi => ?_)), hout.1,
    fun a ha => BitVec.eq_of_toNat_eq (hout.2 a ha)⟩
  rw [hrdeq i hi]
  exact hrd _ (by omega)

end Sys2Proof.Machine
end

