-- ==== Sys2Proof/Laws/Image.lean ====
section
/-! SUPPORT. What the phases of the whole-image commands leave, in every order of their lines and pixels: the copy, the sweeps
and passes of BLUR (R301, R304), the luma of GREY (R352) and the corrections of DIFFTHR (R355). -/

namespace Sys2Proof.Machine

/-! ## Phases of lines -/

/-- A whole-image command in flight that nothing disturbs. -/
structure Image (f : InFlight) : Prop where
  cmd   : isImage f.cmd = true
  clean : f.tainted = []

/-- A phase of `n` lines that keep to bytes of their own ends, in every order, with the bytes of each line as the line leaves
them by itself. -/
theorem lines_run {f : InFlight} {ps : List Phase} (hf : Image f) (n : Nat) (g : Nat → List MicroOp)
    (rd wr : Nat → Nat → Prop) (fin : Nat → Nat → Byte) (w : LineRegs) (s : State)
    (hs : s.inflight = some { f with todo := phasesOf w [(List.range n).map g] ++ ps }) (hne : ∀ q < n, g q ≠ [])
    (hkeep : ∀ q < n, ∀ op ∈ g q, op.keepsMap)
    (hrun : ∀ q < n, ∃ d, Work.Runs f.snap (rd q) (wr q) ⟨s.mem, Latch.fresh, w, s.win.map⟩ (g q) d
      ∧ ∀ a, wr q a → d.mem.read a = fin q a)
    (hapart : ∀ q < n, ∀ q' < n, q ≠ q' → ∀ a, wr q a → ¬(rd q' a ∨ wr q' a))
    (hok : ∀ q < n, ∀ a, rd q a ∨ wr q a → s.plat.memOk a = true) :
    Reaches s (fun t => s.At f ps t ∧ t.win = s.win ∧ (∀ q < n, ∀ a, wr q a → t.mem.read a = fin q a)
      ∧ ∀ a, (∀ q < n, ¬wr q a) → t.mem.read a = s.mem.read a) := by
  let track : Nat → Track := fun q => ⟨(g q).headD .setWsum, (g q).tail, Latch.fresh, w⟩
  have hcons : ∀ q < n, g q = (track q).next :: (track q).ops := by
    intro q hq
    cases hc : g q with
    | nil => exact absurd hc (hne q hq)
    | cons op ops => simp [track, hc]
  let js : List Job := (List.range n).map (fun q => ⟨track q, rd q, wr q, fin q⟩)
  have htracks : phasesOf w [(List.range n).map g] = (Phase.of? (js.map Job.track)).toList := by
    have hmap : ((List.range n).map g).filterMap (Track.of? Latch.fresh w) = js.map Job.track := by
      rw [List.filterMap_map, List.map_map, ← List.filterMap_eq_map]
      refine List.filterMap_congr (fun q hq => ?_)
      rw [Function.comp_apply, hcons q (List.mem_range.1 hq)]
      rfl
    simp only [phasesOf, List.filterMap_cons, List.filterMap_nil, hmap]
    cases Phase.of? (js.map Job.track) <;> rfl
  rw [htracks] at hs
  have hjs : ∀ j ∈ js, ∃ q < n, j = ⟨track q, rd q, wr q, fin q⟩ := by
    intro j hj
    obtain ⟨q, hq, rfl⟩ := List.mem_map.1 hj
    exact ⟨q, List.mem_range.1 hq, rfl⟩
  have hin : ∀ q < n, (⟨track q, rd q, wr q, fin q⟩ : Job) ∈ js := fun q hq => List.mem_map.2 ⟨q, List.mem_range.2 hq, rfl⟩
  refine (phase_run hf.cmd hf.clean s.remaining js s le_rfl hs (fun j hj => ?_) ?_ (fun j hj => ?_)).imp ?_
  · obtain ⟨q, hq, rfl⟩ := hjs j hj
    obtain ⟨d, hd, hfin⟩ := hrun q hq
    refine ⟨fun op hop => hkeep q hq op (by rw [hcons q hq]; exact hop), ⟨s.mem, Latch.fresh, w, s.win.map⟩, d, ?_, rfl,
      fun _ _ => rfl, hfin⟩
    rw [hcons q hq] at hd
    exact hd
  · rw [List.pairwise_map]
    refine List.Pairwise.imp_of_mem (fun {q q'} hq hq' hlt => ?_) (List.pairwise_lt_range (n := n))
    have h1 := List.mem_range.1 hq
    have h2 := List.mem_range.1 hq'
    exact fun a => ⟨fun h => hapart q h1 q' h2 (by omega) a h.1 h.2, fun h => hapart q' h2 q h1 (by omega) a h.1 h.2⟩
  · obtain ⟨q, hq, rfl⟩ := hjs j hj
    exact hok q hq
  · rintro t ⟨h1, h2, h3, h4⟩
    refine ⟨h1, h2, fun q hq => h3 _ (hin q hq), fun a ha => h4 a (fun j hj => ?_)⟩
    obtain ⟨q, hq, rfl⟩ := hjs j hj
    exact ha q hq

/-- Memory `m'` differs from `m` inside `[base, base + n)` only. -/
def Outside (base n : Nat) (m m' : Memory) : Prop := ∀ a, (∀ q < n, a ≠ base + q) → m'.read a = m.read a

theorem Outside.trans {base n : Nat} {m m' m'' : Memory} (h1 : Outside base n m m') (h2 : Outside base n m' m'') :
    Outside base n m m'' := fun a ha => (h2 a ha).trans (h1 a ha)

theorem Outside.refl (base n : Nat) (m : Memory) : Outside base n m m := fun _ _ => rfl

/-! ## The copy -/

/-- The copy of `n` bytes between disjoint runs (R301). -/
theorem copy_run {f : InFlight} {ps : List Phase} (hf : Image f) (src dst n : Nat) (w : LineRegs) (s : State)
    (hs : s.inflight = some { f with todo := phasesOf w [copyLines src dst n] ++ ps })
    (hd : ∀ q < n, ∀ q' < n, src + q ≠ dst + q') (hsrc : ∀ q < n, s.plat.memOk (src + q) = true)
    (hdst : ∀ q < n, s.plat.memOk (dst + q) = true) :
    Reaches s (fun t => s.At f ps t ∧ (∀ q < n, t.mem.read (dst + q) = s.mem.read (src + q)) ∧ Outside dst n s.mem t.mem) := by
  refine (lines_run hf n (fun q => [.take (src + q), .store (dst + q)]) (fun q a => a = src + q) (fun q a => a = dst + q)
    (fun q _ => s.mem.read (src + q)) w s hs (by simp) ?_ (fun q hq => ⟨_, .step rfl (.step rfl (.done _)), ?_⟩) ?_ ?_).imp ?_
  · intro q _ op hop
    simp only [List.mem_cons, List.not_mem_nil, or_false] at hop
    rcases hop with rfl | rfl <;> exact fun _ _ _ => rfl
  · rintro a rfl
    exact Memory.read_write_self _ _ _
  · rintro q hq q' hq' hne a rfl (h | h)
    · exact hd q' hq' q hq h.symm
    · omega
  · rintro q hq a (rfl | rfl)
    · exact hsrc q hq
    · exact hdst q hq
  · rintro t ⟨h1, -, h3, h4⟩
    exact ⟨h1, fun q hq => h3 q hq _ rfl, fun a ha => h4 a (fun q hq => ha q hq)⟩

/-! ## Sweeps -/

theorem keepsMap_lineSteps (var : Variant) (base L s r : Nat) : ∀ op ∈ lineSteps var base L s r, op.keepsMap := by
  intro op hop
  rcases List.mem_append.1 hop with h | h
  · simp only [winitSteps, List.mem_append, List.mem_map, List.mem_cons, List.not_mem_nil, or_false] at h
    rcases h with (⟨_, -, rfl⟩ | ⟨_, -, rfl⟩) | rfl | rfl | rfl | rfl | rfl <;> exact fun _ _ _ => rfl
  · obtain ⟨i, -, h⟩ := List.mem_flatMap.1 h
    cases var <;>
    · simp only [slideStep, List.mem_cons, List.not_mem_nil, or_false] at h
      rcases h with rfl | rfl | rfl | rfl | rfl | rfl | rfl | rfl | rfl | rfl | rfl <;> exact fun _ _ _ => rfl

/-- A sweep of `m` in-place lines of `L` samples at stride `st`, line `y` at base `b y`, on disjoint bytes. -/
theorem sweep_run {f : InFlight} {ps : List Phase} (hf : Image f) (var : Variant) (L st r m : Nat) (b : Nat → Nat)
    (hr : r < 256) (hL : 0 < L) (hLm : L ≤ 65535) (hst : 0 < st)
    (hdis : ∀ y < m, ∀ y' < m, y ≠ y' → ∀ j < L, ∀ j' < L, b y + j * st ≠ b y' + j' * st) (w : LineRegs) (s : State)
    (hs : s.inflight = some { f with
      todo := phasesOf w [(List.range m).map (fun y => lineSteps var (b y) L st r)] ++ ps })
    (hmap : var = .T → ∀ i < L, (s.win.map.get i).toNat = min (i + r + 1) (L - 1) * st)
    (hok : ∀ y < m, ∀ j < L, s.plat.memOk (b y + j * st) = true) :
    Reaches s (fun t => s.At f ps t
      ∧ (∀ y < m, ∀ x < L, (t.mem.read (b y + x * st)).toNat = lineOut var r (lineSample s.mem (b y) st L) x)
      ∧ ∀ a, (∀ y < m, ∀ j < L, a ≠ b y + j * st) → t.mem.read a = s.mem.read a) := by
  let own : Nat → Nat → Prop := fun y a => ∃ j < L, a = b y + j * st
  have hline := fun y => line_in_place f.snap (own y) (own y) var (b y) L st r hr hL hLm hst
    ⟨s.mem, Latch.fresh, w, s.win.map⟩ Latch.empty_fresh hmap (fun j hj => ⟨j, hj, rfl⟩) (fun j hj => ⟨j, hj, rfl⟩)
  refine (lines_run hf m (fun y => lineSteps var (b y) L st r) own own (fun y => (Classical.choose (hline y)).mem.read) w s hs
    ?_ (fun y _ => keepsMap_lineSteps var (b y) L st r) (fun y _ => ⟨_, (Classical.choose_spec (hline y)).1, fun _ _ => rfl⟩)
    ?_ ?_).imp ?_
  · intro y _ h
    simp [lineSteps, winitSteps] at h
  · rintro y hy y' hy' hne a ⟨j, hj, rfl⟩ (⟨j', hj', he⟩ | ⟨j', hj', he⟩) <;> exact hdis y hy y' hy' hne j hj j' hj' he
  · rintro y hy a (⟨j, hj, rfl⟩ | ⟨j, hj, rfl⟩) <;> exact hok y hy j hj
  · rintro t ⟨h1, -, h3, h4⟩
    refine ⟨h1, fun y hy x hx => ?_, fun a ha => h4 a (fun y hy => ?_)⟩
    · rw [h3 y hy _ ⟨x, hx, rfl⟩]
      exact (Classical.choose_spec (hline y)).2.1 x hx
    · rintro ⟨j, hj, rfl⟩
      exact ha y hy j hj rfl

/-- The mapping of a sweep (R301): memory stays, and for .T MAP holds the mapping. -/
theorem map_run {f : InFlight} {ps : List Phase} (hf : Image f) (var : Variant) (L st r : Nat) (hLm : L ≤ 65535)
    (hst : st ≤ 65535) (w : LineRegs) (s : State)
    (hs : s.inflight = some { f with todo := phasesOf w (sweepMap var L st r) ++ ps }) :
    Reaches s (fun t => s.At f ps t ∧ t.mem = s.mem
      ∧ (var = .T → ∀ i < L, (t.win.map.get i).toNat = min (i + r + 1) (L - 1) * st)) := by
  cases var with
  | U =>
    refine .refl ⟨?_, rfl, fun h => by cases h⟩
    unfold State.At
    rw [← show s.inflight = some { f with todo := ps } from hs]
  | T =>
    obtain ⟨m, hm, hg⟩ := runs_mapSteps f.snap (fun _ => False) (fun _ => False) L st r ⟨s.mem, Latch.fresh, w, s.win.map⟩
    rw [sweepMap, phasesOf_single] at hs
    refine (single_run hm hf.clean s hs rfl (by simp [windowOf, hf.cmd]) (by simp)).imp ?_
    rintro t ⟨h1, h2, h3, -⟩
    refine ⟨h1, h2, fun _ i hi => ?_⟩
    rw [h3]
    show (m.get i).toNat = _
    rw [hg, if_pos hi]
    refine Nat.mod_eq_of_lt ?_
    have : min (i + r + 1) (L - 1) * st ≤ 65535 * 65535 := Nat.mul_le_mul (by omega) hst
    exact lt_of_le_of_lt this (by decide)

/-! ## Passes of BLUR -/

theorem pixel_div {w x y : Nat} (hx : x < w) : (y * w + x) / w = y := by
  rw [Nat.mul_comm, Nat.mul_add_div (by omega), Nat.div_eq_of_lt hx, Nat.add_zero]

theorem pixel_mod {w x y : Nat} (hx : x < w) : (y * w + x) % w = x := by
  rw [Nat.mul_comm, Nat.mul_add_mod, Nat.mod_eq_of_lt hx]

/-- Every pixel is some column of some row. -/
theorem pixel_cases {w h q : Nat} (hw : 0 < w) (hq : q < w * h) : ∃ y x, y < h ∧ x < w ∧ q = y * w + x :=
  ⟨q / w, q % w, Nat.div_lt_of_lt_mul hq, Nat.mod_lt q hw, by rw [Nat.mul_comm]; exact (Nat.div_add_mod q w).symm⟩

/-- The sizes a pass works with. -/
structure PassOk (w h r : Nat) : Prop where
  w0 : 0 < w
  h0 : 0 < h
  wm : w ≤ 65535
  hm : h ≤ 65535
  r  : r < 256

/-- A whole-image command that passes its checks has such sizes. -/
theorem passOk_of_check {i : Instr} {s : State} (h : expectedError i s.ops s.win s.plat = none) (hi : isImage i = true)
    (r : Nat) (hr : r < 256) : PassOk s.ops.width.toNat s.ops.height.toNat r :=
  ⟨(image_dims h hi).1, (image_dims h hi).2, by have := s.ops.width.isLt; omega, by have := s.ops.height.isLt; omega, hr⟩

/-- A horizontal sweep with its mapping (R304). -/
theorem row_run {f : InFlight} {ps : List Phase} (hf : Image f) (var : Variant) (base w h r : Nat) (k : PassOk w h r)
    (regs : LineRegs) (s : State)
    (hs : s.inflight = some { f with todo := phasesOf regs (sweepMap var w 1 r ++ [rowLines var base w h r]) ++ ps })
    (hok : ∀ q < w * h, s.plat.memOk (base + q) = true) :
    Reaches s (fun t => s.At f ps t ∧ (∀ q < w * h, imageAt t.mem base q = rowsOf var r w (imageAt s.mem base) q)
      ∧ Outside base (w * h) s.mem t.mem) := by
  have hdis : ∀ y < h, ∀ y' < h, y ≠ y' → ∀ j < w, ∀ j' < w, base + y * w + j * 1 ≠ base + y' * w + j' * 1 := by
    intro y _ y' _ hne j hj j' hj' he
    have : y * w + j = y' * w + j' := by omega
    exact hne (by rw [← pixel_div (y := y) hj, ← pixel_div (y := y') hj', this])
  rw [phasesOf_append, List.append_assoc] at hs
  refine (map_run hf var w 1 r k.wm (by decide) regs s hs).trans ?_
  rintro t ⟨t1, t2, t3⟩
  refine (sweep_run hf var w 1 r h (fun y => base + y * w) k.r k.w0 k.wm Nat.one_pos hdis regs t t1.inflight t3
    (fun y hy j hj => ?_)).imp ?_
  · have := hok (y * w + j) (pixel_lt hj hy)
    rw [t1.plat, Nat.mul_one, Nat.add_assoc]
    exact this
  · rintro u ⟨u1, u2, u3⟩
    rw [t2] at u2 u3
    refine ⟨t1.trans u1, fun q hq => ?_, fun a ha => u3 a (fun y hy j hj => ?_)⟩
    · obtain ⟨y, x, hy, hx, rfl⟩ := pixel_cases k.w0 hq
      have := u2 y hy x hx
      rw [Nat.mul_one, Nat.add_assoc] at this
      refine (show imageAt u.mem base (y * w + x) = _ from this).trans ?_
      simp only [rowsOf, pixel_div hx, pixel_mod hx]
      congr 1
      funext j
      simp only [lineSample, imageAt, Nat.mul_one, Nat.add_assoc]
    · have := ha (y * w + j) (pixel_lt hj hy)
      omega

/-- A vertical sweep with its mapping (R304). -/
theorem column_run {f : InFlight} {ps : List Phase} (hf : Image f) (var : Variant) (base w h r : Nat) (k : PassOk w h r)
    (regs : LineRegs) (s : State)
    (hs : s.inflight = some { f with todo := phasesOf regs (sweepMap var h w r ++ [columnLines var base w h r]) ++ ps })
    (hok : ∀ q < w * h, s.plat.memOk (base + q) = true) :
    Reaches s (fun t => s.At f ps t ∧ (∀ q < w * h, imageAt t.mem base q = columnsOf var r w h (imageAt s.mem base) q)
      ∧ Outside base (w * h) s.mem t.mem) := by
  have hdis : ∀ x < w, ∀ x' < w, x ≠ x' → ∀ j < h, ∀ j' < h, base + x + j * w ≠ base + x' + j' * w := by
    intro x hx x' hx' hne j _ j' _ he
    have : j * w + x = j' * w + x' := by omega
    exact hne (by rw [← pixel_mod (y := j) hx, ← pixel_mod (y := j') hx', this])
  rw [phasesOf_append, List.append_assoc] at hs
  refine (map_run hf var h w r k.hm k.wm regs s hs).trans ?_
  rintro t ⟨t1, t2, t3⟩
  refine (sweep_run hf var h w r w (fun x => base + x) k.r k.h0 k.hm k.w0 hdis regs t t1.inflight t3
    (fun x hx j hj => ?_)).imp ?_
  · have := hok (j * w + x) (pixel_lt hx hj)
    rw [t1.plat, Nat.add_assoc, Nat.add_comm x]
    exact this
  · rintro u ⟨u1, u2, u3⟩
    rw [t2] at u2 u3
    refine ⟨t1.trans u1, fun q hq => ?_, fun a ha => u3 a (fun x hx j hj => ?_)⟩
    · obtain ⟨y, x, hy, hx, rfl⟩ := pixel_cases k.w0 hq
      have := u2 x hx y hy
      rw [Nat.add_assoc, Nat.add_comm x] at this
      refine (show imageAt u.mem base (y * w + x) = _ from this).trans ?_
      simp only [columnsOf, pixel_div hx, pixel_mod hx]
      congr 1
      funext j
      simp only [lineSample, imageAt]
      congr 2
      omega
    · have := ha (j * w + x) (pixel_lt hx hj)
      omega

/-- A sweep's result depends only on the image's own samples. -/
theorem rowsOf_congr (var : Variant) (r w h : Nat) {I J : Nat → Nat} (hw : 0 < w) (hIJ : ∀ q < w * h, I q = J q) :
    ∀ q < w * h, rowsOf var r w I q = rowsOf var r w J q := by
  intro q hq
  obtain ⟨y, x, hy, hx, rfl⟩ := pixel_cases hw hq
  simp only [rowsOf, pixel_div hx, pixel_mod hx]
  congr 1
  funext j
  exact hIJ _ (pixel_lt (by unfold edge; omega) hy)

theorem columnsOf_congr (var : Variant) (r w h : Nat) {I J : Nat → Nat} (hw : 0 < w) (hh : 0 < h)
    (hIJ : ∀ q < w * h, I q = J q) : ∀ q < w * h, columnsOf var r w h I q = columnsOf var r w h J q := by
  intro q hq
  obtain ⟨y, x, hy, hx, rfl⟩ := pixel_cases hw hq
  simp only [columnsOf, pixel_div hx, pixel_mod hx]
  congr 1
  funext j
  exact hIJ _ (pixel_lt hx (by unfold edge; omega))

/-- One more pass, at the end. -/
theorem blurred_succ (var : Variant) (r w h k : Nat) (I : Nat → Nat) :
    blurred var r w h (k + 1) I = columnsOf var r w h (rowsOf var r w (blurred var r w h k I)) := by
  induction k generalizing I with
  | zero => rfl
  | succ k ih => rw [blurred, ih, ← blurred]

theorem blurred_congr (var : Variant) (r w h k : Nat) {I J : Nat → Nat} (hw : 0 < w) (hh : 0 < h)
    (hIJ : ∀ q < w * h, I q = J q) : ∀ q < w * h, blurred var r w h k I q = blurred var r w h k J q := by
  induction k generalizing I J with
  | zero => exact hIJ
  | succ k ih => exact ih (columnsOf_congr var r w h hw hh (rowsOf_congr var r w h hw hIJ))

/-- The passes of BLUR (R304). -/
theorem passes_run {f : InFlight} {ps : List Phase} (hf : Image f) (var : Variant) (base w h r : Nat) (k : PassOk w h r)
    (regs : LineRegs) (n : Nat) : ∀ s : State,
    s.inflight = some { f with todo := phasesOf regs (List.replicate n (passPhases var base w h r)).flatten ++ ps } →
    (∀ q < w * h, s.plat.memOk (base + q) = true) →
    Reaches s (fun t => s.At f ps t ∧ (∀ q < w * h, imageAt t.mem base q = blurred var r w h n (imageAt s.mem base) q)
      ∧ Outside base (w * h) s.mem t.mem) := by
  induction n with
  | zero =>
    intro s hs _
    refine .refl ⟨?_, fun _ _ => rfl, .refl _ _ _⟩
    unfold State.At
    rw [← show s.inflight = some { f with todo := ps } from hs]
  | succ n ih =>
    intro s hs hok
    rw [List.replicate_succ, List.flatten_cons, passPhases, phasesOf_append, phasesOf_append, List.append_assoc,
      List.append_assoc] at hs
    refine (row_run hf var base w h r k regs s hs hok).trans ?_
    rintro t ⟨t1, t2, t3⟩
    refine (column_run hf var base w h r k regs t t1.inflight (by rw [t1.plat]; exact hok)).trans ?_
    rintro u ⟨u1, u2, u3⟩
    refine (ih u u1.inflight (by rw [u1.plat, t1.plat]; exact hok)).imp ?_
    rintro v ⟨v1, v2, v3⟩
    refine ⟨(t1.trans u1).trans v1, fun q hq => ?_, (t3.trans u3).trans v3⟩
    rw [v2 q hq, blurred]
    refine blurred_congr var r w h n k.w0 k.h0 (fun q' hq' => ?_) q hq
    rw [u2 q' hq']
    exact columnsOf_congr var r w h k.w0 k.h0 t2 q' hq'

/-- BLUR's phases (R301 to R304): with `r = 0` only the copy is left. -/
theorem blur_run {f : InFlight} {ps : List Phase} (hf : Image f) (var : Variant) (src dst w h r steps : Nat)
    (k : PassOk w h r) (regs : LineRegs) (s : State)
    (hs : s.inflight = some { f with todo := phasesOf regs (blurPhases var src dst w h r steps) ++ ps })
    (hd : ∀ q < w * h, ∀ q' < w * h, src + q ≠ dst + q') (hsrc : ∀ q < w * h, s.plat.memOk (src + q) = true)
    (hdst : ∀ q < w * h, s.plat.memOk (dst + q) = true) :
    Reaches s (fun t => s.At f ps t
      ∧ (∀ q < w * h, imageAt t.mem dst q = blurred var r w h (if r = 0 then 0 else steps) (imageAt s.mem src) q)
      ∧ Outside dst (w * h) s.mem t.mem) := by
  rw [blurPhases, ← List.singleton_append, phasesOf_append, List.append_assoc] at hs
  refine (copy_run hf src dst (w * h) regs s hs hd hsrc hdst).trans ?_
  rintro t ⟨t1, t2, t3⟩
  have himg : ∀ q < w * h, imageAt t.mem dst q = imageAt s.mem src q := fun q hq => congrArg BitVec.toNat (t2 q hq)
  by_cases h0 : r = 0
  · have ht := t1.inflight
    simp only [if_pos h0] at ht ⊢
    refine .refl ⟨?_, himg, t3⟩
    unfold State.At at t1 ⊢
    rw [t1]
    simp only [if_pos h0]
    rfl
  · have ht := t1.inflight
    simp only [if_neg h0] at ht ⊢
    refine (passes_run hf var dst w h r k regs steps t ht (by rw [t1.plat]; exact hdst)).imp ?_
    rintro u ⟨u1, u2, u3⟩
    exact ⟨t1.trans u1, fun q hq => (u2 q hq).trans (blurred_congr var r w h steps k.w0 k.h0 himg q hq), t3.trans u3⟩

/-- A flat image stays flat (R305). -/
theorem blurred_const (var : Variant) (r w h k c : Nat) (I : Nat → Nat) (hw : 0 < w) (hh : 0 < h)
    (hI : ∀ q < w * h, I q = c) : ∀ q < w * h, blurred var r w h k I q = c := by
  intro q hq
  rw [blurred_congr var r w h k (J := fun _ => c) hw hh hI q hq]
  have : ∀ k, blurred var r w h k (fun _ => c) = fun _ => c := by
    intro k
    induction k with
    | zero => rfl
    | succ k ih =>
      rw [blurred_succ, ih]
      funext q
      exact lineOut_const var r c _ _ (fun _ => lineOut_const var r c _ _ (fun _ => rfl))
  rw [this]

/-! ## GREY -/

theorem greyAt_lt (m : Memory) (src q : Nat) : greyAt m src q < 256 := by
  have h1 := (m.read (src + 4 * q)).isLt
  have h2 := (m.read (src + 4 * q + 1)).isLt
  have h3 := (m.read (src + 4 * q + 2)).isLt
  unfold greyAt
  omega

theorem luma_toNat (m : Memory) (src q : Nat) :
    (luma (m.read (src + 4 * q)) (m.read (src + 4 * q + 1)) (m.read (src + 4 * q + 2))).toNat = greyAt m src q := by
  have h := greyAt_lt m src q
  rw [luma, Nat.shiftRight_eq_div_pow, BitVec.toNat_ofNat]
  exact Nat.mod_eq_of_lt h

/-- GREY's pixels (R352). -/
theorem grey_run {f : InFlight} {ps : List Phase} (hf : Image f) (src dst n : Nat) (regs : LineRegs) (s : State)
    (hs : s.inflight = some { f with todo := phasesOf regs [greyLines src dst n] ++ ps })
    (hd : ∀ a < 4 * n, ∀ q < n, src + a ≠ dst + q) (hsrc : ∀ q < n, ∀ j < 3, s.plat.memOk (src + 4 * q + j) = true)
    (hdst : ∀ q < n, s.plat.memOk (dst + q) = true) :
    Reaches s (fun t => s.At f ps t ∧ (∀ q < n, imageAt t.mem dst q = greyAt s.mem src q) ∧ Outside dst n s.mem t.mem) := by
  refine (lines_run hf n
    (fun q => [.loadRed (src + 4 * q), .loadGreen (src + 4 * q + 1), .loadBlue (src + 4 * q + 2), .storeLuma (dst + q)])
    (fun q a => ∃ j < 3, a = src + 4 * q + j) (fun q a => a = dst + q)
    (fun q _ => luma (s.mem.read (src + 4 * q)) (s.mem.read (src + 4 * q + 1)) (s.mem.read (src + 4 * q + 2))) regs s hs
    (by simp) ?_
    (fun q hq => ⟨_, .step ⟨0, by omega, rfl⟩ (.step ⟨1, by omega, rfl⟩ (.step ⟨2, by omega, rfl⟩ (.step rfl (.done _)))), ?_⟩)
    ?_ ?_).imp ?_
  · intro q _ op hop
    simp only [List.mem_cons, List.not_mem_nil, or_false] at hop
    rcases hop with rfl | rfl | rfl | rfl <;> exact fun _ _ _ => rfl
  · rintro a rfl
    exact Memory.read_write_self _ _ _
  · rintro q hq q' hq' hne a rfl (⟨j, hj, h⟩ | h)
    · exact hd (4 * q' + j) (by omega) q hq (by omega)
    · omega
  · rintro q hq a (⟨j, hj, rfl⟩ | rfl)
    · exact hsrc q hq j hj
    · exact hdst q hq
  · rintro t ⟨h1, -, h3, h4⟩
    refine ⟨h1, fun q hq => ?_, fun a ha => h4 a (fun q hq => ha q hq)⟩
    simp only [imageAt]
    rw [h3 q hq _ rfl, luma_toNat]

/-! ## DIFFTHR -/

theorem correctedLane_toNat (v : Byte) (x : Int) : ((correctedLane v x).toNat : Int) = min (max ((v.toNat : Int) + x) 0) 255 := by
  rw [correctedLane, clamp, BitVec.toNat_ofInt]
  have : (0 : Int) ≤ min (max ((v.toNat : Int) + x) 0) 255 := by omega
  have : min (max ((v.toNat : Int) + x) 0) 255 ≤ 255 := by omega
  omega

/-- A lane `v` of a pixel with luma `g` and blurred luma `b` after DIFFTHR. -/
def laneAfter (o : OperandRegs) (g b v : Byte) : Byte :=
  if exceeds g b o.threshold.toNat then correctedLane v (corrOf (lumaDiff g b) o.amount.toNat) else v

/-- The lane update is the correction of R353 to R355. -/
theorem laneAfter_corrected (o : OperandRegs) (g b v : Byte) :
    ((laneAfter o g b v).toNat : Int) = corrected o.amount.toNat o.threshold.toNat g.toNat b.toNat v.toNat := by
  unfold laneAfter exceeds corrected
  by_cases h : o.threshold.toNat < (lumaDiff g b).natAbs
  · rw [if_pos (decide_eq_true h), correctedLane_toNat]
    exact (if_pos h).symm
  · rw [if_neg (by simpa using h)]
    exact (if_neg h).symm

/-- One pixel of DIFFTHR: the three lanes take their corrections. -/
theorem pixel_runs (o : OperandRegs) (rd wr : Nat → Prop) (g b a : Nat) (m : Memory) (w : LineRegs) (map : Ram 32)
    (hg : rd g) (hb : rd b) (ha : exceeds (m.read g) (m.read b) o.threshold.toNat = true → ∀ j < 3, rd (a + j) ∧ wr (a + j)) :
    ∃ d, Work.Runs o rd wr ⟨m, Latch.fresh, w, map⟩ [.loadLuma g, .loadBlurred b a] d
      ∧ ∀ j < 3, d.mem.read (a + j) = laneAfter o (m.read g) (m.read b) (m.read (a + j)) := by
  let c : Work := ((⟨m, Latch.fresh, w, map⟩ : Work).step o (.loadLuma g)).step o (.loadBlurred b a)
  obtain ⟨d, hd, hm⟩ : ∃ d, Work.Runs o rd wr c (if exceeds (m.read g) (m.read b) o.threshold.toNat then laneSteps a else []) d
      ∧ ∀ j < 3, d.mem.read (a + j) = laneAfter o (m.read g) (m.read b) (m.read (a + j)) := by
    unfold laneAfter
    cases he : exceeds (m.read g) (m.read b) o.threshold.toNat with
    | false => exact ⟨c, .done c, fun j _ => rfl⟩
    | true =>
      have h0 := ha he 0 (by omega)
      have h1 := ha he 1 (by omega)
      have h2 := ha he 2 (by omega)
      refine ⟨_, .step h0.1 (.step h0.2 (.step h1.1 (.step h1.2 (.step h2.1 (.step h2.2 (.done _)))))), fun j hj => ?_⟩
      let x := corrOf (lumaDiff (m.read g) (m.read b)) o.amount.toNat
      let m1 := m.write a (correctedLane (m.read a) x)
      let m2 := m1.write (a + 1) (correctedLane (m1.read (a + 1)) x)
      show (m2.write (a + 2) (correctedLane (m2.read (a + 2)) x)).read (a + j) = correctedLane (m.read (a + j)) x
      simp only [m2, m1, Memory.read_write]
      have : j = 0 ∨ j = 1 ∨ j = 2 := by omega
      rcases this with rfl | rfl | rfl <;> simp
  refine ⟨d, .step hg (.step hb ?_), hm⟩
  rw [List.append_nil]
  exact hd

/-- DIFFTHR's pixels (R355). -/
theorem diffthr_run {f : InFlight} {ps : List Phase} (hf : Image f) (src work n : Nat) (regs : LineRegs) (s : State)
    (hs : s.inflight = some { f with todo := phasesOf regs [diffthrLines src work n] ++ ps })
    (hd : ∀ a < 4 * n, ∀ q < 2 * n, src + a ≠ work + q) (hw : ∀ q < 2 * n, s.plat.memOk (work + q) = true)
    (hok : ∀ q < n, exceeds (s.mem.read (work + q)) (s.mem.read (work + n + q)) f.snap.threshold.toNat = true →
      ∀ j < 3, s.plat.memOk (src + 4 * q + j) = true) :
    Reaches s (fun t => s.At f ps t
      ∧ (∀ q < n, ∀ j < 3, t.mem.read (src + 4 * q + j)
          = laneAfter f.snap (s.mem.read (work + q)) (s.mem.read (work + n + q)) (s.mem.read (src + 4 * q + j)))
      ∧ ∀ a, (∀ q < n, ∀ j < 3, a ≠ src + 4 * q + j) → t.mem.read a = s.mem.read a) := by
  let lane : Nat → Nat → Prop := fun q a =>
    exceeds (s.mem.read (work + q)) (s.mem.read (work + n + q)) f.snap.threshold.toNat = true ∧ ∃ j < 3, a = src + 4 * q + j
  let luma : Nat → Nat → Prop := fun q a => a = work + q ∨ a = work + n + q
  let fin : Nat → Nat → Byte := fun q a =>
    laneAfter f.snap (s.mem.read (work + q)) (s.mem.read (work + n + q)) (s.mem.read a)
  refine (lines_run hf n (fun q => [.loadLuma (work + q), .loadBlurred (work + n + q) (src + 4 * q)])
    (fun q a => luma q a ∨ lane q a) lane fin regs s hs (by simp) ?_ (fun q hq => ?_) ?_ ?_).imp ?_
  · intro q _ op hop
    simp only [List.mem_cons, List.not_mem_nil, or_false] at hop
    rcases hop with rfl | rfl <;> exact fun _ _ _ => rfl
  · obtain ⟨d, h1, h2⟩ := pixel_runs f.snap (fun a => luma q a ∨ lane q a) (lane q) (work + q) (work + n + q) (src + 4 * q)
      s.mem regs s.win.map (.inl (.inl rfl)) (.inl (.inr rfl))
      (fun he j hj => ⟨.inr ⟨he, j, hj, rfl⟩, he, j, hj, rfl⟩)
    refine ⟨d, h1, ?_⟩
    rintro a ⟨-, j, hj, rfl⟩
    exact h2 j hj
  · rintro q hq q' hq' hne a ⟨-, j, hj, rfl⟩ (((h | h) | ⟨-, j', hj', h⟩) | ⟨-, j', hj', h⟩)
    · exact hd (4 * q + j) (by omega) q' (by omega) (by omega)
    · exact hd (4 * q + j) (by omega) (n + q') (by omega) (by omega)
    · omega
    · omega
  · rintro q hq a (((rfl | rfl) | ⟨he, j, hj, rfl⟩) | ⟨he, j, hj, rfl⟩)
    · exact hw q (by omega)
    · rw [Nat.add_assoc]; exact hw (n + q) (by omega)
    · exact hok q hq he j hj
    · exact hok q hq he j hj
  · rintro t ⟨h1, -, h3, h4⟩
    refine ⟨h1, fun q hq j hj => ?_, fun a ha => h4 a ?_⟩
    · by_cases he : exceeds (s.mem.read (work + q)) (s.mem.read (work + n + q)) f.snap.threshold.toNat = true
      · exact h3 q hq _ ⟨he, j, hj, rfl⟩
      · rw [h4 _ ?_, laneAfter, if_neg he]
        rintro q' hq' ⟨he', j', hj', h⟩
        have : q = q' := by omega
        exact he (this ▸ he')
    · rintro q hq ⟨-, j, hj, rfl⟩
      exact ha q hq j hj rfl

end Sys2Proof.Machine
end

