-- ==== Sys2Proof/Laws/BusError.lean ====
section
/-! SUPPORT. Bus errors of the whole-image commands (R431). A run is compared with the run on another platform: where that one
ends without an error, the run either ends so too or stops at a byte that only the other platform answers. So a step that stays
pending until it fails, on a command that ends without error where its footprint answers, gives E_BUSERR. -/

namespace Sys2Proof.Machine

/-- The state on another platform. -/
def State.onPlat (p : Platform) (s : State) : State := { s with plat := p }

/-! ## A step on two platforms -/

theorem engineRead_onPlat (p : Platform) {a : Nat} {s : State} {r : Byte × State} (hp : p.memOk a = true)
    (h : engineRead a s = .ok r) : engineRead a (s.onPlat p) = .ok (r.1, r.2.onPlat p) := by
  unfold engineRead at h ⊢
  rw [show (s.onPlat p).plat.memOk a = true from hp, show (s.onPlat p).isTainted a = s.isTainted a from rfl, if_pos rfl]
  split at h
  · split at h
    · next ht => cases h; rw [if_pos ht]; rfl
    · next ht => cases h; rw [if_neg ht]; rfl
  · cases h

theorem engineWrite_onPlat (p : Platform) {a : Nat} {w : Byte} {s u : State} (hp : p.memOk a = true)
    (h : engineWrite a w s = .ok u) : engineWrite a w (s.onPlat p) = .ok (u.onPlat p) := by
  unfold engineWrite at h ⊢
  rw [show (s.onPlat p).plat.memOk a = true from hp, if_pos rfl]
  split at h
  · cases h; rfl
  · cases h

/-- A step that succeeds on one platform does the same on the other, or fails there. -/
theorem trackStep_onPlat_ok (p : Platform) {f : InFlight} {t : Track} {us : List Track} {ps : List Phase} {s u : State}
    (h : trackStep f t us ps s = .ok u) :
    trackStep f t us ps (s.onPlat p) = .ok (u.onPlat p) ∨ ∃ a, trackStep f t us ps (s.onPlat p) = .error a := by
  unfold trackStep at h ⊢
  rw [show f.vars t (s.onPlat p) = f.vars t s from rfl]
  split at h
  · cases h; exact .inl rfl
  · next a _ =>
    cases hp : p.memOk a with
    | false => exact .inr ⟨a, by simp [engineRead, State.onPlat, hp]⟩
    | true =>
      split at h
      · cases h
      · next b s1 hr => cases h; exact .inl (by rw [engineRead_onPlat p hp hr]; rfl)
  · next a w _ =>
    cases hp : p.memOk a with
    | false => exact .inr ⟨a, by simp [engineWrite, State.onPlat, hp]⟩
    | true =>
      split at h
      · cases h
      · next s1 hr => cases h; exact .inl (by rw [engineWrite_onPlat p hp hr]; rfl)

/-- A step that fails at `a` fails there on the other platform too, unless that one answers at `a`. -/
theorem trackStep_onPlat_error (p : Platform) {f : InFlight} {t : Track} {us : List Track} {ps : List Phase} {s : State}
    {a : Nat} (h : trackStep f t us ps s = .error a) :
    p.memOk a = true ∨ trackStep f t us ps (s.onPlat p) = .error a := by
  cases hp : p.memOk a with
  | true => exact .inl rfl
  | false =>
    right
    obtain ⟨h1, -⟩ := trackStep_error h
    unfold trackStep
    rw [show f.vars t (s.onPlat p) = f.vars t s from rfl]
    rcases h1 with h1 | ⟨v, h1⟩ <;> rw [h1]
    · simp [engineRead, State.onPlat, hp]
    · simp [engineWrite, State.onPlat, hp]

/-- One engine step on both platforms takes the same track. -/
theorem engineStep_onPlat {u : State} {f : InFlight} {p : Phase} {ps : List Phase} (hi : u.inflight = some f)
    (ht : f.todo = p :: ps) (q : Platform) :
    ∃ t us o, o <:+ u.order ∧ (t :: us).Perm p.tracks
      ∧ (engineStep u = match trackStep f t us ps { u with order := o } with
          | .ok v => v
          | .error a => busError f a { u with order := o })
      ∧ (engineStep (u.onPlat q) = match trackStep f t us ps (State.onPlat q { u with order := o }) with
          | .ok v => v
          | .error a => busError f a (State.onPlat q { u with order := o })) := by
  obtain ⟨o, h1, -, h3⟩ := choose_order p.others.length u
  have h4 : (u.onPlat q).choose p.others.length
      = ((u.choose p.others.length).1, State.onPlat q { u with order := o }) := by
    have e : (u.choose p.others.length).2 = { u with order := o } := h3
    rw [← e]
    unfold State.choose
    split
    · rfl
    · rw [show (u.onPlat q).order = u.order from rfl]
      cases u.order <;> rfl
  exact ⟨(pick (u.choose p.others.length).1 p.head p.others).1, (pick (u.choose p.others.length).1 p.head p.others).2, o, h1,
    pick_perm _ _ _, engineStep_pick hi ht (Prod.ext rfl h3) rfl, engineStep_pick (s := u.onPlat q) hi ht h4 rfl⟩

/-! ## A run on two platforms -/

/-- What holds of a command in flight that is not at its end, and is kept by every step that does not fail. -/
structure Persists (P : State → Prop) : Prop where
  live : ∀ u, P u → ∃ f p ps, u.inflight = some f ∧ f.todo = p :: ps
  step : ∀ u f p ps t us o v, P u → u.inflight = some f → f.todo = p :: ps → (t :: us).Perm p.tracks →
    trackStep f t us ps { u with order := o } = .ok v → engineStep u = v → P v

theorem noError_after_step (s : State) (h : (engineRun s.remaining s).flags.err = false) :
    (engineRun (engineStep s).remaining (engineStep s)).flags.err = false := by
  have h1 : (engineRun s.remaining s).inflight = none := engineRun_ends _ _ le_rfl
  have h2 : (engineRun ((engineStep s).remaining + 1) s).inflight = none := by
    rw [engineRun_succ]; exact engineRun_ends _ _ le_rfl
  rw [engineRun_unique h1 h2, engineRun_succ] at h
  exact h

theorem noError_not_busError (f : InFlight) (a : Nat) (s v : State) (he : engineStep s = busError f a v)
    (h : (engineRun s.remaining s).flags.err = false) : False := by
  have := noError_after_step s h
  rw [he, engineRun_idle _ _ (by rw [busError_frame]), busError_frame] at this
  cases this

/-- If the run on platform `q` ends without an error, a run that persists comes to a step that fails at a byte only `q`
answers. -/
theorem Persists.busError (q : Platform) {P : State → Prop} (hP : Persists P) (N : Nat) :
    ∀ u, u.remaining ≤ N → P u → (engineRun (u.onPlat q).remaining (u.onPlat q)).flags.err = false →
    ∃ m f o a, P (engineRun m u) ∧ (engineRun m u).inflight = some f ∧ o <:+ (engineRun m u).order
      ∧ engineRun (m + 1) u = busError f a { engineRun m u with order := o }
      ∧ (engineRun m u).plat.memOk a = false ∧ q.memOk a = true := by
  induction N with
  | zero =>
    intro u hN hp _
    obtain ⟨f, p, ps, h1, -⟩ := hP.live u hp
    simp [State.remaining, h1] at hN
  | succ N ih =>
    intro u hN hp hg
    obtain ⟨f, p, ps, h1, h2⟩ := hP.live u hp
    obtain ⟨t, us, o, ho, hk, he, heq⟩ := engineStep_onPlat h1 h2 q
    cases hm : trackStep f t us ps { u with order := o } with
    | ok v =>
      have hv := hP.step u f p ps t us o v hp h1 h2 hk hm (by rw [he, hm])
      rw [hm] at he
      simp only at he
      rcases trackStep_onPlat_ok q hm with h | ⟨a, h⟩
      · rw [h] at heq
        have hg' := noError_after_step _ hg
        rw [heq] at hg'
        have hlt := engineStep_remaining u (by rw [he]; obtain ⟨f', _, _, hf', -⟩ := hP.live v hv; rw [hf']; simp)
        rw [he] at hlt
        obtain ⟨m, f', o', a, r1, r2, r3, r4, r5, r6⟩ := ih v (by omega) hv hg'
        refine ⟨m + 1, f', o', a, ?_⟩
        simp only [engineRun_succ _ u, he]
        exact ⟨r1, r2, r3, r4, r5, r6⟩
      · rw [h] at heq; exact (noError_not_busError f a _ _ heq hg).elim
    | error a =>
      rw [hm] at he
      rcases trackStep_onPlat_error q hm with h | h
      · exact ⟨0, f, o, a, hp, h1, ho, by rw [engineRun_succ]; exact he, (trackStep_error hm).2, h⟩
      · rw [h] at heq; exact (noError_not_busError f a _ _ heq hg).elim

/-! ## The platform where exactly a footprint answers -/

theorem exists_holes (N : Nat) (l : List Nat) :
    ∃ hs : List Region, ∀ a < N, (hs.any (Region.holds · a) = true ↔ a ∉ l) := by
  refine ⟨((List.range N).filter (fun a => a ∉ l)).map (fun a => ⟨a, 1⟩), fun a ha => ?_⟩
  simp only [List.any_map, List.any_eq_true, List.mem_filter, List.mem_range, Function.comp_apply, decide_eq_true_eq]
  constructor
  · rintro ⟨x, ⟨-, hx⟩, hh⟩
    have : x = a := by simp [Region.holds] at hh; omega
    exact this ▸ hx
  · intro h; exact ⟨a, ⟨ha, h⟩, by simp [Region.holds]⟩

theorem exists_platform (p : Platform) (l : List Nat) :
    ∃ q : Platform, q.maxLine = p.maxLine ∧ q.regBase = p.regBase ∧ q.devices = p.devices ∧ q.coherent = p.coherent
      ∧ q.cacheBytes = p.cacheBytes ∧ ∀ a < Config.spaceBytes, (q.memOk a = true ↔ a ∈ l) := by
  obtain ⟨hs, h⟩ := exists_holes Config.spaceBytes l
  refine ⟨{ p with holes := hs }, rfl, rfl, rfl, rfl, rfl, fun a ha => ?_⟩
  have := h a ha
  unfold Platform.memOk
  rw [Bool.and_eq_true, decide_eq_true_eq, Bool.not_eq_true', ← Bool.not_eq_true]
  show (a < Config.spaceBytes ∧ ¬hs.any (Region.holds · a) = true) ↔ _
  rw [this, not_not]
  exact ⟨fun h => h.2, fun h => ⟨ha, h⟩⟩

theorem expectedError_maxLine (i : Instr) (o : OperandRegs) (w : Window) (p q : Platform) (h : q.maxLine = p.maxLine) :
    expectedError i o w q = expectedError i o w p := by
  obtain ⟨a, b, c, d, e, f⟩ := p
  obtain ⟨a', b', c', d', e', f'⟩ := q
  obtain rfl : b' = b := h
  cases i <;> rfl

/-- The footprint of an accepted whole-image command stays inside the data space (R163). -/
theorem image_footprint_lt {i : Instr} {s : State} (h : expectedError i s.ops s.win s.plat = none) (hi : isImage i = true) :
    ∀ a ∈ (s.footprint i).reads ++ (s.footprint i).writes, a < Config.spaceBytes := by
  intro a ha
  have hd := image_dims h hi
  have hn := n_pos (o := s.ops) (by omega) (by omega)
  unfold Config.spaceBytes
  have sp : ∀ {b m}, a ∈ span b m → a < b + m := by
    intro b m hm; obtain ⟨q, hq, he⟩ := mem_span.1 hm; omega
  have cp : ∀ {b m}, a ∈ colourAddrs b m → a < b + 4 * m := by
    intro b m hm; obtain ⟨q, hq, c, hc, he⟩ := mem_colourAddrs.1 hm; omega
  cases i <;> first | (exfalso; revert hi; decide) | skip
  all_goals
    simp only [expectedError, ite_eq_iff, reduceCtorEq, and_false, false_or, and_true, not_not] at h
    simp only [State.footprint, footprintOf, List.mem_append] at ha
  · rcases ha with (ha | ha) | ha <;> have := sp ha <;> omega
  · rcases ha with (ha | ha) | ha <;> have := sp ha <;> omega
  · rcases ha with ha | ha
    · have := cp ha; omega
    · have := sp ha; omega
  · rcases ha with (ha | ha) | ha
    · have := sp ha; omega
    · have := cp ha; omega
    · have := cp ha; omega
  · rcases ha with (ha | ha) | (ha | ha)
    · have := cp ha; omega
    · have := sp ha; omega
    · have := cp ha; omega
    · have := sp ha; omega

/-! ## Steps that stay pending -/

/-- The byte that a step of a whole-image command accesses, where the step alone says it. -/
def MicroOp.static : MicroOp → Option Nat
  | .sample _ _ _ a | .take a | .loadRed a | .loadGreen a | .loadBlue a | .loadLuma a | .loadBlurred a _ => some a
  | .emit _ _ a | .store a | .storeLuma a | .storeLane a => some a
  | .setMap _ _ | .fillSlot _ | .setWsum | .setInsum | .setOutsum | .setSp _ | .setPos _ | .dropLeft | .dropLeaving _
  | .dropSample _ | .takeMapped _ _ | .enterSlot _ | .enterInsum | .addRight | .addSample | .advanceSp _ | .centreOut
  | .centreIn => none

theorem MicroOp.static_access {op : MicroOp} {a : Nat} (h : op.static = some a) (v : Vars) :
    op.access v = .read a ∨ ∃ x, op.access v = .write a x := by
  cases op <;> simp_all [MicroOp.static, MicroOp.access]

theorem trackStep_static {f : InFlight} {t : Track} {us : List Track} {ps : List Phase} {u v : State} {b : Nat}
    (h : t.next.static = some b) (hb : u.plat.memOk b = false) : trackStep f t us ps u ≠ .ok v := by
  intro ht
  have hacc := MicroOp.static_access h (f.vars t u)
  unfold trackStep at ht
  rcases hacc with h | ⟨x, h⟩ <;> rw [h] at ht
  · simp [engineRead, hb] at ht
  · simp [engineWrite, hb] at ht

/-- The command `i` accepted in `s` has come to `u`, untainted, and some track of it that is not done meets `T`. -/
structure Pending (i : Instr) (s : State) (T : Track → Prop) (u : State) : Prop where
  progress : Progress (s.footprint i).writes (startOf i s) u
  same : u.flags = (startOf i s).flags ∧ u.hostStale = s.hostStale
  live : ∃ f, u.inflight = some f ∧ f.cmd = i ∧ f.foot = s.footprint i ∧ f.snap = s.ops ∧ f.tainted = []
    ∧ ∃ p ∈ f.todo, ∃ t ∈ p.tracks, T t

/-- What a step of a command's track that does not fail leaves: the byte it read is memory's. -/
theorem trackStep_stepped {f : InFlight} {t : Track} {us : List Track} {ps : List Phase} {u v : State} {o : List Nat}
    (hi : u.inflight = some f) (h5 : f.tainted = []) (hm : trackStep f t us ps { u with order := o } = .ok v) :
    ∃ x s1, v = stepped f t us ps x s1 ∧ s1.flags = u.flags ∧ s1.hostStale = u.hostStale
      ∧ ∀ a, t.next.access (f.vars t { u with order := o }) = .read a → x = u.mem.read a := by
  rcases trackStep_ok hm with ⟨ha, rfl⟩ | ⟨a, x, s1, ha, hr, rfl⟩ | ⟨a, w, s1, ha, hw, rfl⟩
  · exact ⟨_, _, rfl, rfl, rfl, fun a h => (by rw [ha] at h; cases h)⟩
  · rcases (engineRead_ok hr).2 with ⟨rfl, rfl⟩ | ⟨hta, -⟩
    · exact ⟨_, _, rfl, rfl, rfl, fun a' h => (by rw [ha] at h; cases h; rfl)⟩
    · simp [State.isTainted, hi, h5] at hta
  · obtain ⟨-, rfl⟩ := engineWrite_ok hw
    exact ⟨_, _, rfl, rfl, rfl, fun a h => (by rw [ha] at h; cases h)⟩

/-- A track's property persists if every step of such a track fails or leaves a track with the property. -/
theorem persists_pending (i : Instr) (s : State) (T : Track → Prop)
    (hT : ∀ f t us ps u o v x s1, f.snap = s.ops → T t → Progress (s.footprint i).writes (startOf i s) u →
      trackStep f t us ps { u with order := o } = .ok v →
      (∀ a, t.next.access (f.vars t { u with order := o }) = .read a → x = u.mem.read a) →
      ∃ y, t.after f x s1 = some y ∧ T y) :
    Persists (Pending i s T) := by
  constructor
  · rintro u ⟨-, -, f, h1, -, -, -, -, p, hp, -⟩
    cases ht : f.todo with
    | nil => rw [ht] at hp; simp at hp
    | cons p ps => exact ⟨f, p, ps, h1, ht⟩
  · rintro u f p ps t us o v ⟨hprog, hsame, f', h1, h2, h3, h4, h5, q, hq, x, hx, hxT⟩ hi ht hk hm he
    obtain rfl : f' = f := by rw [h1] at hi; exact Option.some.inj hi
    obtain ⟨b, s1, hv, hfl, hst, hread⟩ := trackStep_stepped hi h5 hm
    refine ⟨by rw [← he]; exact hprog.engineStep, ?_,
      { f' with todo := (Phase.of? ((t.after f' b s1).toList ++ us)).toList ++ ps },
      by rw [hv, stepped_inflight], h2, h3, h4, h5, ?_⟩
    · rw [hv]; exact ⟨hfl.trans hsame.1, hst.trans hsame.2⟩
    · have build : ∀ y, y ∈ (t.after f' b s1).toList ++ us → T y →
          ∃ p ∈ (Phase.of? ((t.after f' b s1).toList ++ us)).toList ++ ps, ∃ t ∈ p.tracks, T t := by
        intro y hy hyT
        cases hc : (t.after f' b s1).toList ++ us with
        | nil => rw [hc] at hy; simp at hy
        | cons z zs => exact ⟨⟨z, zs⟩, List.mem_append_left _ List.mem_cons_self, y, by rw [hc] at hy; exact hy, hyT⟩
      rw [ht] at hq
      rcases List.mem_cons.1 hq with rfl | hq
      · rcases List.mem_cons.1 (hk.mem_iff.2 hx) with rfl | hx
        · obtain ⟨y, hy, hyT⟩ := hT f' x us ps u o v b s1 h4 hxT hprog hm hread
          exact build y (by rw [hy]; simp) hyT
        · exact build x (List.mem_append_right _ hx) hxT
      · exact ⟨q, List.mem_append_right _ hq, x, hx, hxT⟩

/-- A step waiting in a track is still there after the track's next step. -/
theorem Track.after_mem {f : InFlight} {t : Track} {x : Byte} {s1 : State} {op : MicroOp} (h : op ∈ t.ops) :
    ∃ y, t.after f x s1 = some y ∧ op ∈ y.next :: y.ops := by
  rw [after_eq f t rfl]
  have hm : op ∈ t.next.follow f.snap x (f.vars t s1) ++ t.ops := List.mem_append_right _ h
  cases hc : t.next.follow f.snap x (f.vars t s1) ++ t.ops with
  | nil => rw [hc] at hm; simp at hm
  | cons z zs => exact ⟨_, rfl, by rw [hc] at hm; exact hm⟩

/-- A track that will access byte `b`. -/
def Track.willAccess (b : Nat) (t : Track) : Prop := ∃ op ∈ t.next :: t.ops, op.static = some b

/-- A track that will access a byte that does not answer, after a step that does not fail, still will. -/
theorem willAccess_after {f : InFlight} {t : Track} {us : List Track} {ps : List Phase} {u v : State} {o : List Nat}
    {b : Nat} {x : Byte} {s1 : State} (h : t.willAccess b) (hb : u.plat.memOk b = false)
    (hm : trackStep f t us ps { u with order := o } = .ok v) : ∃ y, t.after f x s1 = some y ∧ y.willAccess b := by
  obtain ⟨op, hop, hst⟩ := h
  rcases List.mem_cons.1 hop with rfl | hop
  · exact (trackStep_static hst (u := { u with order := o }) hb hm).elim
  · obtain ⟨y, hy, hy2⟩ := Track.after_mem (f := f) (x := x) (s1 := s1) hop
    exact ⟨y, hy, op, hy2, hst⟩

theorem persists_willAccess (i : Instr) (s : State) (b : Nat) (hb : s.plat.memOk b = false) :
    Persists (Pending i s (Track.willAccess b)) :=
  persists_pending i s _ fun _ _ _ _ u _ _ _ _ _ hT hp hm _ =>
    willAccess_after (u := u) hT (by rw [hp.frame]; exact hb) hm

/-- A pixel of DIFFTHR over the threshold, with a colour byte `b` that does not answer: at its start, after its luma byte is
read, or with its lanes pending (R355). -/
def Track.willCorrect (g bl lane b : Nat) (luma : Byte) (t : Track) : Prop :=
  t.willAccess b ∨ (t.next = .loadLuma g ∧ t.ops = [.loadBlurred bl lane])
    ∨ (t.next = .loadBlurred bl lane ∧ t.latch.luma = luma)

theorem persists_willCorrect (s : State) (g bl lane b : Nat) (hb : s.plat.memOk b = false)
    (hlane : b = lane ∨ b = lane + 1 ∨ b = lane + 2) (hg : g ∉ (s.footprint .diffthr).writes)
    (hbl : bl ∉ (s.footprint .diffthr).writes)
    (hex : exceeds (s.mem.read g) (s.mem.read bl) s.ops.threshold.toNat = true) :
    Persists (Pending .diffthr s (Track.willCorrect g bl lane b (s.mem.read g))) := by
  refine persists_pending .diffthr s _ fun f t us ps u o v x s1 hs hT hp hm hread => ?_
  rcases hT with hT | ⟨h1, h2⟩ | ⟨h1, h2⟩
  · obtain ⟨y, hy, hy2⟩ := willAccess_after (u := u) (x := x) (s1 := s1) hT (by rw [hp.frame]; exact hb) hm
    exact ⟨y, hy, .inl hy2⟩
  · have hx := hread g (by rw [h1]; rfl)
    refine ⟨⟨.loadBlurred bl lane, [], { t.latch with luma := x }, (f.vars t s1).regs⟩, ?_, .inr (.inr ⟨rfl, ?_⟩)⟩
    · rw [after_eq f t rfl, h1, h2]; rfl
    · show x = _; rw [hx, hp.mem g hg]; rfl
  · have hx : x = s.mem.read bl := by rw [hread bl (by rw [h1]; rfl), hp.mem bl hbl]; rfl
    have hl : (f.vars t s1).latch.luma = s.mem.read g := h2
    have hfo : t.next.follow f.snap x (f.vars t s1) = laneSteps lane := by
      rw [h1]
      show (if exceeds (f.vars t s1).latch.luma x f.snap.threshold.toNat then _ else _) = _
      rw [hl, hx, hs, if_pos hex]
    rw [after_eq f t rfl, hfo]
    refine ⟨_, rfl, .inl ?_⟩
    rcases hlane with rfl | rfl | rfl
    · exact ⟨.take b, by simp, rfl⟩
    · exact ⟨.take (lane + 1), by simp, rfl⟩
    · exact ⟨.take (lane + 2), by simp, rfl⟩

/-! ## E_BUSERR of a whole-image command -/

theorem track_mem_phasesOf {w : LineRegs} {prog : List (List (List MicroOp))} {lines : List (List MicroOp)} {op : MicroOp}
    {ops : List MicroOp} (h1 : lines ∈ prog) (h2 : op :: ops ∈ lines) :
    ∃ p ∈ phasesOf w prog, (⟨op, ops, Latch.fresh, w⟩ : Track) ∈ p.tracks := by
  have hm : (⟨op, ops, Latch.fresh, w⟩ : Track) ∈ lines.filterMap (Track.of? Latch.fresh w) :=
    List.mem_filterMap.2 ⟨_, h2, rfl⟩
  cases hc : lines.filterMap (Track.of? Latch.fresh w) with
  | nil => rw [hc] at hm; simp at hm
  | cons y ys => exact ⟨⟨y, ys⟩, List.mem_filterMap.2 ⟨lines, h1, by rw [hc]; rfl⟩, by rw [hc] at hm; exact hm⟩

/-- A track of the plan that meets `T` is pending when the command starts. -/
theorem pending_start {i : Instr} {s : State} {T : Track → Prop} (hc : expectedError i s.ops s.win s.plat = none)
    (h : ∃ lines ∈ (planOf i s.ops s.win s.plat).prog, ∃ op ops,
      op :: ops ∈ lines ∧ T ⟨op, ops, Latch.fresh, s.win.toLineRegs⟩) :
    Pending i s T (startOf i s) := by
  obtain ⟨lines, hl, op, ops, ho, hT⟩ := h
  refine ⟨startOf_progress hc 0, ⟨rfl, rfl⟩, flightOf i s, rfl, rfl, rfl, rfl, rfl, ?_⟩
  obtain ⟨p, hp, ht⟩ := track_mem_phasesOf (w := s.win.toLineRegs) hl ho
  exact ⟨p, hp, _, ht, hT⟩

theorem startOf_onPlat (i : Instr) (q : Platform) (s : State) : startOf i (s.onPlat q) = (startOf i s).onPlat q := by
  have hpl : planOf i (s.onPlat q).ops (s.onPlat q).win (s.onPlat q).plat = planOf i s.ops s.win q := rfl
  have hpr : (planOf i s.ops s.win q).prog = (planOf i s.ops s.win s.plat).prog
      ∧ (planOf i s.ops s.win q).slots = (planOf i s.ops s.win s.plat).slots := by cases i <;> exact ⟨rfl, rfl⟩
  unfold startOf flightOf
  rw [hpl, hpr.1, hpr.2]; rfl

theorem imageBusError_drawn (f : InFlight) (a b : Nat) {s u : State} (hd : s.draws ≤ u.draws) (hb : b ∈ f.foot.writes) :
    Drawn s (imageBusError f a u) ((imageBusError f a u).mem.read b) :=
  (releaseUnspecified_drawn (f := f) hd hb).mono (by simp [imageBusError, scrambleWindow, raiseError]; omega)

/-- An undisturbed whole-image command that ends without error where exactly its footprint answers, and in which a track that
persists is pending, ends in E_BUSERR at a byte of its footprint that does not answer (R431, R433, R75). -/
theorem exec_image_error {i : Instr} {s : State} {T : Track → Prop} (hi : isImage i = true) (hu : Undisturbed s)
    (hc : expectedError i s.ops s.win s.plat = none) (hf : Clear (s.footprint i) s) (hT : Persists (Pending i s T))
    (hs : Pending i s T (startOf i s))
    (hend : ∀ q, Runs i (s.onPlat q) → ∃ t, exec i (s.onPlat q) = .next t ∧ t.flags.err = false) :
    ∃ t a, exec i s = .next t ∧ a ∈ (s.footprint i).reads ++ (s.footprint i).writes ∧ s.plat.memOk a = false
      ∧ BusErrored (encode i) (BitVec.ofNat 32 a) (s.footprint i).writes (s.footprint i).writes s t
      ∧ (∀ c ∈ (s.footprint i).writes, Drawn s t (t.mem.read c)) ∧ WindowDrawn s t
      ∧ ∀ c, c ∉ (s.footprint i).writes → t.mem.read c = s.mem.read c := by
  have hn : i ≠ .nop := by rintro rfl; cases hi
  obtain ⟨q, q1, q2, q3, q4, q6, q5⟩ := exists_platform s.plat ((s.footprint i).reads ++ (s.footprint i).writes)
  have hr : Runs i (s.onPlat q) := by
    refine ⟨hu, ?_, ⟨fun a ha => ?_, ?_⟩, fun a ha => (q5 a (image_footprint_lt hc hi a ha)).2 ha⟩
    · rw [← hc]; exact expectedError_maxLine i s.ops s.win s.plat q q1
    · have := hf.1 a ha
      simpa only [Platform.inWindow, Platform.inDevice, State.onPlat, q2, q3] using this
    · show q.coherent = true ∨ _
      rw [q4]
      have hl : q.cacheLine = s.plat.cacheLine := by funext a; simp only [Platform.cacheLine, q6]
      show _ ∨ ∀ a ∈ s.hostDirty, ∀ b ∈ (s.footprint i).reads, q.cacheLine a ≠ q.cacheLine b
      rw [hl]; exact hf.2
  have hgood : (engineRun ((startOf i s).onPlat q).remaining ((startOf i s).onPlat q)).flags.err = false := by
    obtain ⟨t, h1, h2⟩ := hend q hr
    rw [exec_start i _ hn hr.1.1 hr.2.1 hr.2.2.1] at h1
    cases h1
    rw [startOf_onPlat] at h2
    unfold advance at h2
    rw [show ((startOf i s).onPlat q).lead = .untilDone from hu.2] at h2
    exact h2
  obtain ⟨m, f, o, a, hp, hfl, ho, hrun, hm, hq⟩ := hT.busError q _ _ le_rfl hs hgood
  have hprog := hp.progress
  obtain ⟨f', hfl', hcmd, hfoot, -⟩ := hp.live
  obtain rfl : f' = f := by rw [hfl'] at hfl; exact Option.some.inj hfl
  generalize hg : engineRun m (startOf i s) = u at *
  have hpl : u.plat = s.plat := by rw [hprog.frame]; rfl
  have hbe : busError f' a { u with order := o } = imageBusError f' a { u with order := o } := by
    unfold busError; rw [hcmd, hi]; rfl
  have hud : s.draws ≤ u.draws := hprog.draws
  have hfr := busError_frame f' a { u with order := o }
  refine ⟨busError f' a { u with order := o }, a, ?_, (q5 a (memOk_lt hq)).1 hq, by rw [← hpl]; exact hm, ⟨?_, ?_, ?_⟩,
    fun c hcw => ?_, ?_, fun c hcw => ?_⟩
  · rw [exec_start i s hn hu.1 hc hf, advance_eq (n := m + 1) (by exact hu.2) (by rw [hrun, busError_frame]), hrun]
  · have hst : (busError f' a { u with order := o }).hostStale = staleAfter (s.footprint i).writes s := by
      rw [busError_hostStale]
      show (if u.plat.coherent then u.hostStale else (f'.foot.writes.map u.plat.cacheLine).union u.hostStale) = _
      rw [hpl, hp.same.2, hfoot]; rfl
    have hord : (busError f' a { u with order := o }).order = o := by rw [hfr]
    have hflags : u.flags = (startOf i s).flags := hp.same.1
    have hin : s.inflight = none := hu.1
    generalize busError f' a { u with order := o } = v at hfr hst hord
    rw [hst] at hfr
    rw [hord, hfr, hflags, hprog.frame]
    cases s; cases hin; rfl
  · rw [hfr]; exact ho.trans hprog.order
  · intro b
    have hov : u.hostOver = s.hostOver := hprog.overIdle (by rw [hfl]; rfl)
    rw [busError_hostOver, hcmd, hi, hfoot, if_pos rfl]
    show b ∈ (if u.plat.coherent then u.hostOver else (s.footprint i).writes.union u.hostOver) ↔ _
    rw [hov, hpl]
    exact mem_over
  · rw [hbe]; exact imageBusError_drawn f' a c hud (by rw [hfoot]; exact hcw)
  · rw [hbe]
    exact scrambleWindow_drawn (hud.trans (releaseUnspecified_draws_le f' { u with order := o }))
  · rw [busError_read_of_not_mem _ _ _ _ (by rw [hfoot]; exact hcw)]
    exact hprog.mem c hcw

end Sys2Proof.Machine
end

