-- ==== Sys2Proof/Laws/Commute.lean ====
section
/-! SUPPORT. What the engine does not look at: a change of the flags, of the operand registers, of the lead, and of the operands
of the snapshot that no step uses, made before an engine step, is the same change made after it (R59, R356, R401, R403). -/

namespace Sys2Proof.Machine

/-- A change of a machine that the engine does not see, if its parts are as `Unseen.Ok` says. -/
structure Unseen where
  flags : Flags → Flags
  ops   : OperandRegs → OperandRegs
  lead  : Lead → Lead
  snap  : OperandRegs → OperandRegs

/-- The change kept apart from the machine. -/
def Unseen.flight (g : Unseen) (f : InFlight) : InFlight := { f with snap := g.snap f.snap }
def Unseen.apply (g : Unseen) (s : State) : State :=
  { s with flags := g.flags s.flags, ops := g.ops s.ops, lead := g.lead s.lead, inflight := s.inflight.map g.flight }

/-- No change. -/
def Unseen.id : Unseen := ⟨fun f => f, fun o => o, fun l => l, fun o => o⟩

/-- The snapshot's AMOUNT and THRESHOLD stay, and the change of the flags commutes with completion and errors. -/
structure Unseen.Ok (g : Unseen) : Prop where
  completed : ∀ f : Flags, g.flags f.completed = (g.flags f).completed
  failed    : ∀ (f : Flags) e, g.flags (f.failed e) = (g.flags f).failed e
  amount    : ∀ o, (g.snap o).amount = o.amount
  threshold : ∀ o, (g.snap o).threshold = o.threshold

/-- On an idle machine there is no snapshot to change. -/
theorem Unseen.apply_idle (g : Unseen) {s : State} (h : s.inflight = none) :
    g.apply s = { s with flags := g.flags s.flags, ops := g.ops s.ops, lead := g.lead s.lead } := by
  cases s; cases h; rfl

/-- On a machine whose snapshot it keeps, neither. -/
theorem Unseen.apply_keeps (g : Unseen) (s : State) (h : ∀ o, g.snap o = o) :
    g.apply s = { s with flags := g.flags s.flags, ops := g.ops s.ops, lead := g.lead s.lead } := by
  have : s.inflight.map g.flight = s.inflight := by
    cases s.inflight with
    | none => rfl
    | some f => simp only [Option.map_some, Unseen.flight, h]
  unfold Unseen.apply
  rw [this]

theorem Unseen.scrambleBytes (g : Unseen) (as : List Nat) (s : State) :
    scrambleBytes as (g.apply s) = g.apply (Machine.scrambleBytes as s) := by
  induction as generalizing s with
  | nil => rfl
  | cons a as ih =>
    exact ih { s with mem := s.mem.write a ((Config.freeWord s.draws).setWidth 8), draws := s.draws + 1 }

theorem Unseen.scrambleSlots (g : Unseen) (ks : List Nat) (s : State) :
    scrambleSlots ks (g.apply s) = g.apply (Machine.scrambleSlots ks s) := by
  induction ks generalizing s with
  | nil => rfl
  | cons k ks ih =>
    exact ih { s with
      win := { s.win with wstore := s.win.wstore.set k ((Config.freeWord s.draws).setWidth 8) }, draws := s.draws + 1 }

theorem Unseen.release (g : Unseen) (f : InFlight) (s : State) :
    release (g.flight f) (g.apply s) = g.apply (Machine.release f s) := by
  unfold Machine.release
  rw [show (g.flight f).tainted = f.tainted from rfl, show (g.flight f).foot = f.foot from rfl, g.scrambleBytes]
  cases f.tainted.isEmpty <;> rfl

theorem Unseen.releaseUnspecified (g : Unseen) (f : InFlight) (s : State) :
    releaseUnspecified (g.flight f) (g.apply s) = g.apply (Machine.releaseUnspecified f s) := by
  unfold Machine.releaseUnspecified
  rw [show (g.flight f).foot = f.foot from rfl, g.scrambleBytes]
  exact g.release { f with tainted := [], todo := [] } _

theorem Unseen.engineRead (g : Unseen) (a : Nat) (s : State) :
    engineRead a (g.apply s) = (Machine.engineRead a s).map (fun p => (p.1, g.apply p.2)) := by
  unfold Machine.engineRead
  have ht : (g.apply s).isTainted a = s.isTainted a := by unfold State.isTainted Unseen.apply; cases s.inflight <;> rfl
  rw [ht, show (g.apply s).plat = s.plat from rfl]
  split
  · split <;> rfl
  · rfl

theorem Unseen.engineWrite (g : Unseen) (a : Nat) (v : Byte) (s : State) :
    engineWrite a v (g.apply s) = (Machine.engineWrite a v s).map g.apply := by
  unfold Machine.engineWrite
  rw [show (g.apply s).plat = s.plat from rfl]
  split <;> rfl

theorem Unseen.trackStep {g : Unseen} (hg : g.Ok) (f : InFlight) (t : Track) (us : List Track) (ps : List Phase) (s : State) :
    trackStep (g.flight f) t us ps (g.apply s) = (Machine.trackStep f t us ps s).map g.apply := by
  have hst : ∀ b u, stepped (g.flight f) t us ps b (g.apply u) = g.apply (stepped f t us ps b u) := by
    intro b u
    have hup : ∀ v, t.next.update (g.flight f).snap b v = t.next.update f.snap b v := by
      intro v; cases t.next <;> simp [MicroOp.update, Unseen.flight, hg.amount]
    have hfo : ∀ v, t.next.follow (g.flight f).snap b v = t.next.follow f.snap b v := by
      intro v; cases t.next <;> simp [MicroOp.follow, Unseen.flight, hg.threshold]
    unfold stepped Track.after InFlight.window
    rw [show (g.flight f).vars t (g.apply u) = f.vars t u from rfl, hup, hfo]
    rfl
  unfold Machine.trackStep
  rw [show (g.flight f).vars t (g.apply s) = f.vars t s from rfl]
  cases t.next.access (f.vars t s) with
  | none => simp only [hst]; rfl
  | read a =>
    simp only [g.engineRead]
    cases Machine.engineRead a s with
    | error _ => rfl
    | ok p => simp only [Except.map, hst]
  | write a v =>
    simp only [g.engineWrite]
    cases Machine.engineWrite a v s with
    | error _ => rfl
    | ok u => simp only [Except.map, hst]

theorem Unseen.complete {g : Unseen} (hg : g.Ok) (f : InFlight) (s : State) :
    complete (g.flight f) (g.apply s) = g.apply (Machine.complete f s) := by
  unfold Machine.complete
  simp only [g.release]
  rw [show isImage (g.flight f).cmd = isImage f.cmd from rfl]
  cases isImage f.cmd <;> simp only [Unseen.apply, scrambleWindow, scrambleRams, scrambleRegs, hg.completed] <;> rfl

theorem Unseen.busError {g : Unseen} (hg : g.Ok) (f : InFlight) (a : Nat) (s : State) :
    busError (g.flight f) a (g.apply s) = g.apply (Machine.busError f a s) := by
  unfold Machine.busError
  rw [show isImage (g.flight f).cmd = isImage f.cmd from rfl]
  split
  · unfold imageBusError
    rw [g.releaseUnspecified]
    simp only [Unseen.apply, scrambleWindow, scrambleRams, scrambleRegs, raiseError, hg.failed]
    rfl
  · unfold lineBusError
    rw [g.release, show scrambleRegs (g.apply (Machine.release f s)) = g.apply (scrambleRegs (Machine.release f s)) from rfl,
      show (g.flight f).slots = f.slots from rfl, g.scrambleSlots]
    simp only [Unseen.apply, raiseError, hg.failed]
    rfl

/-- THE ENGINE DOES NOT SEE IT: the change commutes with an engine step. -/
theorem Unseen.engineStep {g : Unseen} (hg : g.Ok) (s : State) : engineStep (g.apply s) = g.apply (Machine.engineStep s) := by
  unfold Machine.engineStep
  rw [show (g.apply s).inflight = s.inflight.map g.flight from rfl]
  cases s.inflight with
  | none => rfl
  | some f =>
    simp only [Option.map_some]
    rw [show (g.flight f).todo = f.todo from rfl]
    cases f.todo with
    | nil => exact Unseen.complete hg f s
    | cons p ps =>
      have hch : (g.apply s).choose p.others.length = ((s.choose p.others.length).1, g.apply (s.choose p.others.length).2) := by
        unfold State.choose
        split
        · rfl
        · rw [show (g.apply s).order = s.order from rfl]
          cases s.order <;> rfl
      simp only [hch, Unseen.trackStep hg]
      cases Machine.trackStep f _ _ ps (s.choose p.others.length).2 with
      | ok u => rfl
      | error a => exact Unseen.busError hg f a _

/-- It commutes with every run of the engine. -/
theorem Unseen.engineRun {g : Unseen} (hg : g.Ok) (n : Nat) (s : State) :
    engineRun n (g.apply s) = g.apply (Machine.engineRun n s) := by
  induction n generalizing s with
  | zero => rfl
  | succ n ih => rw [engineRun_succ, engineRun_succ, Unseen.engineStep hg, ih]

end Sys2Proof.Machine
end

