-- ==== Sys2Proof/Laws/Invariant.lean ====
section
/-! SUPPORT. What keeps the invariant of Safety.lean: the engine's steps, acceptance, and each host step. -/

namespace Sys2Proof.Machine

/-! ## The steps of a pseudocode -/

/-- The window's RAMs are canonical and inside their bounds. -/
def Window.wf (maxLine : Nat) (w : Window) : Prop := w.wstore.wf 512 = true ∧ w.map.wf maxLine = true

/-- The RAMs a step works on are canonical and inside their bounds. -/
def Vars.wf (maxLine : Nat) (v : Vars) : Prop := v.regs.wstore.wf 512 = true ∧ v.map.wf maxLine = true

theorem trailing_lt (w : LineRegs) (r : Nat) (hr : r < 256) : w.trailing r < 512 := by
  have := Nat.mod_lt (w.sp.toNat + r + 1) (show 0 < diameter r by unfold diameter; omega)
  unfold LineRegs.trailing
  unfold diameter at this ⊢
  omega

theorem fill_wf (w : LineRegs) (j : Nat) (samples : List Byte) (hj : j < 512) (h : w.wstore.wf 512 = true) :
    (w.fill j samples).wstore.wf 512 = true := by
  unfold LineRegs.fill
  split
  · exact h
  · exact Ram.wf_set _ hj h

/-- A step that stays inside the RAMs keeps them canonical. -/
theorem update_wf {n : Nat} {op : MicroOp} (o : OperandRegs) (b : Byte) {v : Vars} (hop : op.inRams n) (h : v.wf n) :
    (op.update o b v).wf n := by
  cases op <;> first
    | exact h
    | exact ⟨h.1, Ram.wf_set _ hop h.2⟩
    | exact ⟨fill_wf _ _ _ hop h.1, h.2⟩
    | exact ⟨Ram.wf_set _ (trailing_lt _ _ hop) h.1, h.2⟩

/-- The steps a step calls for stay inside the RAMs. -/
theorem follow_inRams {n : Nat} (o : OperandRegs) (b : Byte) (v : Vars) (op : MicroOp) :
    ∀ x ∈ op.follow o b v, x.inRams n := by
  cases op <;> simp only [MicroOp.follow, List.not_mem_nil, false_implies, implies_true]
  split
  · intro x hx
    simp only [laneSteps, List.mem_cons, List.not_mem_nil, or_false] at hx
    rcases hx with rfl | rfl | rfl | rfl | rfl | rfl <;> trivial
  · simp

/-- The variables of a track of a good state. -/
theorem vars_wf {f : InFlight} {t : Track} {s : State} {n : Nat} (ht : t.inRams n) (hw : s.win.wf n) : (f.vars t s).wf n := by
  refine ⟨?_, hw.2⟩
  unfold InFlight.vars
  dsimp only
  split
  · exact ht.2
  · exact hw.1

theorem window_wf {f : InFlight} {t : Track} {b : Byte} {s : State} {n : Nat} (ht : t.inRams n) (hw : s.win.wf n) :
    (f.window t b s).wf n := by
  have h := update_wf f.snap b (ht.1 t.next List.mem_cons_self) (vars_wf (f := f) ht hw)
  refine ⟨?_, h.2⟩
  show Ram.wf 512 (LineRegs.wstore (if isImage f.cmd then s.win.toLineRegs else _)) = true
  split
  · exact hw.1
  · exact h.1

theorem after_inRams {f : InFlight} {t u : Track} {b : Byte} {s : State} {n : Nat} (ht : t.inRams n) (hw : s.win.wf n)
    (hu : t.after f b s = some u) : u.inRams n := by
  have h := update_wf f.snap b (ht.1 t.next List.mem_cons_self) (vars_wf (f := f) ht hw)
  unfold Track.after at hu
  dsimp only at hu
  cases hc : t.next.follow f.snap b (f.vars t s) ++ t.ops with
  | nil => rw [hc] at hu; cases hu
  | cons op ops =>
    rw [hc] at hu
    cases hu
    refine ⟨fun x hx => ?_, h.1⟩
    rw [show op :: ops = _ from hc.symm, List.mem_append] at hx
    exact hx.elim (follow_inRams _ _ _ _ x) (fun hx => ht.1 x (List.mem_cons_of_mem _ hx))

theorem mem_tracks_of? {ts : List Track} {p : Phase} (hp : p ∈ (Phase.of? ts).toList) : p.tracks = ts := by
  cases ts with
  | nil => simp [Phase.of?] at hp
  | cons t ts => simp only [Phase.of?, Option.toList_some, List.mem_singleton] at hp; rw [hp]; rfl

/-! ## The end of a command -/

theorem scrambleWindow_wf (s : State) (n : Nat) : (scrambleWindow s).win.wf n := ⟨rfl, rfl⟩

theorem State.Inv.window {s : State} (h : s.Inv) : s.win.wf s.plat.maxLine := ⟨h.wstore, h.map⟩

/-- What the invariant says of the host's cache lines (R160). -/
def State.Cached (s : State) : Prop :=
  (∀ a ∈ s.hostDirty, a < Config.spaceBytes) ∧ (∀ a ∈ s.hostOver, a < Config.spaceBytes)
  ∧ (s.plat.coherent = true → s.hostDirty = [] ∧ s.hostOver = [] ∧ s.hostStale = [])

theorem State.Inv.cached {s : State} (h : s.Inv) : s.Cached := ⟨h.dirty, h.marked, h.coherent⟩

/-- The invariant of an idle state that differs from a good one only as given. -/
theorem State.Inv.idle {s t : State} (h : s.Inv) (hp : t.plat = s.plat) (hm : t.mem.wf = true) (hw : t.win.wf s.plat.maxLine)
    (hi : t.inflight = none) (hc : t.flags.err = true ↔ t.flags.code ≠ .none)
    (ho : ¬(t.flags.done = true ∧ t.flags.err = true)) (ha : t.flags.code ≠ .busErr → t.errAddr = 0) (hh : t.Cached) : t.Inv where
  plat := hp ▸ h.plat
  mem := hm
  wstore := hw.1
  map := by rw [hp]; exact hw.2
  code := hc
  oneEnd := ho
  errAddr := ha
  dirty := hh.1
  marked := hh.2.1
  coherent := hh.2.2
  running := by simp [hi]

theorem release_cached {f : InFlight} {s : State} (hw : ∀ a ∈ f.foot.writes, a < Config.spaceBytes) (h : s.Cached) :
    (release f s).Cached := by
  refine ⟨by simpa using h.1, fun a ha => ?_, fun hc => ?_⟩
  · rw [release_hostOver] at ha
    rcases mem_over.1 ha with ha | ⟨-, ha⟩
    · exact h.2.1 a ha
    · exact hw a (mem_written.1 ha).1
  · have hc : s.plat.coherent = true := by simpa using hc
    simpa [hc] using h.2.2 hc

theorem releaseUnspecified_cached {f : InFlight} {s : State} (hw : ∀ a ∈ f.foot.writes, a < Config.spaceBytes)
    (h : s.Cached) : (releaseUnspecified f s).Cached := by
  refine release_cached hw ?_
  have hf := scrambleBytes_frame f.foot.writes s
  generalize scrambleBytes f.foot.writes s = u at hf
  rw [hf]
  exact h

theorem complete_inv {s : State} {f : InFlight} (h : s.Inv) (hf : s.inflight = some f) : (complete f s).Inv := by
  obtain ⟨hd, he, -, -, hwr⟩ := h.running f hf
  have hcode : s.flags.code = .none := by
    by_contra hn
    have := h.code.2 hn
    simp [he] at this
  have hz := h.errAddr (by rw [hcode]; decide)
  have hmem := release_wf f s hwr h.mem
  have hrel := release_frame f s
  have hca := release_cached (f := f) hwr h.cached
  unfold complete
  generalize release f s = u at hmem hrel hca
  have hplat : u.plat = s.plat := by rw [hrel]
  have hwin : u.win.wf s.plat.maxLine := by rw [hrel]; exact h.window
  have herr : u.errAddr = 0 := by rw [hrel]; exact hz
  have hinf : u.inflight = none := by rw [hrel]
  have hfl : u.flags = s.flags := by rw [hrel]
  dsimp only
  split
  · exact h.idle hplat hmem (scrambleWindow_wf _ _) hinf (by simp [Flags.completed, hfl, he, hcode])
      (by simp [Flags.completed, hfl, he]) (fun _ => herr) hca
  · exact h.idle hplat hmem hwin hinf (by simp [Flags.completed, hfl, he, hcode]) (by simp [Flags.completed, hfl, he])
      (fun _ => herr) hca

theorem busError_inv {s : State} {f : InFlight} (a : Nat) (h : s.Inv) (hf : s.inflight = some f) : (busError f a s).Inv := by
  obtain ⟨hd, -, -, hs, hw⟩ := h.running f hf
  unfold busError
  split
  · unfold imageBusError
    have hrel := releaseUnspecified_frame f s
    have hmem := releaseUnspecified_wf f s hw h.mem
    have hca := releaseUnspecified_cached (f := f) hw h.cached
    generalize releaseUnspecified f s = u at hrel hmem hca
    refine h.idle ?_ hmem (scrambleWindow_wf _ _) rfl ?_ ?_ ?_ hca
    · rw [hrel]; rfl
    · simp [raiseError, Flags.failed]
    · rw [hrel]; simp [raiseError, Flags.failed, scrambleWindow, scrambleRams, scrambleRegs, hd]
    · simp [raiseError, Flags.failed]
  · unfold lineBusError
    have hrel := release_frame f s
    have hmem := release_wf f s hw h.mem
    have hca := release_cached (f := f) hw h.cached
    generalize release f s = u at hrel hmem hca
    have hsl := scrambleSlots_frame f.slots (scrambleRegs u)
    have hwf : (scrambleSlots f.slots (scrambleRegs u)).win.wstore.wf 512 = true :=
      scrambleSlots_wf _ _ hs (by rw [hrel]; exact h.wstore)
    have hmap : (scrambleSlots f.slots (scrambleRegs u)).win.map = s.win.map := by rw [scrambleSlots_map, hrel]; rfl
    generalize scrambleSlots f.slots (scrambleRegs u) = v at hsl hwf hmap
    refine h.idle ?_ ?_ ⟨hwf, ?_⟩ rfl ?_ ?_ ?_ ?_
    · rw [hsl, hrel]; rfl
    · rw [hsl]; exact hmem
    · show v.win.map.wf _ = true
      rw [hmap]; exact h.map
    · simp [raiseError, Flags.failed]
    · rw [hsl, hrel]; simp [raiseError, Flags.failed, scrambleRegs, hd]
    · simp [raiseError, Flags.failed]
    · rw [hsl]; exact hca

/-! ## Engine steps -/

/-- A change of fields the invariant does not speak of. -/
theorem State.Inv.same {s t : State} (h : s.Inv) (hp : t.plat = s.plat) (hm : t.mem = s.mem) (hw : t.win = s.win)
    (hf : t.flags = s.flags) (ha : t.errAddr = s.errAddr) (hi : t.inflight = s.inflight) (hd : t.hostDirty = s.hostDirty)
    (ho : t.hostOver = s.hostOver) (hs : t.hostStale = s.hostStale) : t.Inv :=
  ⟨hp ▸ h.plat, hm ▸ h.mem, hw ▸ h.wstore, hw ▸ hp ▸ h.map, hf ▸ h.code, hf ▸ h.oneEnd, by rw [hf, ha]; exact h.errAddr,
    hd ▸ h.dirty, ho ▸ h.marked, by rw [hp, hd, ho, hs]; exact h.coherent,
    by rw [hi, hf, hp]; exact h.running⟩

/-- Every engine step keeps the invariant. -/
theorem engineStep_inv {s : State} (h : s.Inv) : (engineStep s).Inv := by
  rcases engineStep_cases s with ⟨-, he⟩ | ⟨f, hf, -, he⟩
    | ⟨f, p, ps, k, t, us, o, hf, ht, hk, -, -, ⟨u, hu, he⟩ | ⟨a, -, he⟩⟩
  · rw [he]; exact h
  · rw [he]; exact complete_inv h hf
  · rw [he]
    have hperm := pick_perm k p.head p.others
    rw [hk] at hperm
    obtain ⟨hd, hr, hall, hs, hw⟩ := h.running f hf
    rw [ht] at hall
    have hin : ∀ x ∈ t :: us, x.inRams s.plat.maxLine := fun x hx => hall p List.mem_cons_self x (hperm.mem_iff.1 hx)
    have key : ∀ b (s1 : State), s1 = { s with order := o, mem := s1.mem, draws := s1.draws } →
        s1.mem.wf = true → (stepped f t us ps b s1).Inv := by
      intro b s1 h1 hm
      have hwin : s1.win.wf s.plat.maxLine := by rw [h1]; exact h.window
      have hnew := window_wf (f := f) (b := b) (hin t List.mem_cons_self) hwin
      have hfl : s1.flags = s.flags := by rw [h1]
      have hpl : s1.plat = s.plat := by rw [h1]
      have hdi : s1.hostDirty = s.hostDirty := by rw [h1]
      have hov : s1.hostOver = s.hostOver := by rw [h1]
      have hst : s1.hostStale = s.hostStale := by rw [h1]
      have hea : s1.errAddr = s.errAddr := by rw [h1]
      unfold stepped
      refine ⟨hpl ▸ h.plat, hm, hnew.1, hpl ▸ hnew.2, hfl ▸ h.code, hfl ▸ h.oneEnd, by rw [hfl, hea]; exact h.errAddr,
        hdi ▸ h.dirty, hov ▸ h.marked, by rw [hpl, hdi, hov, hst]; exact h.coherent, ?_⟩
      intro g hg
      cases hg
      rw [hfl, hpl]
      refine ⟨hd, hr, fun q hq x hx => ?_, hs, hw⟩
      rcases List.mem_append.1 hq with hq | hq
      · rw [mem_tracks_of? hq, List.mem_append] at hx
        rcases hx with hx | hx
        · exact after_inRams (hin t List.mem_cons_self) hwin (by simpa using hx)
        · exact hin x (List.mem_cons_of_mem t hx)
      · exact hall q (List.mem_cons_of_mem p hq) x hx
    rcases trackStep_ok hu with ⟨-, rfl⟩ | ⟨a, b, s1, -, hr, rfl⟩ | ⟨a, v, s1, -, hw, rfl⟩
    · exact key _ _ rfl h.mem
    · rcases (engineRead_ok hr).2 with ⟨rfl, -⟩ | ⟨-, rfl⟩
      · exact key _ _ rfl h.mem
      · exact key _ _ rfl h.mem
    · obtain ⟨hok, rfl⟩ := engineWrite_ok hw
      exact key _ _ rfl (Memory.wf_write _ (memOk_lt hok) h.mem)
  · rw [he]
    exact busError_inv a (h.same (t := { s with order := o }) rfl rfl rfl rfl rfl rfl rfl rfl rfl) hf

theorem advance_inv {s : State} (h : s.Inv) : (advance s).Inv := by
  unfold advance
  split
  · exact engineRun_induction (P := State.Inv) (fun _ => engineStep_inv) _ _ h
  · exact engineRun_induction (P := State.Inv) (fun _ => engineStep_inv) _ _ h

theorem lostIssue_inv {s : State} (h : s.Inv) : (lostIssue s).Inv :=
  ⟨h.plat, h.mem, h.wstore, h.map, h.code, h.oneEnd, h.errAddr, h.dirty, h.marked, h.coherent, h.running⟩

/-! ## Acceptance -/

/-- An acceptance keeps the invariant of an idle machine. -/
theorem raiseError_accept_inv {s : State} (w : Word) (e : ErrCode) (he : e ≠ .none) (hb : e ≠ .busErr) (h : s.Inv) :
    (raiseError e 0 (accept w s)).Inv :=
  h.idle rfl h.mem h.window rfl (by simp [raiseError, Flags.failed, he])
    (by simp [raiseError, accept, Flags.failed, Flags.accepted]) (fun _ => if_neg hb) h.cached

theorem expectedError_legal {i : Instr} {o : OperandRegs} {w : Window} {p : Platform} {e : ErrCode}
    (h : expectedError i o w p = some e) : e ≠ .none ∧ e ≠ .busErr := by
  constructor <;> rintro rfl <;> cases i <;> simp [expectedError, ite_eq_iff] at h

theorem start_inv {i : Instr} {s : State} (h : s.Inv) (hc : expectedError i s.ops s.win s.plat = none) :
    (start i (planOf i s.ops s.win s.plat) (accept (encode i) s)).Inv := by
  obtain ⟨h1, h2, h3⟩ := planOf_legal i s.ops s.win s.plat hc
  refine ⟨h.plat, h.mem, h.wstore, h.map, by simp [start, accept, Flags.accepted], by simp [start, accept, Flags.accepted],
    fun _ => rfl, h.dirty, h.marked, h.coherent, ?_⟩
  rintro f hf
  cases hf
  refine ⟨rfl, rfl, fun p hp t ht => ?_, h2, (planOf_foot i s.ops s.win s.plat).symm ▸ h3⟩
  obtain ⟨hr, -, lines, hl, hops⟩ := mem_phasesOf hp ht
  exact ⟨fun op hop => (h1 lines hl _ hops op hop).1, by rw [hr]; exact h.wstore⟩

theorem exec_inv {i : Instr} {s t : State} (h : s.Inv) (he : exec i s = .next t) : t.Inv := by
  by_cases hi : i = .nop
  · subst hi
    simp only [exec, execNop] at he
    split at he
    · cases he; exact advance_inv (lostIssue_inv h)
    · next hb =>
      cases he
      have hidle : s.inflight = none := by simpa [State.busy] using hb
      exact h.idle rfl h.mem h.window hidle (by simp [accept, Flags.accepted, Flags.completed])
        (by simp [accept, Flags.accepted, Flags.completed]) (fun _ => rfl) h.cached
  · rw [exec_eq_issue i s hi] at he
    rcases issue_cases i (planOf i s.ops s.win s.plat) s with ⟨-, hx⟩ | ⟨-, e, hc, hx⟩ | ⟨-, -, -, hx⟩ | ⟨-, -, -, -, hx⟩ |
      ⟨-, hc, -, -, hx⟩ <;> rw [hx] at he <;> cases he
    · exact advance_inv (lostIssue_inv h)
    · rw [planOf_check] at hc
      exact raiseError_accept_inv _ e (expectedError_legal hc).1 (expectedError_legal hc).2 h
    · rw [planOf_check] at hc
      exact advance_inv (start_inv h hc)

/-! ## Host steps -/

theorem resetEngine_inv {s : State} (h : s.Inv) : (resetEngine s).Inv := by
  have key : (abandon s).mem.wf = true ∧ (abandon s).plat = s.plat ∧ (abandon s).Cached := by
    unfold abandon
    split
    · exact ⟨h.mem, rfl, h.cached⟩
    · next f hf =>
      exact ⟨releaseUnspecified_wf f s (h.running f hf).2.2.2.2 h.mem, by rw [releaseUnspecified_frame],
        releaseUnspecified_cached (h.running f hf).2.2.2.2 h.cached⟩
  exact h.idle (t := resetEngine s) key.2.1 key.1 ⟨rfl, rfl⟩ rfl (by simp [resetEngine]) (by simp [resetEngine])
    (fun _ => rfl) key.2.2

theorem writeStatus_inv {s : State} (v : Word) (h : s.Inv) : (writeStatus v s).Inv := by
  have run : ∀ t : State, t.inflight = s.inflight → t.plat = s.plat → (s.flags.done = false → t.flags.done = false) →
      (s.flags.err = false → t.flags.err = false) → ∀ f, t.inflight = some f →
      t.flags.done = false ∧ t.flags.err = false ∧ (∀ p ∈ f.todo, ∀ x ∈ p.tracks, x.inRams t.plat.maxLine)
        ∧ (∀ k ∈ f.slots, k < 512) ∧ (∀ a ∈ f.foot.writes, a < Config.spaceBytes) := by
    intro t h1 h2 h3 h4 f hf
    rw [h1] at hf; rw [h2]
    obtain ⟨a, b, c⟩ := h.running f hf
    exact ⟨h3 a, h4 b, c⟩
  unfold writeStatus
  split
  · refine ⟨h.plat, h.mem, h.wstore, h.map, by simp [clearError, Flags.clear], by simp [clearError, Flags.clear], fun _ => rfl, h.dirty, h.marked,
      h.coherent, run _ rfl rfl (by intro hd; simp [clearError, Flags.clear, hd]) (by simp [clearError, Flags.clear])⟩
  · refine ⟨h.plat, h.mem, h.wstore, h.map, h.code, ?_, h.errAddr, h.dirty, h.marked, h.coherent, run _ rfl rfl (by intro hd; simp [Flags.clear, hd]) id⟩
    have := h.oneEnd
    simp only [Flags.clear, Bool.and_eq_true]
    exact fun hx => this ⟨hx.1.1, hx.2⟩

theorem writeWindow_inv {s : State} {w : Window} (h : s.Inv) (hw : w.wf s.plat.maxLine) : (writeWindow s w).Inv := by
  unfold writeWindow
  split
  · exact h
  · exact ⟨h.plat, h.mem, hw.1, hw.2, h.code, h.oneEnd, h.errAddr, h.dirty, h.marked, h.coherent, h.running⟩

/-- The registers an offset can name. -/
theorem regAt_bounds {n off : Nat} {r : RegName} (h : regAt n off = some r) :
    (∀ k, r = .wstore k → k < 512) ∧ ∀ k, r = .map k → k < n := by
  unfold regAt at h
  split at h
  · cases h
  split at h
  · have : r ∈ namedRegs.map Prod.snd := by
      clear * - h
      revert h
      generalize namedRegs = l
      induction l with
      | nil => simp [Cells.get?]
      | cons x l ih =>
        obtain ⟨k, y⟩ := x
        rw [Cells.get?_cons]
        split
        · intro h; cases h; simp
        · intro h; exact List.mem_cons_of_mem _ (ih h)
    constructor <;> (rintro k rfl; simp [namedRegs] at this)
  split at h
  · cases h
    refine ⟨fun k hk => ?_, by simp⟩
    cases hk
    unfold wstoreBase at *
    omega
  split at h
  · next hm => cases h; exact ⟨by simp, fun k hk => by cases hk; exact hm.2⟩
  · cases h

theorem writeReg_inv {s : State} {r : RegName} (v : Word) (h : s.Inv) (hk : ∀ k, r = .wstore k → k < 512)
    (hm : ∀ k, r = .map k → k < s.plat.maxLine) : (writeReg r v s).Inv := by
  cases r <;> first
    | exact h
    | exact h.same rfl rfl rfl rfl rfl rfl rfl rfl rfl
    | exact writeStatus_inv v h
    | exact writeWindow_inv h h.window
    | exact writeWindow_inv h ⟨Ram.wf_set _ (hk _ rfl) h.wstore, h.map⟩
    | exact writeWindow_inv h ⟨h.wstore, Ram.wf_set _ (hm _ rfl) h.map⟩
    | (simp only [writeReg, writeCtrl]; split
       · exact resetEngine_inv h
       · exact h.same rfl rfl rfl rfl rfl rfl rfl rfl rfl)

theorem readReg_inv {s : State} (r : RegName) (h : s.Inv) : (readReg r s).Inv := by
  unfold readReg
  split <;> exact h.same rfl rfl rfl rfl rfl rfl rfl rfl rfl

/-- A host write that taints a byte changes nothing else. -/
theorem taint_inv {s : State} (a : Nat) (h : s.Inv) :
    (taint a s).Inv ∧ taint a s = { s with inflight := (taint a s).inflight } := by
  unfold taint
  split
  · exact ⟨h, rfl⟩
  · next f hf =>
    split
    · refine ⟨⟨h.plat, h.mem, h.wstore, h.map, h.code, h.oneEnd, h.errAddr, h.dirty, h.marked, h.coherent, ?_⟩, rfl⟩
      rintro g hg
      cases hg
      exact h.running f hf
    · exact ⟨h, rfl⟩

theorem mem_without {a b : Nat} {l : List Nat} : b ∈ without a l ↔ b ∈ l ∧ b ≠ a := by
  simp [without]

/-- A change of memory and of the host's cache marks. -/
theorem State.Inv.cache {s t : State} (h : s.Inv) (hm : t.mem.wf = true) (hc : t.Cached) (hp : t.plat = s.plat)
    (hw : t.win = s.win) (hf : t.flags = s.flags) (ha : t.errAddr = s.errAddr) (hi : t.inflight = s.inflight) : t.Inv :=
  ⟨hp ▸ h.plat, hm, hw ▸ h.wstore, hw ▸ hp ▸ h.map, hf ▸ h.code, hf ▸ h.oneEnd, by rw [hf, ha]; exact h.errAddr, hc.1, hc.2.1,
    hc.2.2, by rw [hi, hf, hp]; exact h.running⟩

theorem hostStore_inv {s : State} (a : Nat) (v : Byte) (h : s.Inv) : (hostStore a v s).Inv := by
  unfold hostStore
  split
  · exact h.same rfl rfl rfl rfl rfl rfl rfl rfl rfl
  split
  · exact h.same rfl rfl rfl rfl rfl rfl rfl rfl rfl
  split
  · exact h.same rfl rfl rfl rfl rfl rfl rfl rfl rfl
  · next _ hok _ =>
    have ha : a < Config.spaceBytes := memOk_lt (by simpa using hok)
    have ht := (taint_inv a h).1
    dsimp only
    generalize taint a s = u at ht
    refine ht.cache (Memory.wf_write _ ha ht.mem) ⟨fun b hb => ?_, fun b hb => ht.marked b (mem_without.1 hb).1, fun hc => ?_⟩
      rfl rfl rfl rfl rfl
    · dsimp only at hb
      split at hb
      · exact ht.dirty b hb
      · rcases List.mem_insert_iff.1 hb with rfl | hb
        · exact ha
        · exact ht.dirty b hb
    · dsimp only at hc ⊢
      obtain ⟨h1, h2, h3⟩ := ht.coherent hc
      simp [hc, h1, h2, h3, without]

theorem hostLoad_inv {s : State} (a : Nat) (h : s.Inv) : (hostLoad a s).Inv := by
  unfold hostLoad
  split
  · exact h.same rfl rfl rfl rfl rfl rfl rfl rfl rfl
  split
  · exact h.same rfl rfl rfl rfl rfl rfl rfl rfl rfl
  split <;> exact h.same rfl rfl rfl rfl rfl rfl rfl rfl rfl

/-- Tainting a line taints bytes and changes nothing else. -/
theorem taintLine_inv {s : State} (a : Nat) (h : s.Inv) :
    (taintLine a s).Inv ∧ taintLine a s = { s with inflight := (taintLine a s).inflight } := by
  have key : ∀ l : List Nat, (l.foldr taint s).Inv ∧ l.foldr taint s = { s with inflight := (l.foldr taint s).inflight } := by
    intro l
    induction l with
    | nil => exact ⟨h, rfl⟩
    | cons b l ih =>
      obtain ⟨h1, h2⟩ := taint_inv b ih.1
      refine ⟨h1, ?_⟩
      show taint b (l.foldr taint s) = { s with inflight := (taint b (l.foldr taint s)).inflight }
      have h3 := ih.2
      generalize l.foldr taint s = u at h2 h3
      rw [h2, h3]
  unfold taintLine
  split
  · exact ⟨h, rfl⟩
  · exact key _

theorem mem_inLine {p : Platform} {a b : Nat} {l : List Nat} :
    b ∈ inLine p a l ↔ b ∈ l ∧ p.cacheLine a = p.cacheLine b := by simp [inLine, Platform.sameLine]

theorem mem_offLine {p : Platform} {a b : Nat} {l : List Nat} :
    b ∈ offLine p a l ↔ b ∈ l ∧ p.cacheLine a ≠ p.cacheLine b := by simp [offLine, Platform.sameLine]

/-- Scrambling bytes of the data space keeps memory canonical, and forgetting the marks of a line keeps them in bounds. -/
theorem forget_inv {s : State} (as : List Nat) (a : Nat) (stale : List Nat) (r : Reply) (h : s.Inv)
    (has : ∀ b ∈ as, b < Config.spaceBytes) (hst : s.plat.coherent = true → stale = []) :
    ({ scrambleBytes as s with
      hostDirty := offLine s.plat a s.hostDirty, hostOver := offLine s.plat a s.hostOver, hostStale := stale
      reply := r } : State).Inv := by
  have hwf := scrambleBytes_wf as s has h.mem
  have hf := scrambleBytes_frame as s
  generalize scrambleBytes as s = u at hwf hf
  refine h.cache hwf ⟨fun b hb => h.dirty b (mem_offLine.1 hb).1, fun b hb => h.marked b (mem_offLine.1 hb).1, fun hc => ?_⟩
    ?_ ?_ ?_ ?_ ?_
  · have hc : s.plat.coherent = true := by rw [hf] at hc; exact hc
    obtain ⟨h1, h2, -⟩ := h.coherent hc
    exact ⟨by simp [h1, offLine], by simp [h2, offLine], hst hc⟩
  all_goals rw [hf]

theorem hostClean_inv {s : State} (a : Nat) (h : s.Inv) : (hostClean a s).Inv := by
  unfold hostClean
  split
  · obtain ⟨hi, he⟩ := taintLine_inv a h
    have hd : (taintLine a s).hostDirty = s.hostDirty := by rw [he]
    have ho : (taintLine a s).hostOver = s.hostOver := by rw [he]
    have hp : (taintLine a s).plat = s.plat := by rw [he]
    generalize taintLine a s = u at hi hd ho hp
    have := forget_inv (inLine s.plat a s.hostOver) a u.hostStale .ack hi (fun b hb => h.marked b (mem_inLine.1 hb).1)
      (fun hc => (hi.coherent hc).2.2)
    rw [hd, ho, hp] at this
    refine Eq.mp (congrArg State.Inv ?_) this
    have hs := scrambleBytes_hostStale (inLine s.plat a s.hostOver) u
    generalize scrambleBytes (inLine s.plat a s.hostOver) u = v at hs
    rw [← hs]
  · exact h.same rfl rfl rfl rfl rfl rfl rfl rfl rfl

theorem hostInvalidate_inv {s : State} (a : Nat) (h : s.Inv) : (hostInvalidate a s).Inv :=
  forget_inv _ a _ .ack h (fun b hb => h.dirty b (mem_inLine.1 (List.mem_filter.1 hb).1).1)
    (fun hc => by simp [(h.coherent hc).2.2, without])

theorem rejectAccess_inv {s : State} (off : Nat) (h : s.Inv) : (rejectAccess off s).Inv := by
  unfold rejectAccess
  split <;> exact h.same rfl rfl rfl rfl rfl rfl rfl rfl rfl

end Sys2Proof.Machine
end

