-- ==== Sys2Proof/Laws/Host.lean ====
section
/-! SUPPORT. What one host step can do, said once: a step with a pending host step, a register write, a register read (R205,
R405-R407), and when a step of the machine answers no next state. -/

namespace Sys2Proof.Machine

@[simp] theorem advance_zero {s : State} (h : s.lead = .steps 0) : advance s = s := by simp [advance, h]

/-- A register access is well-formed exactly if it is 32 bits wide, 4-byte aligned and inside the window (R153, R407). -/
theorem wellFormed_iff (w : AccessWidth) (off : Nat) : w.wellFormed off = true ↔ w = .word ∧ off % 4 = 0 ∧ off < 0x50000 := by
  unfold AccessWidth.wellFormed
  rw [Bool.and_eq_true, Bool.and_eq_true, beq_iff_eq, beq_iff_eq, decide_eq_true_iff, and_assoc]
  rfl

/-- The step of a host that is not faulted. -/
theorem step_host {s : State} {e : HostEvent} {rest : List HostEvent} (hf : s.hostFault = false) (h : s.inbox = e :: rest) :
    step s = hostStep e { s with inbox := rest } := by simp [step, nextStep, h, hf]

/-- The step of a faulted host: time passes, or the reset input (R407, R480). -/
theorem step_faulted {s : State} {e : HostEvent} {rest : List HostEvent} (hf : s.hostFault = true) (h : s.inbox = e :: rest) :
    step s = .next (if e.op = .resetPin then advance (resetEngine { s with inbox := rest, lead := e.lead, reply := .ack })
      else advance { s with inbox := rest, lead := e.lead }) := by
  obtain ⟨op, l⟩ := e
  cases op <;> simp [step, nextStep, h, hf, stoppedEvent, hostStep]

/-- A register access that is not well-formed (R407; log entries 8, 15). -/
theorem rejectAccess_eq (off : Nat) (s : State) :
    rejectAccess off s = { s with reply := .busError, hostFault := decide (off < 0x50000) || s.hostFault } := by
  unfold rejectAccess badAccess refusedAccess Config.windowBytes
  split <;> simp_all

/-- A write of a register other than CMD (R406). -/
theorem hostStep_write {s : State} {off : Nat} {v : Word} {l : Lead} {r : RegName} (hw : AccessWidth.word.wellFormed off = true)
    (hr : regAt s.plat.maxLine off = some r) (hc : r ≠ .cmd) :
    hostStep ⟨.regWrite off .word v, l⟩ s = .next (advance (writeReg r v { s with lead := l, reply := .ack })) := by
  simp only [hostStep, busWrite, hw, if_true, hr]

/-- A CMD write (R400, R403). -/
theorem hostStep_cmd {s : State} {v : Word} {l : Lead} :
    hostStep ⟨.regWrite 0x14 .word v, l⟩ s = issueWord v { s with lead := l, reply := .ack } := by
  have hw : AccessWidth.word.wellFormed 0x14 = true := by decide
  have hr : regAt s.plat.maxLine 0x14 = some .cmd := rfl
  simp only [hostStep, busWrite, hw, if_true, hr]

/-- A read of a register (R405). -/
theorem hostStep_read {s : State} {off : Nat} {l : Lead} {r : RegName} (hw : AccessWidth.word.wellFormed off = true)
    (hr : regAt s.plat.maxLine off = some r) :
    hostStep ⟨.regRead off .word, l⟩ s = .next (advance (readReg r { s with lead := l })) := by
  simp only [hostStep, busRead, hw, if_true, hr]

/-- A read of a register that has a value now. -/
theorem readReg_value {s : State} {r : RegName} (h : unspecifiedNow s r = false) :
    readReg r s = { s with reply := .data (regValue s r) } := by simp [readReg, h]

/-- A read of a register whose value is unspecified now, in the register's width (R74, R405). -/
theorem readReg_unspecified {s : State} {r : RegName} (h : unspecifiedNow s r = true) :
    readReg r s = { s with
      draws := s.draws + 1
      reply := .data (BitVec.ofNat 32 ((Config.freeWord s.draws).toNat % 2 ^ regWidth r)) } := by
  have : inWidth r (Config.freeWord s.draws) = BitVec.ofNat 32 ((Config.freeWord s.draws).toNat % 2 ^ regWidth r) := by
    apply BitVec.eq_of_toNat_eq; simp [inWidth]
  rw [← this]
  simp [readReg, h, State.draw]

/-- A soft reset, at the CTRL write that causes it, leaves the host's own fields (R408). -/
theorem resetEngine_frame (s : State) :
    resetEngine s = { resetEngine s with
      plat := s.plat, hostDirty := s.hostDirty, hostFault := s.hostFault, inbox := s.inbox, lead := s.lead
      reply := s.reply, order := s.order } := by
  unfold resetEngine abandon
  split
  · rfl
  · next f _ =>
    have := releaseUnspecified_frame f s
    generalize releaseUnspecified f s = u at this
    dsimp only
    rw [this]

theorem get?_mem {α : Type} {l : List (Nat × α)} {k : Nat} {v : α} (h : Cells.get? l k = some v) : (k, v) ∈ l := by
  induction l with
  | nil => cases h
  | cons x l ih =>
    obtain ⟨j, y⟩ := x
    rw [Cells.get?_cons] at h
    split at h
    · next he => cases h; rw [he]; exact List.mem_cons_self
    · exact List.mem_cons_of_mem _ (ih h)

/-- CMD stands at offset 0x14 only (R50). -/
theorem regAt_cmd {maxLine off : Nat} (h : regAt maxLine off = some .cmd) : off = 0x14 := by
  unfold regAt at h
  split_ifs at h
  · simpa [namedRegs] using get?_mem h
  all_goals cases h

/-- WSTORE[k] and MAP[k] stand where R50 puts them. -/
theorem regAt_wstore {k : Nat} (maxLine : Nat) (hk : k < 512) : regAt maxLine (wstoreBase + 4 * k) = some (.wstore k) := by
  have h4 : (wstoreBase + 4 * k) % 4 = 0 := by unfold wstoreBase; omega
  have hd : (wstoreBase + 4 * k - wstoreBase) / 4 = k := by omega
  rw [regAt, if_neg (by omega), if_neg (by omega), if_pos (by omega), hd]

theorem regAt_map {maxLine k : Nat} (hk : k < maxLine) : regAt maxLine (mapBase + 4 * k) = some (.map k) := by
  have h4 : ¬(mapBase + 4 * k) % 4 ≠ 0 := by unfold mapBase; omega
  have h1 : ¬mapBase + 4 * k < wstoreBase := by unfold mapBase wstoreBase; omega
  have h2 : ¬mapBase + 4 * k < wstoreBase + 4 * 512 := by unfold mapBase wstoreBase; omega
  have hd : (mapBase + 4 * k - mapBase) / 4 = k := by omega
  unfold regAt
  rw [if_neg h4, if_neg h1, if_neg h2, hd]
  exact if_pos ⟨Nat.le_add_right _ _, hk⟩

/-- The only step that may answer no next state is the CMD write of a command's word (R151, R154). -/
theorem hostStep_next {s : State} {e : HostEvent} (h : ∀ t, hostStep e s ≠ .next t) :
    ∃ w i, e.op = .regWrite 0x14 .word w ∧ decode w = some i
      ∧ hostStep e s = exec i { s with lead := e.lead, reply := .ack } := by
  obtain ⟨op, l⟩ := e
  cases op with
  | regWrite off w v =>
    by_cases hw : w.wellFormed off = true
    · obtain ⟨rfl, -⟩ := (wellFormed_iff w off).1 hw
      cases hr : regAt s.plat.maxLine off with
      | none =>
        simp only [hostStep, busWrite, hw, if_true, hr] at h
        exact absurd rfl (h _)
      | some r =>
        by_cases hc : r = .cmd
        · subst hc
          have hoff : off = 0x14 := regAt_cmd hr
          subst hoff
          rw [hostStep_cmd] at h ⊢
          unfold issueWord at h ⊢
          cases hd : decode v with
          | none => rw [hd] at h; exact absurd rfl (h _)
          | some i => exact ⟨v, i, rfl, hd, rfl⟩
        · rw [hostStep_write hw hr hc] at h
          exact absurd rfl (h _)
    · simp only [hostStep, busWrite, hw] at h
      exact absurd rfl (h _)
  | _ => exact absurd rfl (h _)

end Sys2Proof.Machine
end

