-- ==== Sys2Proof/Laws/PerInstr.lean ====
section
/-! SUPPORT. One lemma per command for the claims made of every command as syntax: its fields are legal (R202, R203), and its
word, its bytes and its opcode-table row decode to it. -/

namespace Sys2Proof.Laws.RoundTrip

/-- What holds of every command as syntax. -/
def Statement (i : Instr) : Prop :=
  i.wellFormed = true
  ∧ (fieldsOfInstr i).wellFormed = true
  ∧ fieldsOf (encode i) = fieldsOfInstr i
  ∧ decode (encode i) = some i
  ∧ decodeTableWord 32 (encode i).toNat = some i
  ∧ (encode i, i) ∈ opcodeMap

theorem nop : Statement .nop := by unfold Statement; decide
theorem mapgen : Statement .mapgen := by unfold Statement; decide
theorem winitT : Statement .winitT := by unfold Statement; decide
theorem winitU : Statement .winitU := by unfold Statement; decide
theorem slideT : Statement .slideT := by unfold Statement; decide
theorem slideU : Statement .slideU := by unfold Statement; decide
theorem blurT : Statement .blurT := by unfold Statement; decide
theorem blurU : Statement .blurU := by unfold Statement; decide
theorem grey : Statement .grey := by unfold Statement; decide
theorem diffthr : Statement .diffthr := by unfold Statement; decide
theorem unsharp : Statement .unsharp := by unfold Statement; decide

end Sys2Proof.Laws.RoundTrip
end

