-- ==== Sys2Proof/Tests/Slice0.lean ====
section
/-! SUPPORT. The tests: ill-formed terms refused, words written out from the spec's encoding, one step per command with
results from the spec's test vectors (95_test_vectors.md), and, for every statement with hypotheses, a concrete state that
meets them. -/

namespace Sys2Proof.Machine.Tests

set_option Elab.async false

/-! ## WellFormed: an ill-formed term for each check -/

theorem test_wf_reservedBit : (CmdWord.mk 1 0 4).wellFormed = false ∧ (CmdWord.mk 1 0 4).rsvOk = false := by decide
theorem test_wf_op8 : (CmdWord.mk 0 0 8).wellFormed = false ∧ (CmdWord.mk 0 0 8).opOk = false := by decide
theorem test_wf_greyU : (CmdWord.mk 0 1 5).wellFormed = false ∧ (CmdWord.mk 0 1 5).varOk = false := by decide
theorem test_wf_slideU : (CmdWord.mk 0 1 3).wellFormed = true := by decide
theorem test_wf_regBase : (Platform.mk 0x40000 4096 [] [] true 64).wellFormed = false := by decide
theorem test_wf_maxLine0 : (Platform.mk 0x80000 0 [] [] true 64).wellFormed = false := by decide
theorem test_wf_maxLine65536 : (Platform.mk 0x80000 65536 [] [] true 64).wellFormed = false := by decide
theorem test_wf_cacheBytes0 : (Platform.mk 0x80000 4096 [] [] true 0).wellFormed = false := by decide
theorem test_wf_access8 : AccessWidth.byte.wellFormed 0x10 = false := by decide
theorem test_wf_accessUnaligned : AccessWidth.word.wellFormed 0x12 = false := by decide
theorem test_wf_accessOutside : AccessWidth.word.wellFormed 0x50000 = false ∧ AccessWidth.word.wellFormed 0x4FFFC = true := by
  decide
theorem test_wf_wstore512 : (RegName.wstore 512).wellFormed 4096 = false ∧ (RegName.wstore 511).wellFormed 4096 = true := by
  decide
theorem test_wf_mapPastEnd : (RegName.map 4096).wellFormed 4096 = false ∧ (RegName.map 4095).wellFormed 4096 = true := by
  decide

/-! ## Decode: words written out as RSV (27 bits), VAR, OP (R200, R202), and the illegal words of 2.8 -/

theorem test_decode_nop : decode 0b000000000000000000000000000_0_0000#32 = some .nop := by decide
theorem test_decode_mapgen : decode 0b000000000000000000000000000_0_0001#32 = some .mapgen := by decide
theorem test_decode_winitT : decode 0b000000000000000000000000000_0_0010#32 = some .winitT := by decide
theorem test_decode_winitU : decode 0b000000000000000000000000000_1_0010#32 = some .winitU := by decide
theorem test_decode_slideT : decode 0b000000000000000000000000000_0_0011#32 = some .slideT := by decide
theorem test_decode_slideU : decode 0b000000000000000000000000000_1_0011#32 = some .slideU := by decide
theorem test_decode_blurT : decode 0b000000000000000000000000000_0_0100#32 = some .blurT := by decide
theorem test_decode_blurU : decode 0b000000000000000000000000000_1_0100#32 = some .blurU := by decide
theorem test_decode_grey : decode 0b000000000000000000000000000_0_0101#32 = some .grey := by decide
theorem test_decode_diffthr : decode 0b000000000000000000000000000_0_0110#32 = some .diffthr := by decide
theorem test_decode_unsharp : decode 0b000000000000000000000000000_0_0111#32 = some .unsharp := by decide

theorem test_decode_illegal :
    [0x10#32, 0x11#32, 0x15#32, 0x16#32, 0x17#32, 0x08#32, 0x0F#32, 0x18#32, 0x1F#32, 0x24#32, 0x80000004#32,
      0xFFFFFFFF#32].map decode = List.replicate 12 none := by decide +kernel

/-- The reason a word is rejected, if it is. -/
def rejected (w : Word) : Option Reject :=
  match decodeWord w with
  | .ok _ => none
  | .error r => some r

theorem test_decode_reasons :
    rejected 0x24#32 = some .reservedBits ∧ rejected 0x18#32 = some .reservedOp
      ∧ rejected 0x15#32 = some .variantNotAllowed := by decide

theorem test_encode_map : ∀ p ∈ opcodeMap, encode p.2 = p.1 := by decide
theorem test_decode_bytes :
    (decodeBytes [0x12#8, 0#8, 0#8, 0#8, 0xAA#8]).toOption = some (.winitU, [0xAA#8]) := by decide
theorem test_decode_truncated : (decodeBytes [0x12#8, 0#8, 0#8]).toOption = none := by decide

/-! ## The test machine -/

/-- A platform with memory everywhere and cache lines of 64 bytes. -/
def plat : Platform := ⟨0xF0000000, 4096, [], [], true, 64⟩

/-- Consecutive bytes from address `a`. -/
def bytesFrom (a : Nat) (bs : List Nat) : Memory := bs.mapIdx (fun i b => (a + i, BitVec.ofNat 8 b))

/-- An idle machine with operands and memory, whose tracks go in ascending order. -/
def machine (ops : OperandRegs) (mem : Memory) : State :=
  { State.reset with plat := plat, ops := ops, mem := mem, order := [] }

/-- Operands of a line command: L, s, r at SRC 0x1000, DST 0x2000. -/
def lineOps (L s r : Nat) : OperandRegs :=
  { OperandRegs.reset with
    srcAddr := 0x1000, dstAddr := 0x2000, radius := BitVec.ofNat 8 r, lineLen := BitVec.ofNat 16 L
    lineStride := BitVec.ofNat 16 s }

/-- Operands of a whole-image command: w, h and LEN at SRC 0x1000, DST and WORK 0x2000. -/
def imageOps (w h len : Nat) : OperandRegs :=
  { OperandRegs.reset with
    srcAddr := 0x1000, dstAddr := 0x2000, workAddr := 0x2000, len := BitVec.ofNat 32 len
    width := BitVec.ofNat 16 w, height := BitVec.ofNat 16 h, radius := 1, steps := 1 }

/-- The line 10, 20, 30, 40 with r = 2 (P1). -/
def ramp : State := machine (lineOps 4 1 2) (bytesFrom 0x1000 [10, 20, 30, 40])

/-- A window as WINIT.T leaves it for `ramp`, with MAPGEN's mapping (P1). -/
def rampWindow : Window :=
  { wsum := 130, insum := 50, outsum := 30, sp := 2, pos := 0
    wstore := ⟨0, [(0, 10), (1, 10), (2, 10), (3, 20), (4, 30)]⟩
    map := ⟨1, [(0, 3), (1, 3), (2, 3), (3, 3)]⟩ }

/-- `ramp` ready for SLIDE.T. -/
def slideReady : State := { ramp with win := rampWindow }

/-- `ramp` ready for SLIDE.U, in the window WINIT.U leaves (R256). -/
def slideReadyU : State := { ramp with win := { rampWindow with wsum := 80 } }

/-- The 3 by 3 impulse (P3). -/
def impulse : State := machine (imageOps 3 3 9) (bytesFrom 0x1000 [0, 0, 0, 0, 255, 0, 0, 0, 0])

/-- The four RGBA pixels of 2.7. -/
def pixels : Memory :=
  bytesFrom 0x1000 [10, 20, 30, 255, 200, 100, 50, 128, 0, 0, 0, 0, 255, 255, 255, 255]

/-- One RGBA pixel with luma and blurred luma at WORK (2.6). -/
def onePixel (bs : List Nat) (g b amount threshold : Nat) : State :=
  machine
    { imageOps 1 1 4 with amount := BitVec.ofNat 16 amount, threshold := BitVec.ofNat 16 threshold }
    (bytesFrom 0x1000 bs ++ bytesFrom 0x2000 [g, b])

/-- What an outcome's state says, if there is one. -/
def saw {α : Type} (o : Host.Outcome State Fault Refusal) (f : State → α) : Option α :=
  match o with
  | .next s => some (f s)
  | .fault _ => none
  | .refused _ => none

/-- Bytes of memory as numbers. -/
def bytesAt (a n : Nat) (s : State) : List Nat := (List.range n).map (fun i => (s.mem.read (a + i)).toNat)

/-- WSUM, INSUM, OUTSUM, SP, POS. -/
def sums (s : State) : List Nat :=
  [s.win.wsum.toNat, s.win.insum.toNat, s.win.outsum.toNat, s.win.sp.toNat, s.win.pos.toNat]

/-- WSTORE[0..n-1] and MAP[0..n-1]. -/
def storeAt (n : Nat) (s : State) : List Nat := (List.range n).map (fun k => (s.win.wstore.get k).toNat)
def mapAt (n : Nat) (s : State) : List Nat := (List.range n).map (fun k => (s.win.map.get k).toNat)

/-- The state after a next outcome. -/
def after (o : Host.Outcome State Fault Refusal) : State :=
  match o with
  | .next s => s
  | .fault _ => State.reset
  | .refused _ => State.reset

/-- Whether an outcome is a next state. -/
def isNext (o : Host.Outcome State Fault Refusal) : Bool := (saw o (fun _ => ())).isSome

theorem exists_next {o : Host.Outcome State Fault Refusal} (h : isNext o = true) : ∃ t, o = .next t := by
  cases o with
  | next t => exact ⟨t, rfl⟩
  | fault _ => simp [isNext, saw] at h
  | refused _ => simp [isNext, saw] at h

theorem eq_next_after {o : Host.Outcome State Fault Refusal} (h : isNext o = true) : o = .next (after o) := by
  obtain ⟨t, rfl⟩ := exists_next h
  rfl

/-! ## One step of each command, expected results from 95_test_vectors.md -/

/-- NOP after reset with DONE_IE: STATUS 2, irq 1 (2.9). -/
theorem test_nop :
    saw (step ({ State.reset with ctrl := ⟨true, false, false⟩ }.withFetchWord 32 0)) (fun s => (s.statusWord, s.irq))
      = some (2#32, true) := by decide +kernel

/-- CMD MAPGEN after reset: E_DIM, STATUS 0x204 (2.9). -/
theorem test_mapgen_reset : saw (step (State.reset.withFetchWord 32 1)) State.statusWord = some 0x204#32 := by
  decide +kernel

/-- L = 6, r = 1, s = 1 (R252). -/
theorem test_mapgen : saw (exec .mapgen (machine (lineOps 6 1 1) [])) (mapAt 6) = some [2, 3, 4, 5, 5, 5] := by
  decide +kernel

/-- R255. -/
theorem test_winitT :
    saw (exec .winitT ramp) (fun s => (sums s, storeAt 5 s)) = some ([130, 50, 30, 2, 0], [10, 10, 10, 20, 30]) := by
  decide +kernel

/-- R256. -/
theorem test_winitU :
    saw (exec .winitU ramp) (fun s => (sums s, storeAt 5 s)) = some ([80, 50, 30, 2, 0], [10, 10, 10, 20, 30]) := by
  decide +kernel

/-- P1. -/
theorem test_slideT :
    saw (exec .slideT slideReady) (fun s => (bytesAt 0x2000 4 s, sums s, storeAt 5 s))
      = some ([14, 21, 28, 35], [350, 80, 110, 1, 4], [40, 40, 40, 40, 30]) := by decide +kernel

/-- The forged state of R264. -/
theorem test_slideT_wraps :
    saw (exec .slideT { machine (lineOps 1 1 0) (bytesFrom 0x1000 [9]) with
        win := ⟨⟨1000, 0, 2000, 0, 0, ⟨0, [(0, 5)]⟩⟩, ⟨1, [(0, 0)]⟩⟩ })
      (fun s => (bytesAt 0x2000 1 s, sums s, storeAt 1 s)) = some ([232], [4294966305, 0, 2004, 0, 1], [9]) := by
  decide +kernel

/-- The line 0, 0, 0, 255, 255, 255 with r = 1 (R260), from the window of WINIT.U. -/
theorem test_slideU :
    saw (exec .slideU { machine (lineOps 6 1 1) (bytesFrom 0x1000 [0, 0, 0, 255, 255, 255]) with
        win := ⟨⟨0, 0, 0, 1, 0, ⟨0, [(0, 0), (1, 0), (2, 0)]⟩⟩, ⟨1, []⟩⟩ })
      (fun s => (bytesAt 0x2000 6 s, sums s)) = some ([0, 0, 85, 170, 255, 255], [765, 255, 510, 1, 6]) := by
  decide +kernel

/-- The impulse (R301). -/
theorem test_blurT :
    saw (exec .blurT impulse) (fun s => (bytesAt 0x2000 9 s, s.statusWord))
      = some ([15, 31, 15, 31, 63, 31, 15, 31, 15], 2#32) := by decide +kernel

/-- The impulse (R301) again, its bytes and lines in another order (R156 b): the last track of a phase goes first. -/
theorem test_blurT_anyOrder :
    saw (exec .blurT { impulse with order := [8, 7, 6, 5, 4, 3, 2, 1, 2, 1, 0, 1, 1, 2] })
      (fun s => (bytesAt 0x2000 9 s, s.order)) = some ([15, 31, 15, 31, 63, 31, 15, 31, 15], []) := by decide +kernel

/-- Which byte of the copy stands after two engine steps is a matter of the order (R156 b). -/
theorem test_order_shows_in_flight :
    saw (exec .blurT { impulse with lead := .steps 2, order := [4, 0] }) (fun s => bytesAt 0x2004 1 s) = some [255]
    ∧ saw (exec .blurT { impulse with lead := .steps 2, mem := bytesFrom 0x1000 [7] }) (fun s => bytesAt 0x2000 1 s)
      = some [7] := by decide +kernel

/-- The impulse (R302). -/
theorem test_blurU :
    saw (exec .blurU impulse) (bytesAt 0x2000 9) = some [28, 28, 28, 28, 28, 28, 28, 28, 28] := by decide +kernel

/-- Pure red, green, blue and (10, 20, 30) (2.5). -/
theorem test_grey :
    saw (exec .grey (machine (imageOps 2 2 16)
        (bytesFrom 0x1000 [255, 0, 0, 9, 0, 255, 0, 9, 0, 0, 255, 9, 10, 20, 30, 40]))) (bytesAt 0x2000 4)
      = some [76, 149, 29, 18] := by decide +kernel

/-- diff = -3, AMOUNT = 100: the correction is -1, not -2 (2.6). -/
theorem test_diffthr_truncates :
    saw (exec .diffthr (onePixel [100, 100, 100, 7] 97 100 100 0)) (bytesAt 0x1000 4) = some [99, 99, 99, 7] := by
  decide +kernel

/-- diff = 20 is not above THRESHOLD = 20 (2.6). -/
theorem test_diffthr_strict :
    saw (exec .diffthr (onePixel [100, 100, 100, 7] 120 100 250 20)) (bytesAt 0x1000 4) = some [100, 100, 100, 7] := by
  decide +kernel

/-- The two-pixel row of a 1 by 1 image is unchanged; its luma is at WORK twice (R358, w = h = 1). -/
theorem test_unsharp_single :
    saw (exec .unsharp (onePixel [255, 0, 0, 9] 0 0 500 0)) (fun s => (bytesAt 0x1000 4 s, bytesAt 0x2000 2 s))
      = some ([255, 0, 0, 9], [76, 76]) := by decide +kernel

/-- The 2 by 2 row of 2.7 with AMOUNT = 500, THRESHOLD = 2. -/
theorem test_unsharp :
    saw (exec .unsharp (machine { imageOps 2 2 16 with amount := 500, threshold := 2 } pixels))
      (fun s => (bytesAt 0x1000 16 s, bytesAt 0x2000 8 s))
      = some ([0, 0, 0, 255, 254, 154, 104, 128, 0, 0, 0, 0, 255, 255, 255, 255], [18, 124, 0, 255, 95, 97, 95, 98]) := by
  decide +kernel

/-! ## Registers, errors and reset (2.9, P5, P6) -/

/-- The reply to one host step. -/
def replyTo (op : HostOp) (s : State) : Option Reply := saw (step { s with inbox := [⟨op, .steps 0⟩] }) State.reply

theorem test_caps : replyTo (.regRead 0x08 .word) impulse = some (.data 0x00FF1000#32) := by decide +kernel

theorem test_radius_width :
    replyTo (.regRead 0x38 .word) (after (step { impulse with inbox := [⟨.regWrite 0x38 .word 0x1234, .steps 0⟩] }))
      = some (.data 0x34#32) := by decide +kernel

theorem test_reserved : replyTo (.regRead 0x60 .word) impulse = some (.data 0#32) := by decide +kernel

/-- R407: a bus error, and the host is faulted; it then only lets time pass, until the reset input. -/
theorem test_bad_access : replyTo (.regRead 0x10 .byte) impulse = some .busError
    ∧ replyTo (.regRead 0x12 .word) impulse = some .busError
    ∧ saw (step { impulse with inbox := [⟨.regRead 0x10 .byte, .steps 0⟩] }) State.hostFault = some true
    ∧ saw (step { impulse with hostFault := true, inbox := [⟨.regWrite 0x20 .word 5, .steps 0⟩] })
      (fun s => s.ops.srcAddr) = some 0x1000#32
    ∧ saw (step { impulse with hostFault := true, inbox := [⟨.resetPin, .steps 0⟩] }) (fun s => s.ops.srcAddr)
      = some 0#32 := by decide +kernel

/-- STATUS = 0x204, WR STATUS, 4: STATUS = 0. -/
theorem test_status_clear :
    saw (step { impulse with flags := ⟨false, true, false, .dim⟩, inbox := [⟨.regWrite 0x10 .word 4, .steps 0⟩] })
      State.statusWord = some 0#32 := by decide +kernel

/-- The checks of 2.4: E_LEN, E_DIM before E_LEN, E_OVERLAP. -/
theorem test_blur_checks :
    saw (exec .blurT { impulse with ops := imageOps 3 3 8 }) (fun s => s.flags.code) = some .len
    ∧ saw (exec .blurT { impulse with ops := imageOps 0 3 8 }) (fun s => s.flags.code) = some .dim
    ∧ saw (exec .blurT { impulse with ops := { imageOps 3 3 9 with dstAddr := 0x1005 } }) (fun s => s.flags.code)
      = some .overlap := by decide +kernel

/-- The range checks of 2.4: SRC = 0xFFFFFFFA fails, SRC = 0xFFFFFFF7 passes. -/
theorem test_blur_range :
    saw (exec .blurT { impulse with ops := { imageOps 3 3 9 with srcAddr := 0xFFFFFFFA } }) (fun s => s.flags.code)
      = some .range
    ∧ expectedError .blurT { imageOps 3 3 9 with srcAddr := 0xFFFFFFF7 } impulse.win plat = none := by decide +kernel

/-- A NOP written while busy is lost, one written after completion is accepted (P6). -/
theorem test_issue_orders :
    saw (step { after (exec .blurT { impulse with lead := .steps 5 }) with inbox := [cmdWrite 0#32] })
      (fun s => (s.statusWord, s.cmd)) = some (0xA#32, 4#32)
    ∧ saw (step { after (exec .blurT impulse) with inbox := [cmdWrite 0#32] })
      (fun s => (s.statusWord, s.cmd)) = some (2#32, 0#32) := by decide +kernel

/-- A soft reset with CTRL = 7, STATUS = 2 (2.9). -/
theorem test_soft_reset :
    saw (step { impulse with ctrl := ⟨true, true, true⟩, flags := ⟨true, false, false, .none⟩,
                             inbox := [⟨.regWrite 0x0C .word 0x80000007, .steps 0⟩] })
      (fun s => (s.ctrlWord, s.statusWord, s.ops.steps, s.irq)) = some (0#32, 0#32, 1#8, false) := by decide +kernel

/-- R160 with 64-byte lines: a dirty byte beside the source taints the nine source bytes of its line; the ended command leaves
the lines of its write footprint stale, and a store does not end that. -/
theorem test_cache_lines :
    let s := { impulse with plat := { plat with coherent := false }, hostDirty := [0x1020], lead := .steps 0 }
    let u := { s with hostDirty := [], lead := .untilDone }
    ((after (exec .blurT s)).inflight.map InFlight.tainted = some (span 0x1000 9))
      ∧ saw (exec .blurT u) (fun t => (t.hostStale, (hostStore 0x2000 7 t).hostStale, (hostInvalidate 0x203F t).hostStale))
        = some ([0x80], [0x80], []) := by decide +kernel

/-! ## Witnesses: for every statement with hypotheses, a state and operands that meet them, clause by clause -/

/-- An idle machine with one pending host step. -/
def pending (op : HostOp) : State := { impulse with inbox := [⟨op, .steps 0⟩] }

/-- The impulse blur after five engine steps. -/
def busyBlur : State := after (exec .blurT { impulse with lead := .steps 5 })

/-- SLIDE.T on `ramp` after its step 0. -/
def busySlide : State := after (exec .slideT { slideReady with lead := .steps 11 })

/-- The impulse blur in flight, with one pending host step. -/
def busyPending (op : HostOp) : State := { busyBlur with lead := .steps 0, inbox := [⟨op, .steps 0⟩] }

/-- A machine whose platform does not answer at the given addresses. -/
def holed (holes : List Region) (s : State) : State := { s with plat := { plat with holes := holes } }

/-- A machine with memory that is not idempotent at the given addresses. -/
def deviced (devices : List Region) (s : State) : State := { s with plat := { plat with devices := devices } }

/-- A machine without coherence, with bytes the host stored and did not write back. -/
def uncoherent (dirty : List Nat) (s : State) : State :=
  { s with plat := { plat with coherent := false }, hostDirty := dirty }

theorem witness_DecodeIsTheOpcodeMap : decode 0x15#32 = none ∧ State.reset.inflight = none := by decide

theorem witness_StepRunsTheWrittenCommand :
    impulse.hostFault = false ∧ (pending (.regWrite 0x14 .word 0x14#32)).inbox = ⟨.regWrite 0x14 .word 0x14#32, .steps 0⟩ :: []
      ∧ decode 0x14#32 = some .blurU := by decide

theorem witness_EngineStepsAloneAndOnlyWhileBusy : busyBlur.inbox = [] ∧ busyBlur.busy = true ∧ impulse.busy = false := by
  decide +kernel

theorem witness_IdentificationRegisters :
    impulse.hostFault = false ∧ (pending (.regRead 0x00 .word)).inbox = ⟨.regRead 0x00 .word, .steps 0⟩ :: []
      ∧ (pending (.regRead 0x04 .word)).inbox = ⟨.regRead 0x04 .word, .steps 0⟩ :: []
      ∧ ((pending (.regRead 0x08 .word)).plat.wellFormed = true
        ∧ (pending (.regRead 0x08 .word)).inbox = ⟨.regRead 0x08 .word, .steps 0⟩ :: [])
      ∧ (pending (.regWrite 0x08 .word 5)).inbox = ⟨.regWrite 0x08 .word 5, .steps 0⟩ :: [] := by decide

/-- Idle with CMD and ERRADDR, busy in a blur, and busy in a SLIDE.T that has moved POS to 1 (R405, D50). -/
theorem witness_RegisterReadsReturnValues :
    impulse.hostFault = false ∧ busyBlur.hostFault = false
      ∧ (pending (.regRead 0x14 .word)).inbox = ⟨.regRead 0x14 .word, .steps 0⟩ :: []
      ∧ (busyPending (.regRead 0x4C .word)).inbox = ⟨.regRead 0x4C .word, .steps 0⟩ :: []
      ∧ (pending (.regRead 0x1C .word)).inflight = none
      ∧ (busyPending (.regRead 0x1C .word)).inflight.map InFlight.cmd = some .blurT
      ∧ busySlide.inflight.map InFlight.cmd = some .slideT ∧ busySlide.hostFault = false
      ∧ replyTo (.regRead 0x1C .word) busySlide = some (.data 1#32) := by decide +kernel

theorem witness_BadRegisterAccessChangesNothing :
    impulse.hostFault = false ∧ busyBlur.hostFault = false
      ∧ (AccessWidth.byte ≠ .word ∧ (pending (.regRead 0x10 .byte)).inbox = ⟨.regRead 0x10 .byte, .steps 0⟩ :: [])
      ∧ (0x12 % 4 ≠ 0 ∧ (busyPending (.regWrite 0x12 .word 7)).inbox = ⟨.regWrite 0x12 .word 7, .steps 0⟩ :: [])
      ∧ (0x50000 ≤ 0x50000 ∧ (pending (.regRead 0x50000 .word)).inbox = ⟨.regRead 0x50000 .word, .steps 0⟩ :: [])
      ∧ ({ pending (.regRead 0x10 .word) with hostFault := true }.hostFault = true
        ∧ (pending (.regRead 0x10 .word)).inbox = ⟨.regRead 0x10 .word, .steps 0⟩ :: []
        ∧ HostOp.regRead 0x10 .word ≠ .resetPin) := by
  decide +kernel

theorem witness_ReservedOffsetsReadZeroAndIgnoreWrites :
    impulse.hostFault = false ∧ [0x60, 0x7FC, 0x1000, 0xFFFC, 0x10000 + 4 * plat.maxLine, 0x4FFFC].all (fun off =>
      decide (off % 4 = 0) && decide (off < 0x50000)
        && decide (0x60 ≤ off ∧ off < 0x800 ∨ 0x1000 ≤ off ∧ off < 0x10000 ∨ 0x10000 + 4 * plat.maxLine ≤ off)) = true
      ∧ (pending (.regRead 0x60 .word)).inbox = ⟨.regRead 0x60 .word, .steps 0⟩ :: []
      ∧ (pending (.regWrite 0x4FFFC .word 5)).inbox = ⟨.regWrite 0x4FFFC .word 5, .steps 0⟩ :: [] := by decide +kernel

theorem witness_OperandWritesStoreTheirWidth :
    impulse.hostFault = false ∧ busyBlur.hostFault = false ∧ (pending (.regWrite 0x20 .word 0xFFFFFFFF)).inbox = ⟨.regWrite 0x20 .word 0xFFFFFFFF, .steps 0⟩ :: []
      ∧ (busyPending (.regWrite 0x4C .word 0xFFFFFFFF)).inbox = ⟨.regWrite 0x4C .word 0xFFFFFFFF, .steps 0⟩ :: [] :=
  ⟨rfl, by decide +kernel, rfl, rfl⟩

theorem witness_WindowRegistersAreTheHostsOnlyWhileIdle :
    (impulse.hostFault = false ∧ busyBlur.hostFault = false ∧ impulse.busy = false ∧ busyBlur.busy = true
      ∧ impulse.plat.wellFormed = true ∧ busyBlur.plat.wellFormed = true)
      ∧ (let op : HostOp := .regWrite 0x13FFC .word 5
        { pending op with inbox := [⟨op, .steps 0⟩, ⟨.regRead 0x13FFC .word, .steps 0⟩] }.inbox
          = ⟨op, .steps 0⟩ :: ⟨.regRead 0x13FFC .word, .steps 0⟩ :: [])
      ∧ (∃ k < 512, 0x800 = 0x800 + 4 * k) ∧ (∃ k < 512, 0xFFC = 0x800 + 4 * k)
      ∧ (∃ k < plat.maxLine, 0x10000 = 0x10000 + 4 * k) ∧ (∃ k < plat.maxLine, 0x13FFC = 0x10000 + 4 * k) := by
  refine ⟨by decide +kernel, rfl, ⟨0, by decide, rfl⟩, ⟨511, by decide, rfl⟩, ⟨0, by decide, rfl⟩, ⟨4095, by decide, rfl⟩⟩

theorem witness_CtrlWriteAndRead :
    impulse.hostFault = false ∧ (pending (.regWrite 0x0C .word 5)).inbox = ⟨.regWrite 0x0C .word 5, .steps 0⟩ :: []
      ∧ (5#32).getLsbD 31 = false ∧ (0x80000007#32).getLsbD 31 = true
      ∧ (pending (.regRead 0x0C .word)).inbox = ⟨.regRead 0x0C .word, .steps 0⟩ :: [] := by decide

theorem witness_StatusLayoutAndWriteOneToClear :
    impulse.hostFault = false ∧ ((pending (.regRead 0x10 .word)).flags.err = false → (pending (.regRead 0x10 .word)).flags.code = .none)
      ∧ ({ pending (.regWrite 0x10 .word 4) with flags := ⟨false, true, false, .dim⟩ }.flags.err = true) := by decide

theorem witness_WaitPollsUntilIdle :
    impulse.hostFault = false ∧ busyBlur.hostFault = false ∧ ((busyPending .wait).inbox = ⟨.wait, .steps 0⟩ :: [] ∧ (busyPending .wait).busy = true)
      ∧ ((pending .wait).inbox = ⟨.wait, .steps 0⟩ :: [] ∧ (pending .wait).busy = false) := by decide +kernel

/-- A command of the host that is in the language (R206): the offset of MAP[4095] is that of R50. -/
theorem witness_HostProgramsExpand : 4096 ≤ 65535 ∧ (RegName.map 4095).wellFormed 4096 = true
    ∧ program (.steps 0) [.mem 0xFFFFFFFF [1, 2]]
      = [⟨.memWrite 0xFFFFFFFF 1, .steps 0⟩, ⟨.memWrite 0x100000000 2, .steps 0⟩] := by decide

theorem witness_ResetAbandonsAndRestores :
    busyBlur.hostFault = false ∧ (busyPending .resetPin).inbox = ⟨.resetPin, .steps 0⟩ :: []
      ∧ (0x80000007#32).getLsbD 31 = true
      ∧ (busyPending (.regWrite 0x0C .word 0x80000007)).inbox = ⟨.regWrite 0x0C .word 0x80000007, .steps 0⟩ :: []
      ∧ (busyPending .resetPin).inflight.isSome = true := by decide +kernel

theorem witness_NopCompletesAtOnce : State.reset.inflight = none := rfl

theorem witness_IssueWhileBusyIsLost : (busyPending .pause).busy = true ∧ (busyPending .pause).lead = .steps 0 := by
  decide +kernel

/-- Every error of the acceptance checks, and none (R432). -/
theorem witness_AcceptanceChecksInOrder :
    impulse.inflight = none ∧ decode 0x15#32 = none ∧ decode 0x14#32 = some .blurU
      ∧ expectedError .slideT (lineOps 0 1 0) rampWindow plat = some .dim
      ∧ expectedError .grey (imageOps 3 3 35) impulse.win plat = some .len
      ∧ expectedError .slideT { lineOps 2 1 0 with srcAddr := 0xFFFFFFFD } rampWindow plat = some .range
      ∧ expectedError .unsharp { imageOps 3 3 36 with workAddr := 0x1023 } impulse.win plat = some .overlap
      ∧ expectedError .unsharp { imageOps 3 3 36 with workAddr := 0x1024 } impulse.win plat = none := by
  decide +kernel

/-- The first and the last byte of the register window are in it, the next is not; a device beside it. -/
theorem witness_OnlyForbiddenBuffersStopTheMachine :
    let inWin := { impulse with ops := { imageOps 1 1 1 with srcAddr := 0xF0000000 } }
    let inDev := deviced [⟨0x1000, 1⟩] { impulse with ops := imageOps 1 1 1 }
    (inWin.inflight = none ∧ expectedError .blurT inWin.ops inWin.win inWin.plat = none
      ∧ ∃ a ∈ (inWin.footprint .blurT).reads ++ (inWin.footprint .blurT).writes, inWin.plat.inWindow a = true)
    ∧ (expectedError .blurT inDev.ops inDev.win inDev.plat = none
      ∧ (¬∃ a ∈ (inDev.footprint .blurT).reads ++ (inDev.footprint .blurT).writes, inDev.plat.inWindow a = true)
      ∧ ∃ a ∈ (inDev.footprint .blurT).reads ++ (inDev.footprint .blurT).writes, inDev.plat.inDevice a = true)
    ∧ (plat.inWindow 0xF004FFFF = true ∧ plat.inWindow 0xF0050000 = false)
    ∧ (¬∃ a ∈ (impulse.footprint .blurT).reads ++ (impulse.footprint .blurT).writes,
        impulse.plat.inWindow a = true ∨ impulse.plat.inDevice a = true)
    ∧ busyBlur.busy = true := by decide +kernel

/-- A step that answers no next state: the CMD write of BLUR.T with a buffer in the register window. -/
theorem witness_OnlyForbiddenBuffersStopTheMachine_step :
    let s := { impulse with ops := { imageOps 1 1 1 with srcAddr := 0xF0000000 }, inbox := [cmdWrite 4#32] }
    ∀ t, step s ≠ .next t := by
  intro s t h
  have : isNext (step s) = false := by decide +kernel
  rw [h] at this
  simp [isNext, saw] at this

theorem witness_UndisturbedCommandsEnd : impulse.lead = .untilDone ∧ ∃ t, exec .blurT impulse = .next t :=
  ⟨rfl, exists_next (by decide +kernel)⟩

theorem witness_NoCommandWritesOperandRegisters : ∃ t, exec .unsharp (onePixel [255, 0, 0, 9] 0 0 500 0) = .next t :=
  exists_next (by decide +kernel)

theorem witness_OnlyTheWriteFootprintChanges :
    impulse.inflight = none ∧ (∃ t, exec .blurT impulse = .next t) ∧ 0x2009 ∉ (impulse.footprint .blurT).writes
      ∧ 0x2008 ∈ (impulse.footprint .blurT).writes :=
  ⟨rfl, exists_next (by decide +kernel), by decide +kernel⟩

theorem witness_AlphaBytesKeepTheirValues :
    Instr.diffthr ∈ [Instr.grey, .diffthr, .unsharp]
      ∧ (∃ t, exec .diffthr (onePixel [100, 100, 100, 7] 97 100 100 0) = .next t)
      ∧ 0 < (onePixel [100, 100, 100, 7] 97 100 100 0).ops.width.toNat
        * (onePixel [100, 100, 100, 7] 97 100 100 0).ops.height.toNat :=
  ⟨by decide, exists_next (by decide +kernel), by decide⟩

theorem runs_iff (i : Instr) (s : State) :
    Runs i s ↔ (s.inflight = none ∧ s.lead = .untilDone) ∧ expectedError i s.ops s.win s.plat = none
      ∧ ((∀ a ∈ (s.footprint i).reads ++ (s.footprint i).writes, s.plat.inWindow a = false ∧ s.plat.inDevice a = false)
        ∧ (s.plat.coherent = true ∨ ∀ a ∈ s.hostDirty, ∀ b ∈ (s.footprint i).reads, s.plat.cacheLine a ≠ s.plat.cacheLine b))
      ∧ ∀ a ∈ (s.footprint i).reads ++ (s.footprint i).writes, s.plat.memOk a = true := Iff.rfl

theorem windowState_iff (var : Variant) (r : Nat) (p : Int → Nat) (x : Nat) (w : Window) :
    WindowState var r p x w ↔ w.sp.toNat < 2 * r + 1
      ∧ (∀ j < 2 * r + 1,
        (w.wstore.get (((w.sp.toNat : Int) + ((j : Int) - r)) % ((2 * r + 1 : Nat) : Int)).toNat).toNat
          = p ((x : Int) + ((j : Int) - r)))
      ∧ w.outsum.toNat = leftSum r p x ∧ w.insum.toNat = rightSum r p x ∧ w.wsum.toNat = kernelSum var r p x := Iff.rfl

theorem witness_MapgenWritesClampedOffsets : Runs .mapgen ramp := by rw [runs_iff]; decide +kernel
theorem witness_WinitTriangular : Runs .winitT ramp := by rw [runs_iff]; decide +kernel
theorem witness_WinitUniform : Runs .winitU ramp := by rw [runs_iff]; decide +kernel
theorem witness_SlideTriangularIsItsPseudocode : Runs .slideT slideReady := by rw [runs_iff]; decide +kernel
theorem witness_SlideUniformIsItsPseudocode : Runs .slideU slideReadyU := by rw [runs_iff]; decide +kernel

/-- SLIDE.T from the window of `ramp`, with separate buffers. -/
theorem witness_LineTheoremTriangular :
    Runs .slideT slideReady ∧ WindowState .T 2 (lineSample slideReady.mem 0x1000 1 4) 0 slideReady.win
      ∧ (∀ j < 4, (slideReady.win.map.get j).toNat = min (j + 2 + 1) (4 - 1) * 1)
      ∧ ∀ j < 4, ∀ k < 4, 0x2000 + j * 1 ≠ 0x1000 + k * 1 := by
  rw [runs_iff, windowState_iff]; decide +kernel

/-- The same in place. -/
theorem witness_LineTheoremTriangular_inPlace :
    Runs .slideT { slideReady with ops := { lineOps 4 1 2 with dstAddr := 0x1000 } } := by
  rw [runs_iff]; decide +kernel

theorem witness_LineTheoremUniform :
    Runs .slideU slideReadyU ∧ WindowState .U 2 (lineSample slideReadyU.mem 0x1000 1 4) 0 slideReadyU.win
      ∧ ∀ j < 4, ∀ k < 4, 0x2000 + j * 1 ≠ 0x1000 + k * 1 := by
  rw [runs_iff, windowState_iff]; decide +kernel

theorem witness_BlurTriangularResult : Runs .blurT impulse ∧ 1 ≤ impulse.ops.radius.toNat := by
  rw [runs_iff]; decide +kernel
theorem witness_BlurUniformResult : Runs .blurU impulse ∧ 1 ≤ impulse.ops.radius.toNat := by
  rw [runs_iff]; decide +kernel

theorem witness_DegenerateBlurIsACopy :
    (Runs .blurT { impulse with ops := { imageOps 3 3 9 with radius := 0 } })
      ∧ Runs .blurU { impulse with ops := { imageOps 3 3 9 with steps := 0 } } := by
  rw [runs_iff, runs_iff]; decide +kernel

theorem witness_BlurKeepsSourceAndFlatFields :
    let s := machine (imageOps 2 1 2) (bytesFrom 0x1000 [77, 77])
    Runs .blurU s ∧ ∀ q < 2, s.mem.read (0x1000 + q) = 77#8 := by
  simp only [runs_iff]; decide +kernel

theorem witness_GreyWritesLuma : Runs .grey (machine (imageOps 2 2 16) pixels) := by rw [runs_iff]; decide +kernel

/-- A pixel that is corrected, and a pixel that is not, whose colour bytes do not answer. -/
theorem witness_DiffthrCorrectsColourLanes :
    let s := onePixel [100, 100, 100, 7] 97 100 100 0
    let u := holed [⟨0x1000, 3⟩] (onePixel [100, 100, 100, 7] 120 100 250 20)
    Runs .diffthr s
      ∧ (expectedError .diffthr u.ops u.win u.plat = none ∧ (∀ a ∈ span 0x2000 2, u.plat.memOk a = true)
        ∧ u.plat.memOk 0x1000 = false ∧ ¬(20 < (((u.mem.read 0x2000).toNat : Int) - (u.mem.read 0x2001).toNat).natAbs)) := by
  simp only [runs_iff]; decide +kernel

theorem witness_UnsharpResult : Runs .unsharp (machine (imageOps 2 2 16) pixels) := by rw [runs_iff]; decide +kernel

theorem witness_UnsharpIgnoresRadiusAndSteps :
    let s := onePixel [255, 0, 0, 9] 0 0 500 0
    s.inflight = none ∧ s.lead = .untilDone ∧ ∃ t, exec .unsharp s = .next t :=
  ⟨rfl, rfl, exists_next (by decide +kernel)⟩

theorem witness_UnsharpLeavesFlatImages :
    let s := machine (imageOps 2 1 8) (bytesFrom 0x1000 [9, 8, 7, 1, 9, 8, 7, 2])
    Runs .unsharp s ∧ ∀ q < 2, ∀ c < 3, s.mem.read (0x1000 + 4 * q + c) = s.mem.read (0x1000 + c) := by
  simp only [runs_iff]; decide +kernel

theorem witness_ImageCommandsLeaveTheWindowUnspecified :
    (impulse.inflight = none ∧ impulse.lead = .untilDone) ∧ (∃ t, exec .blurT impulse = .next t)
      ∧ expectedError .blurT impulse.ops impulse.win impulse.plat = none
      ∧ (∃ t, exec .grey impulse = .next t) ∧ expectedError .grey impulse.ops impulse.win impulse.plat ≠ none :=
  ⟨⟨rfl, rfl⟩, exists_next (by decide +kernel), by decide +kernel, exists_next (by decide +kernel), by decide +kernel⟩

/-- The hole is at the second sample: the read of `k = 1`, number j = 3. -/
theorem witness_WinitBusError :
    let s := holed [⟨0x1001, 1⟩] ramp
    (s.inflight = none ∧ s.lead = .untilDone) ∧ expectedError .winitT s.ops s.win s.plat = none
      ∧ (∀ a ∈ (s.footprint .winitT).reads ++ (s.footprint .winitT).writes,
          s.plat.inWindow a = false ∧ s.plat.inDevice a = false)
      ∧ s.plat.coherent = true
      ∧ (∀ j : Nat, j < 3 → s.plat.memOk (0x1000 + edge 4 ((j : Int) - 2) * 1) = true)
      ∧ s.plat.memOk (0x1000 + edge 4 ((3 : Int) - 2) * 1) = false := by decide +kernel

/-- A write that does not answer at step 1, and a read that does not answer at step 0. -/
theorem witness_SlideBusError :
    let s := holed [⟨0x2001, 1⟩] slideReady
    let u := holed [⟨0x1003, 1⟩] slideReady
    ((s.inflight = none ∧ s.lead = .untilDone) ∧ expectedError .slideT s.ops s.win s.plat = none
      ∧ (∀ a ∈ (s.footprint .slideT).reads ++ (s.footprint .slideT).writes,
          s.plat.inWindow a = false ∧ s.plat.inDevice a = false)
      ∧ s.plat.coherent = true
      ∧ (s.plat.memOk 0x2000 = true ∧ s.plat.memOk (0x1000 + (s.win.map.get 0).toNat) = true)
      ∧ s.plat.memOk 0x2001 = false)
    ∧ (u.plat.memOk 0x2000 = true ∧ u.plat.memOk (0x1000 + (u.win.map.get 0).toNat) = false) := by decide +kernel

theorem witness_ImageBusError :
    let s := holed [⟨0x1004, 1⟩] impulse
    (s.inflight = none ∧ s.lead = .untilDone) ∧ expectedError .blurT s.ops s.win s.plat = none
      ∧ (∀ a ∈ (s.footprint .blurT).reads ++ (s.footprint .blurT).writes,
          s.plat.inWindow a = false ∧ s.plat.inDevice a = false)
      ∧ s.plat.coherent = true
      ∧ 0x1004 ∈ (s.footprint .blurT).reads ++ (s.footprint .blurT).writes ∧ s.plat.memOk 0x1004 = false := by
  decide +kernel

/-- For DIFFTHR, a byte of WORK that does not answer, and a colour byte of a pixel that is corrected. -/
theorem witness_ImageBusError_diffthr :
    let s := holed [⟨0x2001, 1⟩] (onePixel [100, 100, 100, 7] 97 100 100 0)
    let u := holed [⟨0x1002, 1⟩] (onePixel [100, 100, 100, 7] 97 100 100 0)
    (expectedError .diffthr s.ops s.win s.plat = none ∧ s.plat.memOk 0x2001 = false ∧ 0x2001 ∈ span 0x2000 (2 * (1 * 1)))
      ∧ expectedError .diffthr u.ops u.win u.plat = none
      ∧ 0x1002 ∈ (u.footprint .diffthr).reads ++ (u.footprint .diffthr).writes ∧ u.plat.memOk 0x1002 = false
      ∧ ∃ q < 1, ∃ c < 3, 0x1002 = 0x1000 + 4 * q + c ∧ u.ops.threshold.toNat
          < (((u.mem.read (0x2000 + q)).toNat : Int) - (u.mem.read (0x2000 + 1 + q)).toNat).natAbs := by
  decide +kernel

theorem witness_OrderOfLinesDoesNotShow : Runs .blurT impulse ∧ Runs .unsharp (machine (imageOps 2 2 16) pixels) := by
  rw [runs_iff, runs_iff]; decide +kernel

theorem witness_HostPausesDoNotChangeACommand :
    impulse.inflight = none ∧ (∃ t, exec .blurT { impulse with lead := .steps 5 } = .next t)
      ∧ ∃ u, exec .blurT { impulse with lead := .untilDone } = .next u :=
  ⟨rfl, exists_next (by decide +kernel), exists_next (by decide +kernel)⟩

theorem witness_OperandWritesDoNotTouchTheCommandInFlight :
    let s := { impulse with lead := .steps 0 }
    Instr.blurT ≠ .nop ∧ s.inflight = none ∧ s.lead = .steps 0 ∧ expectedError .blurT s.ops s.win s.plat = none
      ∧ (∀ a ∈ (s.footprint .blurT).reads ++ (s.footprint .blurT).writes, s.plat.inWindow a = false ∧ s.plat.inDevice a = false)
      ∧ RegName.radius ∈ [RegName.srcAddr, .dstAddr, .workAddr, .len, .width, .height, .radius, .steps, .amount,
        .threshold, .lineLen, .lineStride] := by
  decide +kernel

/-- An owned byte of the blur in flight; after the host's write to it the command still ends. -/
theorem witness_HostAccessToOwnedBytes :
    (∃ f, busyBlur.inflight = some f ∧ 0x2000 ∈ f.foot.reads ++ f.foot.writes)
      ∧ busyBlur.plat.memOk 0x2000 = true ∧ busyBlur.plat.inWindow 0x2000 = false
      ∧ busyBlur.plat.inDevice 0x2000 = false
      ∧ (engineRun busyBlur.remaining (hostStore 0x2000 1 busyBlur)).busy = false := by
  refine ⟨?_, by decide +kernel, by decide +kernel, by decide +kernel, by decide +kernel⟩
  have h : (busyBlur.inflight.map (fun f => (f.foot.reads ++ f.foot.writes).contains 0x2000)) = some true := by
    decide +kernel
  obtain ⟨f, hf, hc⟩ := Option.map_eq_some_iff.mp h
  exact ⟨f, hf, by simpa using hc⟩

theorem witness_HostLoadsWhatItStored :
    let s := { uncoherent [] impulse with hostStale := [0x80] }
    s.inflight = none ∧ s.plat.memOk 0xFFFFFFFF = true ∧ s.plat.inWindow 0xFFFFFFFF = false
      ∧ s.plat.inDevice 0xFFFFFFFF = false ∧ ∀ n ∈ s.hostStale, n ≠ s.plat.cacheLine 0xFFFFFFFF := by decide +kernel

/-- A host line beside the source, in one 64-byte line with it, that was not written back; its write-back, on an idle engine; a
completed command with a clean source and a byte beside its destination; and a GREY whose destination was dirty before it. -/
theorem witness_MissingCacheMaintenance :
    let s := uncoherent [0x1020] impulse
    let u := uncoherent [0x5000] impulse
    let v := uncoherent [0x2003] (machine (imageOps 2 2 16) pixels)
    (s.inflight = none ∧ s.plat.coherent = false ∧ 0x1004 ∈ (s.footprint .blurT).reads
      ∧ 0x1020 ∈ s.hostDirty ∧ s.plat.cacheLine 0x1020 = s.plat.cacheLine 0x1004
      ∧ (after (exec .blurT { s with lead := .steps 0 })).inflight.isSome = true
      ∧ ∀ b ∈ s.hostOver, s.plat.cacheLine b ≠ s.plat.cacheLine 0x1004)
      ∧ (Runs .blurT u ∧ 0x2008 ∈ (u.footprint .blurT).writes ∧ 0x2008 ∉ u.hostDirty
        ∧ u.plat.cacheLine 0x203F = u.plat.cacheLine 0x2008 ∧ u.plat.memOk 0x203F = true ∧ u.plat.inWindow 0x203F = false)
      ∧ (Runs .grey v ∧ 0x2003 ∈ (v.footprint .grey).writes ∧ 0x2003 ∈ v.hostDirty) := by
  simp only [runs_iff]; decide +kernel

theorem inv_of_idle {s : State} (h : s.inflight = none) (hp : s.plat.wellFormed = true) (hm : s.mem.wf = true)
    (hw : s.win.wstore.wf 512 = true) (hM : s.win.map.wf s.plat.maxLine = true)
    (hc : s.flags.err = true ↔ s.flags.code ≠ .none) (he : ¬(s.flags.done = true ∧ s.flags.err = true))
    (ha : s.flags.code ≠ .busErr → s.errAddr = 0) (hd : s.hostDirty = [] ∧ s.hostOver = [] ∧ s.hostStale = []) : s.Inv :=
  ⟨hp, hm, hw, hM, hc, he, ha, by simp [hd], by simp [hd], fun _ => hd, by simp [h]⟩

theorem impulse_inv : impulse.Inv :=
  inv_of_idle rfl (by decide) (by decide) (by decide) (by decide) (by decide) (by decide) (by decide) (by decide)

/-- A step from a state that meets the invariant: the CMD write of BLUR.T. -/
theorem witness_EveryStepKeepsTheInvariant :
    impulse.Inv ∧ { impulse with inbox := [cmdWrite 4#32] }.Inv
      ∧ ∃ t, step { impulse with inbox := [cmdWrite 4#32] } = .next t :=
  ⟨impulse_inv, inv_of_idle rfl (by decide) (by decide) (by decide) (by decide) (by decide) (by decide) (by decide) (by decide),
    exists_next (by decide +kernel)⟩

theorem witness_ACommandEndsInDoneOrErr :
    impulse.Inv ∧ (impulse.inflight = none ∧ impulse.lead = .untilDone) ∧ ∃ t, exec .blurT impulse = .next t :=
  ⟨impulse_inv, ⟨rfl, rfl⟩, exists_next (by decide +kernel)⟩

end Sys2Proof.Machine.Tests
end

