-- ==== Sys2Proof/Proofs/EveryStep.lean ====
section
/-! PROOF. Every step keeps the invariant of the machine: one lemma per kind of host step, over the laws of Laws/Invariant.lean
for the operations each one calls. -/

namespace Sys2Proof.Machine

/-- The host's own fields are no part of the invariant. -/
theorem State.Inv.withHost {s : State} (h : s.Inv) (inbox : List HostEvent) (lead : Lead) (reply : Reply) :
    ({ s with inbox := inbox, lead := lead, reply := reply } : State).Inv :=
  h.same rfl rfl rfl rfl rfl rfl rfl rfl rfl

/-- The CMD write of a word that is no command (R203, R403). -/
theorem issueIllegal_inv {s : State} (w : Word) (h : s.Inv) : (issueIllegal w s).Inv := by
  unfold issueIllegal
  split
  · exact advance_inv (lostIssue_inv h)
  · exact raiseError_accept_inv w .illegal (by decide) (by decide) h

/-- The CMD write of any word (R400, R403). -/
theorem issueWord_inv {s t : State} {w : Word} (h : s.Inv) (ht : issueWord w s = .next t) : t.Inv := by
  unfold issueWord at ht
  cases hd : decode w with
  | some i => rw [hd] at ht; exact exec_inv h ht
  | none => rw [hd] at ht; cases ht; exact issueIllegal_inv w h

/-- A register write transaction (R205, R406, R407). -/
theorem busWrite_inv {s t : State} {off : Nat} {w : AccessWidth} {v : Word} (h : s.Inv)
    (ht : busWrite off w v s = .next t) : t.Inv := by
  have hack : ({ s with reply := .ack } : State).Inv := h.withHost _ _ _
  unfold busWrite at ht
  split at ht
  · split at ht
    · cases ht; exact advance_inv hack
    · exact issueWord_inv hack ht
    · next r _ hr =>
      cases ht
      obtain ⟨hstore, hmap⟩ := regAt_bounds hr
      exact advance_inv (writeReg_inv v hack hstore hmap)
  · cases ht; exact advance_inv (rejectAccess_inv off h)

/-- A register read transaction (R205, R405, R407). -/
theorem busRead_inv {s : State} (off : Nat) (w : AccessWidth) (h : s.Inv) : (busRead off w s).Inv := by
  unfold busRead
  split
  · split
    · exact h.withHost _ _ _
    · exact readReg_inv _ h
  · exact rejectAccess_inv off h

/-- One pass of the polling loop (R207). -/
theorem hostWait_inv {s : State} (e : HostEvent) (h : s.Inv) : (hostWait e s).Inv := by
  have hread := readReg_inv .status h
  unfold hostWait
  dsimp only
  split
  · exact hread.withHost _ _ _
  · exact hread

/-- Every host step keeps the invariant. -/
theorem hostStep_inv {s t : State} {e : HostEvent} (h : s.Inv) (ht : hostStep e s = .next t) : t.Inv := by
  have hlead : ({ s with lead := e.lead } : State).Inv := h.withHost _ _ _
  obtain ⟨op, l⟩ := e
  cases op with
  | regWrite off w v => exact busWrite_inv hlead ht
  | regRead off w => cases ht; exact advance_inv (busRead_inv off w hlead)
  | memWrite a v => cases ht; exact advance_inv (hostStore_inv a v hlead)
  | memRead a => cases ht; exact advance_inv (hostLoad_inv a hlead)
  | clean a => cases ht; exact advance_inv (hostClean_inv a hlead)
  | invalidate a => cases ht; exact advance_inv (hostInvalidate_inv a hlead)
  | resetPin => cases ht; exact advance_inv (resetEngine_inv (hlead.withHost _ _ _))
  | wait => cases ht; exact advance_inv (hostWait_inv _ hlead)
  | pause => cases ht; exact advance_inv hlead

/-- Settles O57: a step is one engine step, or one host step, of which a faulted host's is a pause or the reset input. -/
theorem everyStepKeepsTheInvariant : Obligations.EveryStepKeepsTheInvariant := by
  intro s t h ht
  cases hbox : s.inbox with
  | nil =>
    simp only [step, nextStep, hbox] at ht
    cases ht
    exact engineStep_inv h
  | cons e rest =>
    simp only [step, nextStep, hbox] at ht
    exact hostStep_inv (h.withHost rest _ _) ht

end Sys2Proof.Machine
end

