-- ==== Sys2Proof/Proofs/RegisterPort.lean ====
section
/-! SUPPORT. One register transaction with no engine step after it: what `step` answers to a write, to a read, and at an offset
where no register stands (R50, R205, R405, R406). -/

namespace Sys2Proof.Machine

/-- No register write moves the engine's lead over the host. -/
@[simp] theorem writeReg_lead (r : RegName) (v : Word) (s : State) : (writeReg r v s).lead = s.lead := by
  cases r with
  | ctrl =>
    simp only [writeReg, writeCtrl]
    split
    · rw [resetEngine_frame]
    · rfl
  | status =>
    simp only [writeReg, writeStatus]
    split <;> rfl
  | wsum | insum | outsum | sp | wstore k | map k =>
    simp only [writeReg, writeWindow]
    split <;> rfl
  | _ => rfl

/-- No register read moves it either. -/
@[simp] theorem readReg_lead (r : RegName) (s : State) : (readReg r s).lead = s.lead := by
  unfold readReg
  split <;> rfl

section Transactions

variable {s : State} {rest : List HostEvent} {off : Nat}

/-- The write of a register other than CMD, with no engine step after it (R406). -/
theorem step_write {v : Word} {r : RegName} (hf : s.hostFault = false)
    (hi : s.inbox = ⟨.regWrite off .word v, .steps 0⟩ :: rest) (ho : AccessWidth.word.wellFormed off = true)
    (hr : regAt s.plat.maxLine off = some r) (hc : r ≠ .cmd) :
    step s = .next (writeReg r v { s with inbox := rest, lead := .steps 0, reply := .ack }) := by
  rw [step_host hf hi, hostStep_write (s := { s with inbox := rest }) ho hr hc, advance_zero (writeReg_lead _ _ _)]

/-- The read of a register, with no engine step after it (R405). -/
theorem step_read {r : RegName} (hf : s.hostFault = false) (hi : s.inbox = ⟨.regRead off .word, .steps 0⟩ :: rest)
    (ho : AccessWidth.word.wellFormed off = true) (hr : regAt s.plat.maxLine off = some r) :
    step s = .next (readReg r { s with inbox := rest, lead := .steps 0 }) := by
  rw [step_host hf hi, hostStep_read (s := { s with inbox := rest }) ho hr, advance_zero (readReg_lead _ _)]

/-- The read of a register that has a value now. -/
theorem step_read_value {r : RegName} (hf : s.hostFault = false) (hi : s.inbox = ⟨.regRead off .word, .steps 0⟩ :: rest)
    (ho : AccessWidth.word.wellFormed off = true) (hr : regAt s.plat.maxLine off = some r)
    (hu : unspecifiedNow { s with inbox := rest, lead := .steps 0 } r = false) :
    step s = .next { s with inbox := rest, lead := .steps 0, reply := .data (regValue s r) } := by
  rw [step_read hf hi ho hr, readReg_value hu]
  cases r <;> rfl

/-- A write at a reserved offset is ignored (R50). -/
theorem step_write_reserved {v : Word} (hf : s.hostFault = false)
    (hi : s.inbox = ⟨.regWrite off .word v, .steps 0⟩ :: rest)
    (ho : AccessWidth.word.wellFormed off = true) (hr : regAt s.plat.maxLine off = none) :
    step s = .next { s with inbox := rest, lead := .steps 0, reply := .ack } := by
  rw [step_host hf hi]
  simp only [hostStep, busWrite, ho, if_true, hr]
  rw [advance_zero rfl]

/-- A read at a reserved offset answers 0 (R50). -/
theorem step_read_reserved (hf : s.hostFault = false) (hi : s.inbox = ⟨.regRead off .word, .steps 0⟩ :: rest)
    (ho : AccessWidth.word.wellFormed off = true) (hr : regAt s.plat.maxLine off = none) :
    step s = .next { s with inbox := rest, lead := .steps 0, reply := .data 0 } := by
  rw [step_host hf hi]
  simp only [hostStep, busRead, ho, if_true, hr]
  rw [advance_zero rfl]

end Transactions

/-- No register stands between SP and WSTORE, between WSTORE and MAP, or at MAP entries from `maxLine` on (R50). -/
theorem regAt_reserved {maxLine off : Nat}
    (h : 0x60 ≤ off ∧ off < 0x800 ∨ 0x1000 ≤ off ∧ off < 0x10000 ∨ 0x10000 + 4 * maxLine ≤ off) :
    regAt maxLine off = none := by
  unfold regAt
  by_cases h4 : off % 4 ≠ 0
  · exact if_pos h4
  rw [if_neg h4]
  by_cases hlow : off < wstoreBase
  · rw [if_pos hlow, Option.eq_none_iff_forall_ne_some]
    intro r hr
    have hlast : ∀ p ∈ namedRegs, p.1 < 0x60 := by decide
    have := hlast _ (get?_mem hr)
    unfold wstoreBase at hlow
    omega
  · have hws : ¬off < wstoreBase + 4 * 512 := by unfold wstoreBase at *; omega
    have hmap : ¬(mapBase ≤ off ∧ (off - mapBase) / 4 < maxLine) := by unfold mapBase wstoreBase at *; omega
    rw [if_neg hlow, if_neg hws, if_neg hmap]

end Sys2Proof.Machine
end

