-- ==== Sys2Proof/Proofs/Registers.lean ====
section
/-! PROOF. The statements about identification registers, reserved offsets and operand registers. -/

namespace Sys2Proof.Machine

/-- `MAX_LINE` of a legal platform (R8). -/
theorem maxLine_le {p : Platform} (h : p.wellFormed = true) : p.maxLine ≤ 65535 := by
  simp only [Platform.wellFormed, Platform.lineOk, Bool.and_eq_true, decide_eq_true_eq] at h
  obtain ⟨⟨-, -, hle⟩, -⟩ := h
  exact hle

/-- CAPS of a legal platform (R8, R52). -/
theorem capsWord_eq {p : Platform} (h : p.wellFormed = true) :
    capsWord p = 0x00FF0000#32 + BitVec.ofNat 32 p.maxLine := by
  have hline := maxLine_le h
  apply BitVec.eq_of_toNat_eq
  simp only [capsWord, BitVec.toNat_add, BitVec.toNat_ofNat]
  omega

/-- Settles O8: none of the five registers takes a write, and ID, VERSION and CAPS have their constant values. -/
theorem identificationRegisters : Obligations.IdentificationRegisters := by
  intro s rest v hf
  refine ⟨fun hi => ?id, fun hi => ?version, fun hp hi => ?caps, fun off hoff hi => ?ignored⟩
  case id => exact step_read_value (r := .id) hf hi (by decide) rfl rfl
  case version => exact step_read_value (r := .version) hf hi (by decide) rfl rfl
  case caps =>
    rw [← capsWord_eq hp]
    exact step_read_value (r := .caps) hf hi (by decide) rfl rfl
  case ignored =>
    simp only [List.mem_cons, List.not_mem_nil, or_false] at hoff
    rcases hoff with rfl | rfl | rfl | rfl | rfl
    · exact step_write (r := .id) hf hi (by decide) rfl (by decide)
    · exact step_write (r := .version) hf hi (by decide) rfl (by decide)
    · exact step_write (r := .caps) hf hi (by decide) rfl (by decide)
    · exact step_write (r := .errAddr) hf hi (by decide) rfl (by decide)
    · exact step_write (r := .pos) hf hi (by decide) rfl (by decide)

/-- Settles O11: no register stands at an offset R50 does not list. -/
theorem reservedOffsetsReadZeroAndIgnoreWrites : Obligations.ReservedOffsetsReadZeroAndIgnoreWrites := by
  intro s rest off v hf h4 hlt hres
  have ho : AccessWidth.word.wellFormed off = true := (wellFormed_iff _ _).2 ⟨rfl, h4, hlt⟩
  have hr := regAt_reserved hres
  exact ⟨fun hi => step_read_reserved hf hi ho hr, fun hi => step_write_reserved hf hi ho hr⟩

/-- Settles O12: each operand register stands at its offset, and `writeReg` keeps the low bits of its width. -/
theorem operandWritesStoreTheirWidth : Obligations.OperandWritesStoreTheirWidth := by
  intro s rest off v hf hi
  simp only [BitVec.ofNat_toNat]
  have write : ∀ r, AccessWidth.word.wellFormed off = true → regAt s.plat.maxLine off = some r → r ≠ .cmd →
      step s = .next (writeReg r v { s with inbox := rest, lead := .steps 0, reply := .ack }) :=
    fun _ ho hr hc => step_write hf hi ho hr hc
  refine ⟨?_, ?_, ?_, ?_, ?_, ?_, ?_, ?_, ?_, ?_, ?_, ?_⟩ <;> rintro rfl
  · exact write .srcAddr (by decide) rfl (by decide)
  · exact write .dstAddr (by decide) rfl (by decide)
  · exact write .workAddr (by decide) rfl (by decide)
  · exact write .len (by decide) rfl (by decide)
  · exact write .width (by decide) rfl (by decide)
  · exact write .height (by decide) rfl (by decide)
  · exact write .radius (by decide) rfl (by decide)
  · exact write .steps (by decide) rfl (by decide)
  · exact write .amount (by decide) rfl (by decide)
  · exact write .threshold (by decide) rfl (by decide)
  · exact write .lineLen (by decide) rfl (by decide)
  · exact write .lineStride (by decide) rfl (by decide)

end Sys2Proof.Machine
end

