-- ==== Sys2Proof/Proofs/Flags.lean ====
section
/-! PROOF. CTRL and STATUS: the bits each reads in, and what a write of each does (R53, R54, R435). -/

namespace Sys2Proof.Machine

/-! ## The words they read in -/

/-- A bit of a word, from the digit of its number. -/
theorem getLsbD_of_digit {w : Word} {n : Nat} {b : Bool} (h : w.toNat / 2 ^ n % 2 = b.toNat) : w.getLsbD n = b := by
  rw [BitVec.getLsbD, Nat.testBit_eq_decide_div_mod_eq, h]
  cases b <;> rfl

theorem ErrCode.toNat_le (c : ErrCode) : c.toNat ≤ 6 := by cases c <;> decide

/-- The number CTRL reads as (R53). -/
theorem ctrlWord_toNat (s : State) :
    s.ctrlWord.toNat = s.ctrl.doneIE.toNat + 2 * s.ctrl.errIE.toNat + 4 * s.ctrl.lostIE.toNat := by
  have h0 := s.ctrl.doneIE.toNat_le
  have h1 := s.ctrl.errIE.toNat_le
  have h2 := s.ctrl.lostIE.toNat_le
  rw [State.ctrlWord, BitVec.toNat_ofNat]
  omega

/-- The bits CTRL reads in: the enables, and 0 above them (R53). -/
theorem ctrlWord_bits (s : State) :
    s.ctrlWord.getLsbD 0 = s.ctrl.doneIE ∧ s.ctrlWord.getLsbD 1 = s.ctrl.errIE ∧ s.ctrlWord.getLsbD 2 = s.ctrl.lostIE
      ∧ ∀ n, 3 ≤ n → s.ctrlWord.getLsbD n = false := by
  have h := ctrlWord_toNat s
  have h0 := s.ctrl.doneIE.toNat_le
  have h1 := s.ctrl.errIE.toNat_le
  have h2 := s.ctrl.lostIE.toNat_le
  refine ⟨getLsbD_of_digit (by omega), getLsbD_of_digit (by omega), getLsbD_of_digit (by omega), fun n hn => ?_⟩
  have hlt : s.ctrlWord.toNat < 2 ^ 3 := by omega
  exact Nat.testBit_lt_two_pow (hlt.trans_le (Nat.pow_le_pow_right (by decide) hn))

/-- The number STATUS reads as (R54). -/
theorem statusWord_toNat (s : State) :
    s.statusWord.toNat = s.busy.toNat + 2 * s.flags.done.toNat + 4 * s.flags.err.toNat + 8 * s.flags.lost.toNat
      + 256 * s.flags.code.toNat := by
  have h0 := s.busy.toNat_le
  have h1 := s.flags.done.toNat_le
  have h2 := s.flags.err.toNat_le
  have h3 := s.flags.lost.toNat_le
  have hc := s.flags.code.toNat_le
  rw [State.statusWord, BitVec.toNat_ofNat]
  omega

/-- The fields STATUS reads in: BUSY, DONE, ERR and LOST, then ERRCODE from bit 8 on (R54). -/
theorem statusWord_fields (s : State) :
    s.statusWord.getLsbD 0 = s.busy ∧ s.statusWord.getLsbD 1 = s.flags.done ∧ s.statusWord.getLsbD 2 = s.flags.err
      ∧ s.statusWord.getLsbD 3 = s.flags.lost ∧ s.statusWord.toNat / 16 % 16 = 0
      ∧ s.statusWord.toNat / 256 = s.flags.code.toNat := by
  have h := statusWord_toNat s
  have h0 := s.busy.toNat_le
  have h1 := s.flags.done.toNat_le
  have h2 := s.flags.err.toNat_le
  have h3 := s.flags.lost.toNat_le
  exact ⟨getLsbD_of_digit (by omega), getLsbD_of_digit (by omega), getLsbD_of_digit (by omega),
    getLsbD_of_digit (by omega), by omega, by omega⟩

/-! ## Their writes -/

/-- Settles O14: bit 31 selects between the enables and the soft reset, and CTRL reads in the enables' three bits. -/
theorem ctrlWriteAndRead : Obligations.CtrlWriteAndRead := by
  intro s rest v hf
  constructor
  · intro hi
    have hstep := step_write (r := .ctrl) hf hi (by decide) rfl (by decide)
    rw [writeReg, writeCtrl] at hstep
    exact ⟨fun h31 => by rw [hstep, h31]; rfl, fun h31 => ⟨by rw [hstep, if_pos h31], rfl⟩⟩
  · exact fun hi => ⟨s.ctrlWord, step_read_value (r := .ctrl) hf hi (by decide) rfl rfl, ctrlWord_bits s⟩

/-- A STATUS write where ERRCODE is clear with ERR (R54, R435). -/
theorem writeStatus_eq {s : State} (v : Word) (hcode : s.flags.err = false → s.flags.code = .none) :
    writeStatus v s = { s with
      flags := { done := s.flags.done && !v.getLsbD 1, err := s.flags.err && !v.getLsbD 2
                 lost := s.flags.lost && !v.getLsbD 3, code := if v.getLsbD 2 then .none else s.flags.code }
      errAddr := if v.getLsbD 2 && s.flags.err then 0 else s.errAddr } := by
  unfold writeStatus
  cases h2 : v.getLsbD 2 with
  | false => simp [Flags.clear]
  | true =>
    cases he : s.flags.err with
    | false => simp [Flags.clear, he, hcode he]
    | true => simp [Flags.clear, clearError]

/-- Settles O15: the fields of `statusWord`, and `writeStatus` field by field. -/
theorem statusLayoutAndWriteOneToClear : Obligations.StatusLayoutAndWriteOneToClear := by
  intro s rest v hf hcode
  constructor
  · intro hi
    obtain ⟨hbusy, hdone, herr, hlost, hzero, hec⟩ := statusWord_fields s
    refine ⟨s.statusWord, step_read_value (r := .status) hf hi (by decide) rfl rfl, hbusy, hdone, herr, hlost, hzero, hec,
      fun he => ?_⟩
    rw [hec, hcode he]
    rfl
  · intro hi
    rw [step_write (r := .status) hf hi (by decide) rfl (by decide)]
    exact congrArg _ (writeStatus_eq v hcode)

end Sys2Proof.Machine
end

