-- ==== Sys2Proof/Proofs/WindowPort.lean ====
section
/-! PROOF. The window registers and RAM entries are the host's only while BUSY = 0 (R74, R406). -/

namespace Sys2Proof.Machine

/-- Whether a register is window state that the host may write while idle (R74). -/
def isWindowReg : RegName → Bool
  | .wsum | .insum | .outsum | .sp | .wstore _ | .map _ => true
  | .id | .version | .caps | .ctrl | .status | .cmd | .errAddr | .pos | .srcAddr | .dstAddr | .workAddr | .len | .width
  | .height | .radius | .steps | .amount | .threshold | .lineLen | .lineStride => false

/-- The window with the low bits of `v` in one of those registers. -/
def Window.put (r : RegName) (v : Word) (w : Window) : Window :=
  match r with
  | .wsum => { w with wsum := v }
  | .insum => { w with insum := v }
  | .outsum => { w with outsum := v }
  | .sp => { w with sp := v.setWidth 9 }
  | .wstore k => { w with wstore := w.wstore.set k (v.setWidth 8) }
  | .map k => { w with map := w.map.set k v }
  | .id | .version | .caps | .ctrl | .status | .cmd | .errAddr | .pos | .srcAddr | .dstAddr | .workAddr | .len | .width
  | .height | .radius | .steps | .amount | .threshold | .lineLen | .lineStride => w

theorem writeWindow_idle {s : State} (hb : s.busy = false) (w : Window) : writeWindow s w = { s with win := w } := by
  simp [writeWindow, hb]

theorem writeWindow_busy {s : State} (hb : s.busy = true) (w : Window) : writeWindow s w = s := if_pos hb

section WindowReg

variable {r : RegName} (hw : isWindowReg r = true)
include hw

theorem ne_cmd_of_isWindowReg : r ≠ .cmd := by
  rintro rfl
  cases hw

/-- A read of window state is unspecified exactly while BUSY = 1 (R74, R405). -/
theorem unspecifiedNow_window (s : State) : unspecifiedNow s r = s.busy := by
  cases r with
  | wsum | insum | outsum | sp | wstore k | map k => rfl
  | _ => cases hw

/-- A write of window state is `Window.put` while idle, and nothing while BUSY = 1 (R406). -/
theorem writeReg_window (v : Word) (s : State) : writeReg r v s = writeWindow s (s.win.put r v) := by
  cases r with
  | wsum | insum | outsum | sp | wstore k | map k => rfl
  | _ => cases hw

/-- What stands in the register after `Window.put`: the low bits of its width. -/
theorem regValue_put (v : Word) {s : State} {w : Window} (hs : s.win = w.put r v) :
    regValue s r = BitVec.ofNat 32 (v.toNat % 2 ^ regWidth r) := by
  have narrow : ∀ n, (v.setWidth n).setWidth 32 = BitVec.ofNat 32 (v.toNat % 2 ^ n) := fun n => by
    apply BitVec.eq_of_toNat_eq
    simp
  have full : v = BitVec.ofNat 32 (v.toNat % 2 ^ 32) := by
    rw [Nat.mod_eq_of_lt v.isLt, BitVec.ofNat_toNat, BitVec.setWidth_eq]
  cases r with
  | wsum | insum | outsum => rw [regValue, hs]; exact full
  | sp => rw [regValue, hs]; exact narrow 9
  | wstore k => rw [regValue, hs, Window.put, Ram.get_set_self]; exact narrow 8
  | map k => rw [regValue, hs, Window.put, Ram.get_set_self]; exact full
  | _ => cases hw

/-- A read of window state while idle, after a write of it (R74, R405). -/
theorem step_readBack {t : State} {w : Window} {v : Word} {rest : List HostEvent} {off : Nat} (hf : t.hostFault = false)
    (hb : t.busy = false) (hi : t.inbox = ⟨.regRead off .word, .steps 0⟩ :: rest) (ht : t.win = w.put r v)
    (ho : AccessWidth.word.wellFormed off = true) (hr : regAt t.plat.maxLine off = some r) :
    step t = .next { t with
      inbox := rest, lead := .steps 0, reply := .data (BitVec.ofNat 32 (v.toNat % 2 ^ regWidth r)) } := by
  rw [step_read_value hf hi ho hr ((unspecifiedNow_window hw _).trans hb), regValue_put hw v ht]

end WindowReg

/-- Where the window state stands, and how wide each register is (R50, R71, R72). -/
theorem exists_windowReg {p : Platform} {off mask : Nat}
    (h : (off, mask) ∈ [(0x50, 2 ^ 32), (0x54, 2 ^ 32), (0x58, 2 ^ 32), (0x5C, 2 ^ 9)]
      ∨ (∃ k < 512, off = 0x800 + 4 * k ∧ mask = 2 ^ 8)
      ∨ (p.wellFormed = true ∧ ∃ k < p.maxLine, off = 0x10000 + 4 * k ∧ mask = 2 ^ 32)) :
    ∃ r, isWindowReg r = true ∧ mask = 2 ^ regWidth r ∧ AccessWidth.word.wellFormed off = true
      ∧ regAt p.maxLine off = some r := by
  rcases h with h | ⟨k, hk, rfl, rfl⟩ | ⟨hp, k, hk, rfl, rfl⟩
  · simp only [List.mem_cons, List.not_mem_nil, or_false, Prod.mk.injEq] at h
    rcases h with ⟨rfl, rfl⟩ | ⟨rfl, rfl⟩ | ⟨rfl, rfl⟩ | ⟨rfl, rfl⟩
    · exact ⟨.wsum, rfl, rfl, by decide, rfl⟩
    · exact ⟨.insum, rfl, rfl, by decide, rfl⟩
    · exact ⟨.outsum, rfl, rfl, by decide, rfl⟩
    · exact ⟨.sp, rfl, rfl, by decide, rfl⟩
  · exact ⟨.wstore k, rfl, rfl, (wellFormed_iff _ _).2 ⟨rfl, by omega, by omega⟩, regAt_wstore _ hk⟩
  · have := maxLine_le hp
    exact ⟨.map k, rfl, rfl, (wellFormed_iff _ _).2 ⟨rfl, by omega, by omega⟩, regAt_map hk⟩

/-- Settles O13: at each offset stands a window register, whose write is `Window.put` while idle and nothing while BUSY = 1. -/
theorem windowRegistersAreTheHostsOnlyWhileIdle : Obligations.WindowRegistersAreTheHostsOnlyWhileIdle := by
  intro s rest off v mask hf h
  obtain ⟨r, hw, rfl, ho, hr⟩ := exists_windowReg h
  refine ⟨fun hb hi => ⟨s.win.put r v, ?write, ?readBack, ?wsum, ?insum, ?outsum, ?sp, ?wstore, ?map⟩, fun hb hi => ?ignored,
    fun hb hi => ?drawn⟩
  case write =>
    rw [step_write hf hi ho hr (ne_cmd_of_isWindowReg hw), writeReg_window hw, writeWindow_idle]
    exact hb
  case readBack => exact step_readBack hw hf hb rfl rfl ho hr
  case wsum => rintro rfl; cases hr; rfl
  case insum => rintro rfl; cases hr; rfl
  case outsum => rintro rfl; cases hr; rfl
  case sp => rintro rfl; cases hr; rw [BitVec.ofNat_toNat]; rfl
  case wstore =>
    rintro k hk rfl
    obtain rfl : RegName.wstore k = r := Option.some.inj ((regAt_wstore _ hk).symm.trans hr)
    refine ⟨rfl, fun j => ?_⟩
    simp only [Window.put, Ram.get_set, BitVec.ofNat_toNat, eq_comm]
  case map =>
    rintro k rfl
    have hk : k < s.plat.maxLine := by
      by_contra hk
      rw [regAt_reserved (by omega)] at hr
      cases hr
    obtain rfl : RegName.map k = r := Option.some.inj ((regAt_map hk).symm.trans hr)
    refine ⟨rfl, fun j => ?_⟩
    simp only [Window.put, Ram.get_set, eq_comm]
  case ignored =>
    rw [step_write hf hi ho hr (ne_cmd_of_isWindowReg hw), writeReg_window hw, writeWindow_busy]
    exact hb
  case drawn =>
    rw [step_read hf hi ho hr]
    exact congrArg _ (readReg_unspecified ((unspecifiedNow_window hw _).trans hb))

end Sys2Proof.Machine
end

