-- ==== Sys2Proof/Proofs/CommandFrame.lean ====
section
/-! PROOF. No command writes an operand register, CTRL, a platform parameter or a field of the host's (R58, R433): a frame that
acceptance, every engine step and every end of a command keep, from any state. -/

namespace Sys2Proof.Machine

/-- `t` is `s` but for what a command may change. -/
def CommandFrame (s t : State) : Prop :=
  t = { s with
    cmd := t.cmd, flags := t.flags, errAddr := t.errAddr, win := t.win, inflight := t.inflight, mem := t.mem
    hostOver := t.hostOver, hostStale := t.hostStale, order := t.order, draws := t.draws }

theorem CommandFrame.refl (s : State) : CommandFrame s s := rfl

theorem CommandFrame.trans {s t u : State} (h1 : CommandFrame s t) (h2 : CommandFrame t u) : CommandFrame s u := by
  unfold CommandFrame at *
  rw [h1] at h2
  exact h2

theorem EngineFrame.command {s t : State} (h : EngineFrame s t) : CommandFrame s t := by
  unfold CommandFrame
  rw [h]

theorem commandFrame_complete (f : InFlight) (s : State) : CommandFrame s (complete f s) := by
  unfold CommandFrame
  rw [complete_frame]

theorem commandFrame_busError (f : InFlight) (a : Nat) (s : State) : CommandFrame s (busError f a s) := by
  unfold CommandFrame
  rw [busError_frame]

/-- A step of a track whose access answers changes its own fields only. -/
theorem engineFrame_trackStep {f : InFlight} {t : Track} {us : List Track} {ps : List Phase} {s u : State}
    (h : trackStep f t us ps s = .ok u) : EngineFrame s u := by
  rcases trackStep_ok h with ⟨-, rfl⟩ | ⟨a, b, s1, -, hr, rfl⟩ | ⟨a, v, s1, -, hw, rfl⟩
  · exact engineFrame_stepped ..
  · exact (engineRead_frame hr).1.trans (engineFrame_stepped ..)
  · obtain ⟨-, rfl⟩ := engineWrite_ok hw
    rfl

theorem CommandFrame.engineStep {s t : State} (h : CommandFrame s t) : CommandFrame s (engineStep t) := by
  refine h.trans ?_
  rcases engineStep_cases t with ⟨-, he⟩ | ⟨f, -, -, he⟩ | ⟨f, p, ps, k, tr, us, o, -, -, -, -, -, ⟨u, hu, he⟩ | ⟨a, -, he⟩⟩
  · rw [he]; exact .refl t
  · rw [he]; exact commandFrame_complete f t
  · rw [he]; exact (engineFrame_trackStep hu).command
  · rw [he]; exact commandFrame_busError f a { t with order := o }

theorem CommandFrame.engineRun {s t : State} (h : CommandFrame s t) (n : Nat) : CommandFrame s (engineRun n t) :=
  engineRun_induction (P := CommandFrame s) (fun _ => CommandFrame.engineStep) n t h

theorem CommandFrame.advance {s t : State} (h : CommandFrame s t) : CommandFrame s (advance t) := by
  unfold Machine.advance
  split <;> exact h.engineRun _

/-- Every command keeps the frame, from any state and however it ends. -/
theorem commandFrame_exec {i : Instr} {s t : State} (h : exec i s = .next t) : CommandFrame s t := by
  cases hb : s.busy with
  | true =>
    rw [exec_busy i hb] at h
    cases h
    exact CommandFrame.advance (t := lostIssue s) rfl
  | false =>
    by_cases hn : i = .nop
    · subst hn
      simp only [exec, execNop, hb] at h
      cases h
      rfl
    · have hi : s.inflight = none := by simpa [State.busy] using hb
      rcases exec_idle hi hn h with ⟨e, -, rfl⟩ | ⟨-, rfl⟩
      · rfl
      · exact CommandFrame.advance (t := start i _ (accept (encode i) s)) rfl

/-- Settles O27: the eight fields are outside what `CommandFrame` lets a command change. -/
theorem noCommandWritesOperandRegisters : Obligations.NoCommandWritesOperandRegisters := by
  intro i s t h
  rw [commandFrame_exec h]
  exact ⟨rfl, rfl, rfl, rfl, rfl, rfl, rfl, rfl⟩

end Sys2Proof.Machine
end

