-- ==== Sys2Proof/Proofs/ImageWindow.lean ====
section
/-! PROOF. The window after a whole-image command is drawn, whichever way the command ends; an acceptance error leaves it
(R75, R434). -/

namespace Sys2Proof.Machine

/-- What holds on the way of a whole-image command that started in `s`: it is the command in flight, or it has ended and left
the window drawn since then. -/
def ImageRun (s u : State) : Prop :=
  s.draws ≤ u.draws ∧ (∀ f, u.inflight = some f → isImage f.cmd = true) ∧ (u.inflight = none → WindowDrawn s u)

/-- A whole-image command that completes leaves the window drawn (R75, R404). -/
theorem complete_windowDrawn {f : InFlight} {s u : State} (hf : isImage f.cmd = true) (hd : s.draws ≤ u.draws) :
    WindowDrawn s (complete f u) := by
  simp only [complete, hf, if_true]
  exact scrambleWindow_drawn (hd.trans (release_draws_le f u))

/-- A whole-image command that E_BUSERR ends leaves the window drawn (R75, R431). -/
theorem busError_windowDrawn {f : InFlight} {a : Nat} {s u : State} (hf : isImage f.cmd = true) (hd : s.draws ≤ u.draws) :
    WindowDrawn s (busError f a u) := by
  simp only [busError, hf, if_true, imageBusError]
  exact scrambleWindow_drawn (hd.trans (releaseUnspecified_draws_le f u))

/-- A step of a track draws on, and leaves the command in flight. -/
theorem trackStep_flight {f : InFlight} {t : Track} {us : List Track} {ps : List Phase} {s u : State}
    (h : trackStep f t us ps s = .ok u) : s.draws ≤ u.draws ∧ ∃ todo, u.inflight = some { f with todo := todo } := by
  rcases trackStep_ok h with ⟨-, rfl⟩ | ⟨a, b, s1, -, hr, rfl⟩ | ⟨a, v, s1, -, hw, rfl⟩
  · exact ⟨le_rfl, _, rfl⟩
  · refine ⟨?_, _, rfl⟩
    rcases (engineRead_ok hr).2 with ⟨rfl, -⟩ | ⟨-, rfl⟩
    · exact le_rfl
    · exact Nat.le_succ _
  · obtain ⟨-, rfl⟩ := engineWrite_ok hw
    exact ⟨le_rfl, _, rfl⟩

theorem ImageRun.engineStep {s u : State} (h : ImageRun s u) : ImageRun s (engineStep u) := by
  obtain ⟨hd, himg, hend⟩ := h
  rcases engineStep_cases u with ⟨hi, he⟩ | ⟨f, hf, -, he⟩
    | ⟨f, p, ps, k, t, us, o, hf, -, -, -, -, ⟨v, hv, he⟩ | ⟨a, -, he⟩⟩
  · rw [he]; exact ⟨hd, himg, hend⟩
  · rw [he]
    exact ⟨hd.trans (complete_draws_le f u), by simp, fun _ => complete_windowDrawn (himg f hf) hd⟩
  · rw [he]
    obtain ⟨hdv, todo, hfl⟩ := trackStep_flight hv
    refine ⟨hd.trans hdv, fun g hg => ?_, fun hn => ?_⟩
    · rw [hfl] at hg
      cases hg
      exact himg f hf
    · rw [hfl] at hn
      cases hn
  · rw [he]
    refine ⟨hd.trans (busError_draws_le f a { u with order := o }), fun g hg => ?_, fun _ => busError_windowDrawn (himg f hf) hd⟩
    rw [busError_frame] at hg
    cases hg

/-- A whole-image command that starts undisturbed leaves the window drawn at its end. -/
theorem windowDrawn_advance {s u : State} {f : InFlight} (hl : u.lead = .untilDone) (hd : s.draws ≤ u.draws)
    (hf : u.inflight = some f) (hi : isImage f.cmd = true) : WindowDrawn s (advance u) := by
  have hstart : ImageRun s u := by
    refine ⟨hd, fun g hg => ?_, fun hn => ?_⟩
    · rw [hf] at hg
      cases hg
      exact hi
    · rw [hf] at hn
      cases hn
  have hrun := engineRun_induction (P := ImageRun s) (fun _ => ImageRun.engineStep) u.remaining u hstart
  have hdone := engineRun_ends u.remaining u le_rfl
  rw [advance_eq hl hdone]
  exact hrun.2.2 hdone

/-- Settles O46: an accepted command runs to its end, where the window is drawn; a precise error is `raiseError` alone. -/
theorem imageCommandsLeaveTheWindowUnspecified : Obligations.ImageCommandsLeaveTheWindowUnspecified := by
  intro i s t hi ⟨hidle, hlead⟩ h
  have himg : isImage i = true := by
    clear h
    revert i
    decide
  have hn : i ≠ .nop := by
    rintro rfl
    cases himg
  rcases exec_idle hidle hn h with ⟨e, he, rfl⟩ | ⟨hc, rfl⟩
  · exact ⟨fun hc => absurd (hc.symm.trans he) nofun, fun _ => rfl⟩
  · exact ⟨fun _ => windowDrawn_advance hlead le_rfl rfl himg, fun hne => absurd hc hne⟩

end Sys2Proof.Machine
end

