-- ==== Sys2Proof/Proofs/WriteFootprint.lean ====
section
/-! PROOF. However a command ends or is interrupted, a byte outside its write footprint keeps its value (R165, R306, R351). -/

namespace Sys2Proof.Machine

/-- NOP on an idle engine is its acceptance and its completion (R402). -/
theorem exec_nop {s : State} (hidle : s.inflight = none) :
    exec .nop s = .next { accept (encode .nop) s with flags := s.flags.accepted.completed } :=
  if_neg (by simp [State.busy, hidle])

/-- Settles O28: a precise error writes no memory, and a started command is `Progress` within its write footprint up to the
host's next step, whatever is tainted and whatever stops it. -/
theorem onlyTheWriteFootprintChanges : Obligations.OnlyTheWriteFootprintChanges := by
  intro i s t hidle h a ha
  by_cases hn : i = .nop
  · subst hn
    rw [exec_nop hidle] at h
    cases h
    rfl
  · rcases exec_idle hidle hn h with ⟨e, -, rfl⟩ | ⟨hc, rfl⟩
    · rfl
    · exact (start_progress hc).mem a ha

end Sys2Proof.Machine
end

