-- ==== Sys2Proof/Proofs/Stops.lean ====
section
/-! PROOF. The two stops of the machine, a refusal and a fault at the acceptance of a command with a forbidden buffer, and that
there is no other (R151, R154). -/

namespace Sys2Proof.Machine

/-- What an idle engine answers a command: the error of its checks, the refusal of a footprint in the register window, the
fault of one in memory that is not idempotent, or else a next state (log entry 22). -/
theorem exec_idle_cases (i : Instr) {s : State} (hidle : s.inflight = none) :
    (∃ e t, expectedError i s.ops s.win s.plat = some e ∧ exec i s = .next t)
    ∨ (expectedError i s.ops s.win s.plat = none
        ∧ (∃ a ∈ (s.footprint i).reads ++ (s.footprint i).writes, s.plat.inWindow a = true)
        ∧ exec i s = .refused .bufferInRegisterWindow)
    ∨ (expectedError i s.ops s.win s.plat = none
        ∧ (¬∃ a ∈ (s.footprint i).reads ++ (s.footprint i).writes, s.plat.inWindow a = true)
        ∧ (∃ a ∈ (s.footprint i).reads ++ (s.footprint i).writes, s.plat.inDevice a = true)
        ∧ exec i s = .fault .nonIdempotentBuffer)
    ∨ ((¬∃ a ∈ (s.footprint i).reads ++ (s.footprint i).writes, s.plat.inWindow a = true)
        ∧ (¬∃ a ∈ (s.footprint i).reads ++ (s.footprint i).writes, s.plat.inDevice a = true)
        ∧ ∃ t, exec i s = .next t) := by
  by_cases hn : i = .nop
  · subst hn
    exact .inr (.inr (.inr ⟨nofun, nofun, _, exec_nop hidle⟩))
  · have hall : (planOf i s.ops s.win s.plat).foot.all = (s.footprint i).reads ++ (s.footprint i).writes := by
      rw [planOf_foot]
      rfl
    have hcases := issue_cases i (planOf i s.ops s.win s.plat) s
    rw [← exec_eq_issue i s hn, planOf_check, hall] at hcases
    rcases hcases with ⟨hb, -⟩ | ⟨-, e, he, h⟩ | ⟨-, hc, hw, h⟩ | ⟨-, hc, hw, hd, h⟩ | ⟨-, -, hw, hd, h⟩
    · exact absurd hidle (Option.isSome_iff_ne_none.1 hb)
    · exact .inl ⟨e, _, he, h⟩
    · exact .inr (.inl ⟨hc, hw, h⟩)
    · exact .inr (.inr (.inl ⟨hc, by simpa using hw, hd, h⟩))
    · exact .inr (.inr (.inr ⟨by simpa using hw, by simpa using hd, _, h⟩))

/-- A step that answers no next state is the CMD write of a command's word to an idle engine by a host that is not faulted. -/
theorem step_stops {s : State} (h : ∀ t, step s ≠ .next t) :
    s.inflight = none ∧ s.hostFault = false
    ∧ ∃ w i lead rest, s.inbox = ⟨.regWrite 0x14 .word w, lead⟩ :: rest ∧ decode w = some i
      ∧ step s = exec i { s with inbox := rest, lead := lead, reply := .ack } := by
  cases hbox : s.inbox with
  | nil => exact absurd (by simp only [step, nextStep, hbox]) (h (engineStep s))
  | cons e rest =>
    rcases Bool.eq_false_or_eq_true s.hostFault with hf | hf
    · exact absurd (step_faulted hf hbox) (h _)
    · rw [step_host hf hbox] at h ⊢
      obtain ⟨op, lead⟩ := e
      obtain ⟨w, i, rfl, hd, hexec⟩ := hostStep_next h
      refine ⟨?_, hf, w, i, lead, rest, rfl, hd, hexec⟩
      by_contra hidle
      rw [hexec] at h
      exact h _ (exec_busy i (Option.isSome_iff_ne_none.2 hidle))

/-- Settles O25: the cases of an idle engine exclude each other, and a busy engine loses the command. -/
theorem onlyForbiddenBuffersStopTheMachine : Obligations.OnlyForbiddenBuffersStopTheMachine := by
  refine ⟨fun i s hidle => ?_, fun i s hb => ⟨_, exec_busy i hb⟩, fun s => step_stops⟩
  rcases exec_idle_cases i hidle with ⟨e, t, he, h⟩ | ⟨hc, hw, h⟩ | ⟨hc, hw, hd, h⟩ | ⟨hw, hd, ht⟩
  · have hc : expectedError i s.ops s.win s.plat ≠ none := by simp [he]
    exact ⟨fun ⟨hp, _⟩ => absurd hp hc, fun ⟨hp, _⟩ => absurd hp hc, fun _ => ⟨t, h⟩⟩
  · exact ⟨fun _ => h, fun ⟨_, hnw, _⟩ => absurd hw hnw, fun hno => absurd ⟨hc, .inl hw⟩ hno⟩
  · exact ⟨fun ⟨_, hw'⟩ => absurd hw' hw, fun _ => h, fun hno => absurd ⟨hc, .inr hd⟩ hno⟩
  · exact ⟨fun ⟨_, hw'⟩ => absurd hw' hw, fun ⟨_, _, hd'⟩ => absurd hd' hd, fun _ => ht⟩

end Sys2Proof.Machine
end

