-- ==== Sys2Proof/Proofs/HostBytes.lean ====
section
/-! PROOF. The host's own loads and stores: what each answers and changes, and what a store to an owned byte does to the command
in flight (R155, R157, R160). -/

namespace Sys2Proof.Machine

/-! ## One load, one store -/

/-- Tainting a byte leaves everything but the command in flight. -/
theorem taint_frame (a : Nat) (s : State) : taint a s = { s with inflight := (taint a s).inflight } := by
  unfold taint
  split
  · rfl
  · split <;> rfl

theorem taint_idle {a : Nat} {s : State} (h : s.inflight = none) : taint a s = s := by simp [taint, h]

/-- An owned byte is tainted in the command in flight, whose footprint stays (R155 b). -/
theorem taint_owned {a : Nat} {s : State} {f : InFlight} (hf : s.inflight = some f) (ho : f.foot.owns a = true) :
    ∃ g, (taint a s).inflight = some g ∧ g.foot = f.foot ∧ a ∈ g.tainted :=
  ⟨{ f with tainted := f.tainted.insert a }, by simp [taint, hf, ho], rfl, List.mem_insert_self⟩

theorem Footprint.owns_iff {f : Footprint} {a : Nat} : f.owns a = true ↔ a ∈ f.reads ++ f.writes := by
  simp [Footprint.owns]

section Answered

variable {s : State} {a : Nat} (hok : s.plat.memOk a = true) (hwin : s.plat.inWindow a = false)
include hok hwin

/-- A load of a byte that is owned, in a stale line or not idempotent: a drawn value, and nothing else (R155 a, R160, R154). -/
theorem hostLoad_drawn (h : (s.owns a || s.staleLine a || s.plat.inDevice a) = true) :
    hostLoad a s = { s with draws := s.draws + 1, reply := .byte ((Config.freeWord s.draws).setWidth 8) } := by
  simp [hostLoad, hok, hwin, h, State.draw]

/-- A load while idle, of idempotent memory in a line that is not stale: what memory holds (R157). -/
theorem hostLoad_idle (hidle : s.inflight = none) (hdev : s.plat.inDevice a = false)
    (hstale : s.plat.cacheLine a ∉ s.hostStale) : hostLoad a s = { s with reply := .byte (s.mem.read a) } := by
  simp [hostLoad, hok, hwin, hdev, State.owns, hidle, State.staleLine, hstale]

/-- A store to idempotent memory: the byte, its taint, and the host's cache marks (R155 b, R160). -/
theorem hostStore_eq (v : Byte) (hdev : s.plat.inDevice a = false) :
    hostStore a v s = { s with
      inflight  := (taint a s).inflight
      mem       := s.mem.write a v
      hostDirty := if s.plat.coherent then s.hostDirty else s.hostDirty.insert a
      hostOver  := without a s.hostOver
      reply     := .ack } := by
  simp only [hostStore, hok, hwin, hdev, Bool.not_true, Bool.false_eq_true, if_false]
  rw [taint_frame]

end Answered

/-- Settles O54: on an idle engine a store taints nothing and stales no line, so the load answers memory's byte. -/
theorem hostLoadsWhatItStored : Obligations.HostLoadsWhatItStored := by
  intro s a v hidle hok hwin hdev hstale
  rw [hostStore_eq hok hwin v hdev, taint_idle hidle, hostLoad_idle]
  · exact ⟨congrArg Reply.byte (Memory.read_write_self _ _ _), rfl, fun b hb => Memory.read_write_of_ne _ _ hb.symm⟩
  case hok => exact hok
  case hwin => exact hwin
  case hidle => exact hidle
  case hdev => exact hdev
  case hstale => exact fun h => hstale _ h rfl

end Sys2Proof.Machine
end

