-- ==== Sys2Proof/Proofs/CommandRun.lean ====
section
/-! SUPPORT. Where a run of the command in flight can stand: on the way, with steps of its pseudocode done, or ended, by
completion or by E_BUSERR (R401, R404, R431). What holds of every end is then a fact about `complete` and `busError`. -/

namespace Sys2Proof.Machine

/-- From `s` the engine has come to `u`, with `todo` left of the command `f`. -/
structure OnTheWay (f : InFlight) (s : State) (todo : List Phase) (u : State) : Prop where
  frame : EngineFrame s u
  draws : s.draws ≤ u.draws
  inflight : u.inflight = some { f with todo := todo }

/-- `t` is what `u`, with `todo` left of the command `f`, comes to when the command ends. -/
inductive EndsFrom (f : InFlight) (todo : List Phase) (u : State) : State → Prop where
  | completed (h : todo = []) : EndsFrom f todo u (complete { f with todo := todo } u)
  | failed (a : Nat) : EndsFrom f todo u (busError { f with todo := todo } a u)

/-- The command is on its way in `t`, or it has ended. -/
def Going (f : InFlight) (s t : State) : Prop :=
  (∃ todo, OnTheWay f s todo t)
  ∨ t.inflight = none ∧ ∃ todo u, s.draws ≤ u.draws ∧ EngineFrame s u ∧ EndsFrom f todo u t

theorem OnTheWay.engineStep {f : InFlight} {s u : State} {todo : List Phase} (h : OnTheWay f s todo u) :
    Going f s (engineStep u) := by
  rcases engineStep_cases u with ⟨hi, -⟩ | ⟨g, hg, hdone, he⟩
    | ⟨g, p, ps, k, t, us, o, hg, -, -, -, -, ⟨v, hv, he⟩ | ⟨a, -, he⟩⟩
  · exact absurd (h.inflight.symm.trans hi) nofun
  all_goals obtain rfl : { f with todo := todo } = g := Option.some.inj (h.inflight.symm.trans hg)
  · rw [he]
    exact .inr ⟨complete_inflight _ _, todo, u, h.draws, h.frame, .completed hdone⟩
  · rw [he]
    have hord : EngineFrame u { u with order := o } := rfl
    obtain ⟨hd, todo', hfl⟩ := trackStep_flight hv
    exact .inl ⟨todo', h.frame.trans (hord.trans (engineFrame_trackStep hv)), h.draws.trans hd, hfl⟩
  · rw [he]
    exact .inr ⟨by rw [busError_frame], todo, { u with order := o }, h.draws, h.frame.trans rfl, .failed a⟩

/-- Every run of the command in flight is on the way or has ended. -/
theorem going_engineRun {f : InFlight} {s : State} (hf : s.inflight = some f) (n : Nat) : Going f s (engineRun n s) := by
  refine engineRun_induction (P := Going f s) (fun u h => ?_) n s (.inl ⟨f.todo, .refl s, le_rfl, hf⟩)
  rcases h with ⟨todo, h⟩ | ⟨hi, hend⟩
  · exact h.engineStep
  · rw [engineStep_idle u hi]
    exact .inr ⟨hi, hend⟩

/-! ## What every end of a tainted command leaves (R155 b) -/

theorem scrambleSlots_draws (ks : List Nat) (s : State) : (scrambleSlots ks s).draws = s.draws + ks.length := by
  rw [scrambleSlots_frame]

section Tainted

variable {f : InFlight} {s u : State} {b : Nat} (hd : s.draws ≤ u.draws) (ht : f.tainted ≠ []) (hb : b ∈ f.foot.writes)
include hd ht hb

theorem complete_drawn : Drawn s (complete f u) ((complete f u).mem.read b) := by
  have hrel := release_drawn hd ht hb
  unfold complete
  dsimp only
  split
  · exact hrel.mono (Nat.le_add_right _ 7)
  · exact hrel

theorem busError_drawn (a : Nat) : Drawn s (busError f a u) ((busError f a u).mem.read b) := by
  unfold busError
  split
  · exact imageBusError_drawn f a b hd hb
  · have hrel := release_drawn hd ht hb
    simp only [lineBusError, raiseError_mem, scrambleSlots_mem, scrambleRegs_mem]
    refine hrel.mono ?_
    rw [raiseError_draws, scrambleSlots_draws, scrambleRegs_draws]
    omega

theorem EndsFrom.drawn {t : State} {todo : List Phase} (h : EndsFrom f todo u t) : Drawn s t (t.mem.read b) := by
  cases h with
  | completed => exact complete_drawn (f := { f with todo := todo }) hd ht hb
  | failed a => exact busError_drawn (f := { f with todo := todo }) hd ht hb a

end Tainted

end Sys2Proof.Machine
end

