-- ==== Sys2Proof/Proofs/OwnedBytes.lean ====
section
/-! PROOF. The host's accesses to the bytes a command in flight owns (R155). -/

namespace Sys2Proof.Machine

/-- An engine read of a tainted byte is drawn (R155 b). -/
theorem engineRead_tainted {a : Nat} {s : State} {f : InFlight} (hf : s.inflight = some f) (ha : a ∈ f.tainted)
    (hok : s.plat.memOk a = true) :
    engineRead a s = .ok ((Config.freeWord s.draws).setWidth 8, { s with draws := s.draws + 1 }) := by
  simp [engineRead, hok, State.isTainted, hf, ha, State.draw]

/-- Settles O53: a store taints the owned byte, and the command carries the taint to its end, which draws the footprint. -/
theorem hostAccessToOwnedBytes : Obligations.HostAccessToOwnedBytes := by
  intro s f a v hf ha hok hwin hdev
  have howns : f.foot.owns a = true := Footprint.owns_iff.2 ha
  refine ⟨hostLoad_drawn hok hwin (by simp [State.owns, hf, howns]), fun n => ?_⟩
  have hstore := hostStore_eq hok hwin v hdev
  obtain ⟨g, hg, hfoot, htaint⟩ := taint_owned hf howns
  rw [hg] at hstore
  have hd : s.draws ≤ (hostStore a v s).draws := by rw [hstore]
  rcases going_engineRun (s := hostStore a v s) (f := g) (by rw [hstore]) n with ⟨todo, hway⟩
    | ⟨hi, todo, u, hdu, -, hend⟩
  · refine ⟨fun _ => engineRead_tainted hway.inflight htaint ?_, fun hi => absurd (hway.inflight.symm.trans hi) nofun⟩
    rw [hway.frame.plat, hstore]
    exact hok
  · refine ⟨fun hne => absurd hi hne, fun _ b hb => ?_⟩
    rw [← hfoot] at hb
    exact hend.drawn (hd.trans hdu) (List.ne_nil_of_mem htaint) hb

end Sys2Proof.Machine
end

