-- ==== Sys2Proof/Proofs/CacheLines.lean ====
section
/-! PROOF. The host's cache lines without coherence: what a missing write-back taints, what a line holds after a command until
it is invalidated, and what the maintenance leaves (R160; log entry 12). -/

namespace Sys2Proof.Machine

theorem dirtyLine_iff {s : State} {a : Nat} :
    s.dirtyLine a = true ↔ ∃ b ∈ s.hostDirty, s.plat.cacheLine b = s.plat.cacheLine a := by
  simp only [State.dirtyLine, List.any_eq_true, Platform.sameLine, beq_iff_eq, eq_comm (a := s.plat.cacheLine a)]

/-- The command in flight right after its acceptance is tainted where its reads lie in a dirty line (R155 b, R160). -/
theorem tainted_of_start {i : Instr} {s t : State} {f : InFlight} (hidle : s.inflight = none)
    (hco : s.plat.coherent = false) (hl : s.lead = .steps 0) (h : exec i s = .next t) (hf : t.inflight = some f) :
    f.tainted = (s.footprint i).reads.filter s.dirtyLine := by
  by_cases hn : i = .nop
  · subst hn
    rw [exec_nop hidle] at h
    cases h
    exact absurd (hidle.symm.trans hf) nofun
  · rcases exec_idle hidle hn h with ⟨e, -, rfl⟩ | ⟨-, rfl⟩
    · cases hf
    · rw [advance_zero (s := start i _ (accept (encode i) s)) hl] at hf
      cases hf
      simp only [accept_plat, hco, planOf_foot]
      rfl

/-! ## The write-back -/

theorem taintLine_idle {a : Nat} {s : State} (h : s.inflight = none) : taintLine a s = s := by simp [taintLine, h]

/-- The write-back of a line that no ended command has written to, on an idle engine (R160). -/
theorem hostClean_idle {a : Nat} {s : State} (hidle : s.inflight = none)
    (hover : ∀ b ∈ s.hostOver, s.plat.cacheLine b ≠ s.plat.cacheLine a) :
    (hostClean a s).mem = s.mem
    ∧ ∀ b, b ∈ (hostClean a s).hostDirty ↔ b ∈ s.hostDirty ∧ s.plat.cacheLine b ≠ s.plat.cacheLine a := by
  have hnone : inLine s.plat a s.hostOver = [] := by
    refine List.eq_nil_iff_forall_not_mem.2 fun b hb => ?_
    obtain ⟨hmem, hline⟩ := mem_inLine.1 hb
    exact hover b hmem hline.symm
  unfold hostClean
  split
  · rw [hnone, taintLine_idle hidle]
    exact ⟨rfl, fun b => mem_offLine.trans (by rw [ne_comm])⟩
  · next hclean =>
    exact ⟨rfl, fun b => ⟨fun hb => ⟨hb, fun he => hclean (dirtyLine_iff.2 ⟨b, hb, he⟩)⟩, And.left⟩⟩

/-! ## The marks a command leaves -/

/-- `t` is idle on the platform of `s`; the host's cache is behind on every byte of `W`, and every line over them is stale. -/
structure LeavesMarks (W : List Nat) (s t : State) : Prop where
  idle : t.inflight = none
  plat : t.plat = s.plat
  marked : ∀ a ∈ W, a ∈ t.hostOver
  stale : ∀ a ∈ W, s.plat.cacheLine a ∈ t.hostStale

/-- Every end of a whole-image command marks all of its write footprint (R431, R160; log entry 12). -/
theorem EndsFrom.marks {f : InFlight} {todo : List Phase} {u t : State} (h : EndsFrom f todo u t)
    (hi : isImage f.cmd = true) (hco : u.plat.coherent = false) : LeavesMarks f.foot.writes u t := by
  cases h with
  | completed hdone =>
    refine ⟨complete_inflight _ _, complete_plat _ _, fun a ha => ?_, fun a ha => ?_⟩
    · rw [complete_hostOver, InFlight.written_of_done hdone]
      exact mem_over.2 (.inr ⟨hco, ha⟩)
    · rw [complete_hostStale]
      exact mem_over.2 (.inr ⟨hco, List.mem_map_of_mem ha⟩)
  | failed b =>
    refine ⟨by rw [busError_frame], by rw [busError_frame], fun a ha => ?_, fun a ha => ?_⟩
    · rw [busError_hostOver, if_pos hi]
      exact mem_over.2 (.inr ⟨hco, ha⟩)
    · rw [busError_hostStale]
      exact mem_over.2 (.inr ⟨hco, List.mem_map_of_mem ha⟩)

theorem image_leavesMarks {i : Instr} {s : State} (hi : isImage i = true) (hr : Runs i s) (hco : s.plat.coherent = false) :
    ∃ t, exec i s = .next t ∧ LeavesMarks (s.footprint i).writes s t := by
  obtain ⟨⟨hidle, hl⟩, hc, hclear, -⟩ := hr
  have hn : i ≠ .nop := by
    rintro rfl
    cases hi
  refine ⟨_, exec_start i s hn hidle hc hclear, ?_⟩
  have hend := engineRun_ends (startOf i s).remaining (startOf i s) le_rfl
  rw [advance_eq (s := startOf i s) hl hend]
  rcases going_engineRun (f := flightOf i s) (s := startOf i s) rfl (startOf i s).remaining with ⟨todo, hway⟩
    | ⟨-, todo, u, -, hframe, hfrom⟩
  · exact absurd (hway.inflight.symm.trans hend) nofun
  · have hplat : u.plat = s.plat := hframe.plat
    obtain ⟨h1, h2, h3, h4⟩ := hfrom.marks hi (by rw [hplat, hco])
    exact ⟨h1, h2.trans hplat, h3, hplat ▸ h4⟩

/-- A completed command marks all of its write footprint. -/
theorem Completed.marks {word : Word} {W : List Nat} {s t : State} (h : Completed word W s t) (hidle : s.inflight = none)
    (hco : s.plat.coherent = false) : LeavesMarks W s t := by
  obtain ⟨ht, -⟩ := h
  rw [ht]
  refine ⟨hidle, rfl, fun a ha => mem_over.2 (.inr ⟨hco, ha⟩), fun a ha => ?_⟩
  exact mem_over.2 (.inr ⟨hco, List.mem_map_of_mem ha⟩)

/-- A SLIDE that reads and writes its footprint of answering bytes completes. -/
theorem slide_completed {i : Instr} {var : Variant} {s : State} (hn : i ≠ .nop) (hl : isImage i = false) (hr : Runs i s)
    (hp : (planOf i s.ops s.win s.plat).prog
      = [[slideSteps var s.ops.src s.ops.dst s.ops.lineL s.ops.stride s.ops.r]])
    (hwrites : (s.footprint i).writes = lineAddrs s.ops.dst s.ops.lineL s.ops.stride)
    (hreads : ∀ j < s.ops.lineL, slideReads var s.ops.src s.ops.lineL s.ops.stride s.ops.r
      (fun j => (s.win.map.get j).toNat) j ∈ (s.footprint i).reads) :
    ∃ t, exec i s = .next t ∧ Completed (encode i) (s.footprint i).writes s t := by
  obtain ⟨hu, hc, hclear, hans⟩ := hr
  have hlen : s.ops.lineL < 65536 := s.ops.lineLen.isLt
  have hrun := runs_slideSteps s.ops (· ∈ (s.footprint i).reads) (· ∈ (s.footprint i).writes) var s.ops.src s.ops.dst
    s.ops.lineL s.ops.stride s.ops.r s.ops.lineL s.ops.radius.isLt (by omega) (lineWork s)
    (fun j hj => hwrites ▸ mem_lineAddrs.2 ⟨j, hj, rfl⟩) hreads
  obtain ⟨t, ht, hcomp, -⟩ := exec_line hn hl hu hc hclear hp hrun fun a ha => hans a (List.mem_append.2 ha)
  exact ⟨t, ht, hcomp⟩

/-- A command that runs and writes memory leaves its marks. -/
theorem runs_leavesMarks {i : Instr} {s : State} {a : Nat} (hr : Runs i s) (hco : s.plat.coherent = false)
    (ha : a ∈ (s.footprint i).writes) : ∃ t, exec i s = .next t ∧ LeavesMarks (s.footprint i).writes s t := by
  have ⟨⟨hidle, _⟩, _⟩ := hr
  cases i with
  | nop | mapgen | winitT | winitU => exact absurd ha List.not_mem_nil
  | blurT | blurU | grey | diffthr | unsharp => exact image_leavesMarks rfl hr hco
  | slideT =>
    obtain ⟨t, ht, hcomp⟩ := slide_completed (i := .slideT) (var := .T) nofun rfl hr rfl rfl
      fun j hj => List.mem_map_of_mem (List.mem_range.2 hj)
    exact ⟨t, ht, hcomp.marks hidle hco⟩
  | slideU =>
    have hentering : ∀ j < s.ops.lineL, min (j + s.ops.r + 1) (s.ops.lineL - 1) < s.ops.lineL := by omega
    obtain ⟨t, ht, hcomp⟩ := slide_completed (i := .slideU) (var := .U) nofun rfl hr rfl rfl
      fun j hj => mem_lineAddrs.2 ⟨_, hentering j hj, rfl⟩
    exact ⟨t, ht, hcomp.marks hidle hco⟩

/-! ## The invalidate -/

/-- An invalidate leaves a byte that counts as engine-written since the host's line as it is in memory (R157 b). -/
theorem hostInvalidate_read {a : Nat} {s : State} (h : a ∈ s.hostOver) :
    (hostInvalidate a s).mem.read a = s.mem.read a := by
  refine scrambleBytes_read_of_not_mem _ s a fun hmem => ?_
  obtain ⟨-, hnew⟩ := List.mem_filter.1 hmem
  simp [State.overwritten, h] at hnew

/-- After the invalidate of its line an idle engine's byte loads as what the engine left there. -/
theorem hostLoad_hostInvalidate {a : Nat} {s : State} (hidle : s.inflight = none) (hok : s.plat.memOk a = true)
    (hwin : s.plat.inWindow a = false) (hdev : s.plat.inDevice a = false) (h : a ∈ s.hostOver) :
    (hostLoad a (hostInvalidate a s)).reply = .byte (s.mem.read a) := by
  have hplat : (hostInvalidate a s).plat = s.plat := scrambleBytes_plat _ _
  have hstale : s.plat.cacheLine a ∉ (hostInvalidate a s).hostStale := fun hmem => (mem_without.1 hmem).2 rfl
  have hidle' : (hostInvalidate a s).inflight = none := (scrambleBytes_inflight _ _).trans hidle
  rw [hostLoad_idle (by rw [hplat, hok]) (by rw [hplat, hwin]) hidle' (by rw [hplat, hdev]) (by rwa [hplat])]
  exact congrArg Reply.byte (hostInvalidate_read h)

/-- Settles O55: the taint of the start, the write-back while idle, and the marks of a command that runs, which a load and an
invalidate obey. -/
theorem missingCacheMaintenance : Obligations.MissingCacheMaintenance := by
  intro i s a hidle hco
  refine ⟨fun t hl h f hf => ?taint, hostClean_idle hidle, fun hr ha => ?marks⟩
  case taint =>
    rw [tainted_of_start hidle hco hl h hf, List.mem_filter, dirtyLine_iff]
  case marks =>
    obtain ⟨t, ht, hi, hplat, hover, hstale⟩ := runs_leavesMarks hr hco ha
    obtain ⟨-, -, ⟨hfree, -⟩, hans⟩ := hr
    have hfoot : a ∈ (s.footprint i).reads ++ (s.footprint i).writes := List.mem_append_right _ ha
    obtain ⟨hwin, hdev⟩ := hfree a hfoot
    rw [← hplat] at hwin hdev
    have hok : t.plat.memOk a = true := by rw [hplat, hans a hfoot]
    refine ⟨t, ht, fun b hline hokb hwinb => ?_, hostLoad_hostInvalidate hi hok hwin hdev (hover a ha)⟩
    rw [← hplat] at hokb hwinb
    refine hostLoad_drawn hokb hwinb ?_
    have : t.staleLine b = true := by
      rw [State.staleLine, hplat, hline]
      exact List.contains_iff_mem.2 (hstale a ha)
    simp [this]

end Sys2Proof.Machine
end

