-- ==== Sys2Proof/Proofs/Codec.lean ====
section
/-! SUPPORT. The decoder and the encoder, layer by layer: fields and words (R200), words and bytes (R152), and the decoding of
fields (R202, R203). The encoder's words are exactly what the decoder accepts. -/

namespace Sys2Proof

/-! ## Fields and words (R200) -/

/-- The number of two bit fields side by side. -/
theorem append_toNat {m n : Nat} (x : BitVec m) (y : BitVec n) : (x ++ y).toNat = x.toNat * 2 ^ n + y.toNat := by
  rw [BitVec.toNat_append, ← Nat.shiftLeft_add_eq_or_of_lt y.isLt, Nat.shiftLeft_eq]

/-- Fields are equal if their numbers are. -/
theorem CmdWord.ext_toNat {c d : CmdWord} (hrsv : c.rsv.toNat = d.rsv.toNat) (hvar : c.var.toNat = d.var.toNat)
    (hop : c.op.toNat = d.op.toNat) : c = d :=
  (CmdWord.mk.injEq ..).mpr ⟨BitVec.eq_of_toNat_eq hrsv, BitVec.eq_of_toNat_eq hvar, BitVec.eq_of_toNat_eq hop⟩

/-- The number of a word of given fields. -/
theorem wordOf_toNat (c : CmdWord) : (wordOf c).toNat = 32 * c.rsv.toNat + 16 * c.var.toNat + c.op.toNat := by
  rw [wordOf, BitVec.toNat_cast, append_toNat, append_toNat]
  omega

@[simp] theorem fieldsOf_rsv_toNat (w : Word) : (fieldsOf w).rsv.toNat = w.toNat / 32 := by
  have hw := w.isLt
  simp only [fieldsOf, BitVec.extractLsb'_toNat, Nat.shiftRight_eq_div_pow]
  omega

@[simp] theorem fieldsOf_var_toNat (w : Word) : (fieldsOf w).var.toNat = w.toNat / 16 % 2 := by
  simp only [fieldsOf, BitVec.extractLsb'_toNat, Nat.shiftRight_eq_div_pow, Nat.reducePow]

@[simp] theorem fieldsOf_op_toNat (w : Word) : (fieldsOf w).op.toNat = w.toNat % 16 := by
  simp only [fieldsOf, BitVec.extractLsb'_toNat, Nat.shiftRight_zero, Nat.reducePow]

@[simp] theorem wordOf_fieldsOf (w : Word) : wordOf (fieldsOf w) = w := by
  apply BitVec.eq_of_toNat_eq
  rw [wordOf_toNat, fieldsOf_rsv_toNat, fieldsOf_var_toNat, fieldsOf_op_toNat]
  omega

@[simp] theorem fieldsOf_wordOf (c : CmdWord) : fieldsOf (wordOf c) = c := by
  have hvar := c.var.isLt
  have hop := c.op.isLt
  have hnum := wordOf_toNat c
  apply CmdWord.ext_toNat
  · rw [fieldsOf_rsv_toNat]; omega
  · rw [fieldsOf_var_toNat]; omega
  · rw [fieldsOf_op_toNat]; omega

/-! ## Words and bytes (R152) -/

/-- The number that four bytes carry, byte lane 0 first. -/
theorem wordOfBytes_toNat (b0 b1 b2 b3 : Byte) :
    (wordOfBytes b0 b1 b2 b3).toNat = b0.toNat + 256 * b1.toNat + 65536 * b2.toNat + 16777216 * b3.toNat := by
  rw [wordOfBytes, BitVec.toNat_cast, append_toNat, append_toNat, append_toNat]
  omega

/-- A byte lane of a word, as a digit of its number. -/
theorem byteLane_toNat (w : Word) (n : Nat) : (w.extractLsb' n 8).toNat = w.toNat / 2 ^ n % 256 := by
  rw [BitVec.extractLsb'_toNat, Nat.shiftRight_eq_div_pow]

theorem wordOfBytes_byteLanes (w : Word) :
    wordOfBytes (w.extractLsb' 0 8) (w.extractLsb' 8 8) (w.extractLsb' 16 8) (w.extractLsb' 24 8) = w := by
  have hw := w.isLt
  apply BitVec.eq_of_toNat_eq
  simp only [wordOfBytes_toNat, byteLane_toNat]
  omega

theorem bytesOfWord_wordOfBytes (b0 b1 b2 b3 : Byte) : bytesOfWord (wordOfBytes b0 b1 b2 b3) = [b0, b1, b2, b3] := by
  have h0 := b0.isLt
  have h1 := b1.isLt
  have h2 := b2.isLt
  have h3 := b3.isLt
  have hnum := wordOfBytes_toNat b0 b1 b2 b3
  have lane : ∀ n (b : Byte), (wordOfBytes b0 b1 b2 b3).toNat / 2 ^ n % 256 = b.toNat →
      (wordOfBytes b0 b1 b2 b3).extractLsb' n 8 = b :=
    fun n b h => BitVec.eq_of_toNat_eq ((byteLane_toNat _ n).trans h)
  rw [bytesOfWord, lane 0 b0 (by omega), lane 8 b1 (by omega), lane 16 b2 (by omega), lane 24 b3 (by omega)]

/-! ## Decoding -/

/-- The decoder accepts exactly the legal fields (R202, R203). -/
theorem decodeFields_isSome (c : CmdWord) : (decodeFields c).toOption.isSome = c.wellFormed := by
  have table : ∀ var op, (decodeFields ⟨0, var, op⟩).toOption.isSome = CmdWord.wellFormed ⟨0, var, op⟩ := by decide
  obtain ⟨rsv, var, op⟩ := c
  by_cases hr : rsv = 0#27
  · rw [hr]
    exact table var op
  · simp [decodeFields, CmdWord.wellFormed, CmdWord.rsvOk, hr, Except.toOption]

@[simp] theorem decodeFields_fieldsOfInstr (i : Instr) : decodeFields (fieldsOfInstr i) = .ok i := by
  cases i <;> rfl

/-- Fields that decode are those of their command: no two rows of R202 share them. -/
theorem fieldsOfInstr_of_decodeFields {c : CmdWord} {i : Instr} (h : decodeFields c = .ok i) : fieldsOfInstr i = c := by
  have table : ∀ var op, ∀ j ∈ (decodeFields ⟨0, var, op⟩).toOption, fieldsOfInstr j = ⟨0, var, op⟩ := by decide
  obtain ⟨rsv, var, op⟩ := c
  by_cases hr : rsv = 0#27
  · subst hr
    exact table var op i (congrArg Except.toOption h)
  · simp [decodeFields, hr] at h

/-- A word decodes to the command whose encoding it is. -/
theorem decodeWord_eq_ok_iff (w : Word) (i : Instr) : decodeWord w = .ok i ↔ w = encode i := by
  constructor
  · intro h
    rw [encode, fieldsOfInstr_of_decodeFields h, wordOf_fieldsOf]
  · rintro rfl
    rw [decodeWord, encode, fieldsOf_wordOf, decodeFields_fieldsOfInstr]

theorem decode_eq_some_iff (w : Word) (i : Instr) : decode w = some i ↔ w = encode i := by
  rw [← decodeWord_eq_ok_iff, decode]
  cases decodeWord w <;> simp [Except.toOption]

@[simp] theorem decode_encode (i : Instr) : decode (encode i) = some i := (decode_eq_some_iff _ _).2 rfl

/-- The encoder gives the words of the opcode map (R202). -/
theorem mem_opcodeMap_iff (w : Word) (i : Instr) : (w, i) ∈ opcodeMap ↔ w = encode i := by
  constructor
  · have rows : ∀ row ∈ opcodeMap, row.1 = encode row.2 := by decide
    exact rows (w, i)
  · rintro rfl
    cases i <;> decide

/-- The bytes of a word decode as the word does and leave the rest. -/
theorem decodeBytes_bytesOfWord (w : Word) (rest : List Byte) :
    decodeBytes (bytesOfWord w ++ rest) = (decodeWord w).map (fun i => (i, rest)) := by
  simp only [bytesOfWord, List.cons_append, List.nil_append, decodeBytes, wordOfBytes_byteLanes]

/-- Bytes that decode begin with those of a word that decodes (R200). -/
theorem bytesOfWord_of_decodeBytes {bs rest : List Byte} {i : Instr} (h : decodeBytes bs = .ok (i, rest)) :
    ∃ w, decodeWord w = .ok i ∧ bs = bytesOfWord w ++ rest := by
  unfold decodeBytes at h
  split at h
  · next b0 b1 b2 b3 tail =>
    cases hw : decodeWord (wordOfBytes b0 b1 b2 b3) with
    | error r =>
      rw [hw] at h
      cases h
    | ok j =>
      rw [hw] at h
      cases h
      exact ⟨_, hw, by rw [bytesOfWord_wordOfBytes]; rfl⟩
  · cases h

/-- A table row of one whole word decodes as that word does. -/
theorem decodeTableWord_toNat (w : Word) : decodeTableWord 32 w.toNat = decode w := by
  have hrow : tableWord 32 w.toNat = w := by rw [tableWord, Nat.mod_eq_of_lt w.isLt, BitVec.ofNat_toNat, BitVec.setWidth_eq]
  have hbytes := decodeBytes_bytesOfWord w []
  rw [List.append_nil] at hbytes
  rw [decodeTableWord, if_neg (by decide), hrow, hbytes, decode]
  cases decodeWord w <;> rfl

end Sys2Proof
end

