-- ==== Sys2Proof/Proofs/Encoding.lean ====
section
/-! PROOF. The statements about the encoding: decode and encode agree on words and bytes, and an illegal word is refused with a
precise error (R200, R202-R204, R400, R433). -/

namespace Sys2Proof.Machine

/-- Settles O3: words and bytes correspond one to one, and a word decodes to a command exactly if it encodes it. -/
theorem encodedBytesDecodeBack : Obligations.EncodedBytesDecodeBack := by
  refine fun i rest => ⟨?bytes, ?row, fun bs h => ?converse⟩
  case bytes =>
    rw [decodeBytes_bytesOfWord, (decodeWord_eq_ok_iff _ i).2 rfl]
    rfl
  case row => rw [decodeTableWord_toNat, decode_encode]
  case converse =>
    obtain ⟨w, hw, rfl⟩ := bytesOfWord_of_decodeBytes h
    rw [(decodeWord_eq_ok_iff w i).1 hw]

/-! ## Illegal words -/

/-- The illegal words: OP from 8 on, VAR = 1 where the map has no such row, or a 1 bit in RSV (R203). -/
theorem decode_eq_none_iff (w : Word) :
    decode w = none ↔ 8 ≤ w.toNat % 16 ∨ (w.getLsbD 4 = true ∧ w.toNat % 16 ∈ [0, 1, 5, 6, 7]) ∨ w.toNat / 32 ≠ 0 := by
  have hlegal : decode w = none ↔ ¬(fieldsOf w).wellFormed = true := by
    rw [← decodeFields_isSome, Bool.not_eq_true, Option.isSome_eq_false_iff, Option.isNone_iff_eq_none]
    rfl
  have hvar : w.getLsbD 4 = decide (w.toNat / 16 % 2 = 1) := by
    rw [BitVec.getLsbD, Nat.testBit_eq_decide_div_mod_eq]
  rw [hlegal, hvar]
  simp only [CmdWord.wellFormed, CmdWord.rsvOk, CmdWord.opOk, CmdWord.varOk, Bool.and_eq_true, Bool.or_eq_true, beq_iff_eq,
    decide_eq_true_eq, ← BitVec.toNat_inj, fieldsOf_rsv_toNat, fieldsOf_var_toNat, fieldsOf_op_toNat, BitVec.toNat_ofNat,
    List.mem_cons, List.not_mem_nil, or_false]
  omega

/-- Acceptance followed by an acceptance error is a precise error of that word (R400, R433, R434). -/
theorem raiseError_accept {s : State} (w : Word) {e : ErrCode} (he : e ≠ .busErr) (hidle : s.inflight = none) :
    raiseError e 0 (accept w s) = failedAt w e s := by
  simp [raiseError, accept, failedAt, Flags.failed, Flags.accepted, errAddrOf, he, hidle]

/-- The CMD write of an illegal word to an idle engine (R203, R400). -/
theorem issueWord_illegal {w : Word} {s : State} (hd : decode w = none) (hidle : s.inflight = none) :
    issueWord w s = .next (failedAt w .illegal s) := by
  have hb : s.busy = false := by simp [State.busy, hidle]
  simp [issueWord, hd, issueIllegal, hb, raiseError_accept w (e := .illegal) (by decide) hidle]

/-- Settles O1: both sides of the equivalence say that the word is the command's encoding. -/
theorem decodeIsTheOpcodeMap : Obligations.DecodeIsTheOpcodeMap :=
  ⟨fun w i => (decode_eq_some_iff w i).trans (mem_opcodeMap_iff w i).symm, fun _ _ => issueWord_illegal⟩

/-- Settles O2: a word is illegal where a field of it is, and its acceptance is a precise E_ILLEGAL. -/
theorem illegalWordsAreRefusedWithoutEffect : Obligations.IllegalWordsAreRefusedWithoutEffect :=
  ⟨decode_eq_none_iff, fun w s hd hidle => ⟨failedAt w .illegal s, issueWord_illegal hd hidle, rfl, rfl, rfl⟩⟩

/-- Settles O4, by running the decoder. -/
theorem writtenWordsDecode : Obligations.WrittenWordsDecode := by
  unfold Obligations.WrittenWordsDecode
  decide

end Sys2Proof.Machine
end

