-- ==== Sys2Proof/Proofs/HostPrograms.lean ====
section
/-! PROOF. The polling loop WAIT (R207), and what the lines and pseudo-instructions of a host program expand to (R206, R207). -/

namespace Sys2Proof.Machine

/-! ## WAIT -/

/-- One pass of the polling loop: STATUS is read, and the host stays in the loop while BUSY = 1 (R207;
log entry 23). -/
theorem hostWait_eq (e : HostEvent) (s : State) :
    hostWait e s = { s with inbox := if s.busy then e :: s.inbox else s.inbox, reply := .data s.statusWord } := by
  have hread : readReg .status s = { s with reply := .data s.statusWord } := readReg_value rfl
  unfold hostWait
  rw [hread]
  cases s.busy <;> rfl

/-- Settles O17: with no engine step after it a step of WAIT is one pass of the loop. -/
theorem waitPollsUntilIdle : Obligations.WaitPollsUntilIdle := by
  intro s rest hf hi
  have hstep : step s = .next { s with
      inbox := if s.busy then s.inbox else rest, lead := .steps 0, reply := .data s.statusWord } := by
    rw [step_host hf hi, hi]
    simp only [hostStep, hostWait_eq]
    rw [advance_zero rfl]
    rfl
  constructor <;> intro hb <;> rw [hstep, hb] <;> rfl

/-! ## Expansions -/

/-- The lines of a program expand one after the other. -/
theorem program_append (lead : Lead) (xs ys : List HostLine) :
    program lead (xs ++ ys) = program lead xs ++ program lead ys := by
  simp only [program, List.flatMap_append, List.map_append]

/-- Every register name that is well-formed stands at its offset (R50). -/
theorem regAt_offsetOf {r : RegName} {maxLine : Nat} (h : r.wellFormed maxLine = true) :
    regAt maxLine (offsetOf r) = some r := by
  cases r with
  | wstore k => exact regAt_wstore maxLine (of_decide_eq_true h)
  | map k => exact regAt_map (of_decide_eq_true h)
  | _ => rfl

/-- The steps of MEM: each byte is stored at `a` plus its number in the line (R206). -/
theorem map_storesFrom {α : Type} (f : HostOp → α) (a : Nat) (bytes : List Byte) :
    (storesFrom a bytes).map f = bytes.mapIdx (fun k b => f (.memWrite (a + k) b)) := by
  induction bytes generalizing a with
  | nil => rfl
  | cons b bs ih =>
    rw [storesFrom, List.map_cons, ih, List.mapIdx_cons]
    simp only [Nat.add_zero, Nat.add_assoc, Nat.add_comm 1]

/-- Settles O18: each line's expansion, with the words of the commands it writes. -/
theorem hostProgramsExpand : Obligations.HostProgramsExpand := by
  intro lead
  refine ⟨program_append lead, fun r v => ⟨rfl, rfl⟩, fun r maxLine _ hr => regAt_offsetOf hr,
    fun i => ⟨encode i, (mem_opcodeMap_iff _ i).2 rfl, rfl⟩, rfl, rfl, fun a bytes => ?mem,
    fun _ _ _ _ _ _ => rfl, fun _ _ _ _ _ _ => rfl, fun _ _ _ _ _ _ => rfl, fun _ _ _ _ _ => rfl⟩
  case mem =>
    rw [program, List.flatMap_singleton, expand, opsMem, map_storesFrom]

end Sys2Proof.Machine
end

