-- ==== Sys2Proof/Proofs/LineEngine.lean ====
section
/-! PROOF. The line commands from any state in which they run: MAPGEN (R252), WINIT (R255, R256), SLIDE beside its pseudocode
(R259, R260, R264), and the line theorem (R262, R263). What holds of both variants is proved once, over the variant. -/

namespace Sys2Proof.Machine

/-- A line command that runs completes with what its steps leave, if they keep to its footprint. -/
theorem Runs.exec_line {i : Instr} {s : State} {ops : List MicroOp} {d : Work} (hr : Runs i s) (hn : i ≠ .nop)
    (hl : isImage i = false) (hp : (planOf i s.ops s.win s.plat).prog = [[ops]])
    (hrun : Work.Runs s.ops (· ∈ (s.footprint i).reads) (· ∈ (s.footprint i).writes) (lineWork s) ops d) :
    ∃ t, exec i s = .next t ∧ Completed (encode i) (s.footprint i).writes s t ∧ t.mem = d.mem
      ∧ t.win = ⟨d.vars.regs, d.vars.map⟩ ∧ t.draws = s.draws ∧ t.order = s.order := by
  obtain ⟨hu, hc, hclear, hans⟩ := hr
  exact Machine.exec_line hn hl hu hc hclear hp hrun fun a ha => hans a (List.mem_append.2 ha)

/-! ## MAPGEN -/

/-- Settles O30: the steps of MAPGEN set the entries of MAP below L and touch nothing else. -/
theorem mapgenWritesClampedOffsets : Obligations.MapgenWritesClampedOffsets := by
  intro s hr
  obtain ⟨m, hrun, hm⟩ := runs_mapSteps s.ops (· ∈ (s.footprint .mapgen).reads) (· ∈ (s.footprint .mapgen).writes)
    s.ops.lineL s.ops.stride s.ops.r (lineWork s)
  obtain ⟨t, hexec, hcomp, hmem, hwin, hdraws, horder⟩ := hr.exec_line nofun rfl rfl hrun
  have hmap : t.win.map = m := by rw [hwin]
  refine ⟨t, hexec, hcomp, fun j hj => ?below, fun j hj => ?above, ?frame⟩
  case below => rw [hmap]; exact (hm j).trans (if_pos hj)
  case above => rw [hmap]; exact (hm j).trans (if_neg (Nat.not_lt.2 hj))
  case frame =>
    have hmem : t.mem = s.mem := hmem
    have hregs : t.win = { s.win with map := t.win.map } := by rw [hwin]; rfl
    rw [← hregs, ← hmem, ← hdraws, ← horder]

/-! ## WINIT -/

/-- WINIT of a variant. -/
def winitOf : Variant → Instr
  | .T => .winitT
  | .U => .winitU

/-- WINIT completes with the window opened on its line (R255, R256). -/
theorem exec_winit (var : Variant) {s : State} (hr : Runs (winitOf var) s) :
    let r := s.ops.radius.toNat
    let p := lineSample s.mem s.ops.srcAddr.toNat s.ops.lineStride.toNat s.ops.lineLen.toNat
    ∃ t, exec (winitOf var) s = .next t ∧ Completed (encode (winitOf var)) [] s t
      ∧ (∀ j < 2 * r + 1, (t.win.wstore.get j).toNat = p ((j : Int) - r))
      ∧ (∀ j, 2 * r + 1 ≤ j → t.win.wstore.get j = s.win.wstore.get j)
      ∧ t.win.wsum.toNat = kernelSum var r p 0 ∧ t.win.insum.toNat = rightSum r p 0
      ∧ t.win.outsum.toNat = leftSum r p 0
      ∧ t.win.sp.toNat = r ∧ t.win.pos = 0 ∧ t.win.map = s.win.map ∧ t.mem = s.mem ∧ t.draws = s.draws
      ∧ t.order = s.order := by
  intro r p
  have hfoot : s.footprint (winitOf var) = ⟨lineAddrs s.ops.src s.ops.lineL s.ops.stride, []⟩ := by cases var <;> rfl
  have hL : 0 < s.ops.lineL := (line_dims hr.2.1 (by cases var <;> decide)).1
  obtain ⟨l, w, hrun, hslots, habove, hwsum, hinsum, houtsum, hsp, hpos⟩ := runs_winitSteps s.ops
    (· ∈ (s.footprint (winitOf var)).reads) (· ∈ (s.footprint (winitOf var)).writes) var s.ops.src s.ops.lineL
    s.ops.stride s.ops.r s.ops.radius.isLt hL (lineWork s) Latch.empty_fresh
    (fun j hj => hfoot ▸ mem_lineAddrs.2 ⟨j, hj, rfl⟩)
  obtain ⟨t, hexec, hcomp, hmem, hwin, hdraws, horder⟩ :=
    hr.exec_line (by cases var <;> nofun) (by cases var <;> rfl) (by cases var <;> rfl) hrun
  have hmap : t.win.map = s.win.map := by rw [hwin]; rfl
  obtain rfl : t.win.toLineRegs = w := by rw [hwin]
  rw [hfoot] at hcomp
  exact ⟨t, hexec, hcomp, hslots, habove, hwsum, hinsum, houtsum, hsp, hpos, hmap, hmem, hdraws, horder⟩

/-- Settles O31: WINIT at the triangular weights. -/
theorem winitTriangular : Obligations.WinitTriangular := fun _ hr => exec_winit .T hr

/-- Settles O32: WINIT at the flat weights. -/
theorem winitUniform : Obligations.WinitUniform := fun _ hr => exec_winit .U hr

/-! ## SLIDE beside its pseudocode -/

/-- SLIDE of a variant. -/
def slideOf : Variant → Instr
  | .T => .slideT
  | .U => .slideU

/-- Where step `i` of the SLIDE that state `s` issues reads. -/
def State.slideRead (s : State) (var : Variant) (i : Nat) : Nat :=
  slideReads var s.ops.src s.ops.lineL s.ops.stride s.ops.r (fun j => (s.win.map.get j).toNat) i

/-- The pseudocode of SLIDE is a fold of the step that both variants share. -/
theorem slide_eq_foldl_stepAt (var : Variant) (s : State) (k : Nat) :
    LineRef.slide var s k = (List.range k).foldl
      (LineRef.stepAt var (s.slideRead var) s.ops.dst s.ops.stride s.ops.r) (LineRef.of s) := by
  cases var with
  | T => exact List.foldl_ext _ _ _ fun c i _ => stepT_eq_stepAt ..
  | U => exact List.foldl_ext _ _ _ fun c i _ => stepU_eq_stepAt ..

/-- SLIDE reads in its read footprint (R165). -/
theorem slideRead_mem_reads (var : Variant) (s : State) {i : Nat} (hi : i < s.ops.lineL) :
    s.slideRead var i ∈ (s.footprint (slideOf var)).reads := by
  cases var with
  | T => exact List.mem_map_of_mem (List.mem_range.2 hi)
  | U =>
    have hentering : min (i + s.ops.r + 1) (s.ops.lineL - 1) < s.ops.lineL := by omega
    exact mem_lineAddrs.2 ⟨_, hentering, rfl⟩

/-- SLIDE completes with the numbers of its pseudocode, from every starting state (R259, R260, R264). -/
theorem exec_slide (var : Variant) {s : State} (hr : Runs (slideOf var) s) :
    ∃ t, exec (slideOf var) s = .next t
      ∧ Completed (encode (slideOf var)) (lineAddrs s.ops.dst s.ops.lineL s.ops.stride) s t
      ∧ LineRef.of t = LineRef.slide var s s.ops.lineL ∧ t.win.map = s.win.map ∧ t.draws = s.draws
      ∧ t.order = s.order := by
  have hwrites : (s.footprint (slideOf var)).writes = lineAddrs s.ops.dst s.ops.lineL s.ops.stride := by
    cases var <;> rfl
  have hr256 : s.ops.r < 256 := s.ops.radius.isLt
  have hlen : s.ops.lineL < 65536 := s.ops.lineLen.isLt
  have hrun := runs_slideSteps s.ops (· ∈ (s.footprint (slideOf var)).reads) (· ∈ (s.footprint (slideOf var)).writes)
    var s.ops.src s.ops.dst s.ops.lineL s.ops.stride s.ops.r s.ops.lineL hr256 (by omega) (lineWork s)
    (fun j hj => hwrites ▸ mem_lineAddrs.2 ⟨j, hj, rfl⟩) (fun j hj => slideRead_mem_reads var s hj)
  obtain ⟨hnumbers, hmap⟩ := runOps_slideSteps s.ops var s.ops.src s.ops.dst s.ops.lineL s.ops.stride s.ops.r
    s.ops.lineL hr256 (by omega) (lineWork s)
  obtain ⟨t, hexec, hcomp, hmem, hwin, hdraws, horder⟩ :=
    hr.exec_line (by cases var <;> nofun) (by cases var <;> rfl) (by cases var <;> rfl) hrun
  have hof : LineRef.of t = LineRef.ofWork
      ((lineWork s).runOps s.ops (slideSteps var s.ops.src s.ops.dst s.ops.lineL s.ops.stride s.ops.r)) := by
    rw [of_eq_ofWork t Latch.fresh, hmem, hwin]
    rfl
  refine ⟨t, hexec, hwrites ▸ hcomp, ?_, by rw [hwin]; exact hmap, hdraws, horder⟩
  rw [hof, slide_eq_foldl_stepAt]
  exact hnumbers

/-- Settles O33: the run of SLIDE.T beside the fold of `LineRef.stepT`. -/
theorem slideTriangularIsItsPseudocode : Obligations.SlideTriangularIsItsPseudocode := fun _ hr => exec_slide .T hr

/-- Settles O34: the run of SLIDE.U beside the fold of `LineRef.stepU`. -/
theorem slideUniformIsItsPseudocode : Obligations.SlideUniformIsItsPseudocode := fun _ hr => exec_slide .U hr

/-! ## The line theorem (R262, R263) -/

/-- From the window state at centre 0, with step `i` reading line index `min(i + r + 1, L - 1)`, SLIDE writes the kernel of the
clamped samples, in place or to a disjoint line, where it leaves the window state at centre L as well. -/
theorem slide_line (var : Variant) {s : State} (hr : Runs (slideOf var) s) :
    let r := s.ops.radius.toNat
    let L := s.ops.lineLen.toNat
    let st := s.ops.lineStride.toNat
    let src := s.ops.srcAddr.toNat
    let dst := s.ops.dstAddr.toNat
    let p := lineSample s.mem src st L
    let apart := ∀ j < L, ∀ k < L, dst + j * st ≠ src + k * st
    WindowState var r p 0 s.win → (∀ i < L, s.slideRead var i = src + min (i + r + 1) (L - 1) * st) →
    dst = src ∨ apart →
    ∃ t, exec (slideOf var) s = .next t
      ∧ (∀ x < L, (t.mem.read (dst + x * st)).toNat = lineOut var r p x)
      ∧ (apart → WindowState var r p L t.win) := by
  intro r L st src dst p apart hwindow hreads hlines
  obtain ⟨hL, hst⟩ : 0 < L ∧ 0 < st := line_dims hr.2.1 (by cases var <;> decide)
  have hr256 : r < 256 := s.ops.radius.isLt
  have hp : ∀ k, p k < 256 := fun k => (s.mem.read _).isLt
  have hinj : ∀ base i j, base + i * st = base + j * st → i = j := fun base i j h =>
    Nat.eq_of_mul_eq_mul_right hst (Nat.add_left_cancel h)
  -- before any write, step `i` would read the clamped sample at `i + r + 1`
  have hsample : ∀ i < L, (LineRef.of s).mem (s.slideRead var i) = p ((i : Int) + r + 1) := by
    intro i hi
    rw [hreads i hi]
    simp only [p, lineSample, edge_entering L r i hL]
    rfl
  have hfresh : apart → ∀ i < L, ∀ j ≤ i, s.slideRead var i ≠ dst + j * st := by
    intro happart i hi j hj
    rw [hreads i hi]
    exact (happart j (by omega) _ (by omega)).symm
  -- in place, no step before the last reads a byte already written
  have hunwritten : ∀ i, i + 1 < L → ∀ j ≤ i, s.slideRead var i ≠ dst + j * st := by
    rcases hlines with hinplace | happart
    · intro i hi j hj he
      rw [hreads i (by omega), hinplace] at he
      have := hinj src _ _ he
      omega
    · exact fun i hi => hfresh happart i (by omega)
  obtain ⟨t, hexec, -, hnumbers, -⟩ := exec_slide var hr
  rw [slide_eq_foldl_stepAt] at hnumbers
  refine ⟨t, hexec, ?outputs, fun happart => ?window⟩
  case outputs =>
    have hout := line_outputs var (s.slideRead var) dst st r L hr256 p hp (LineRef.of s) hwindow
      (fun i _ j _ => hinj dst i j) (fun i hi => ⟨hsample i (by omega), hunwritten i hi⟩)
    exact fun x hx => (congrFun (congrArg LineRef.mem hnumbers) _).trans (hout.1 x hx)
  case window =>
    have hsteps := line_steps var (s.slideRead var) dst st r L hr256 p hp (LineRef.of s) hwindow
      (fun i _ j _ => hinj dst i j) L le_rfl (fun i hi => ⟨hsample i hi, hfresh happart i hi⟩)
    exact (windowState_iff var r p L t).2 (hnumbers ▸ hsteps.1)

/-- Settles O35: the mapping of R252 makes SLIDE.T read the entering sample. -/
theorem lineTheoremTriangular : Obligations.LineTheoremTriangular := fun s hr hwindow hmap =>
  slide_line .T hr hwindow fun i hi => congrArg (s.ops.src + ·) (hmap i hi)

/-- Settles O36: SLIDE.U computes the index of the entering sample itself. -/
theorem lineTheoremUniform : Obligations.LineTheoremUniform := fun _ hr hwindow => slide_line .U hr hwindow fun _ _ => rfl

end Sys2Proof.Machine
end

