-- ==== Sys2Proof/Proofs/ImageResults.lean ====
section
/-! SUPPORT. What each whole-image command leaves in memory when its phases run clean, whatever the choices of order are: the
results of BLUR (R303, R304), GREY (R352), DIFFTHR (R355) and UNSHARP (R358), stated by the operands and the memory of its
acceptance alone. -/

namespace Sys2Proof.Machine

/-- From every state whose checks the command passes and whose footprint answers, its phases lead to a memory with `P`, stated
by the operands and the memory of its acceptance. -/
def Leaves (i : Instr) (P : OperandRegs → Memory → Memory → Prop) : Prop :=
  ∀ s, expectedError i s.ops s.win s.plat = none → Answers (s.footprint i) s →
    Reaches (startOf i s) fun u => (startOf i s).At (flightOf i s) [] u ∧ P s.ops s.mem u.mem

/-- A whole-image command that runs completes with what its phases leave, and draws the window of R75. -/
theorem Leaves.completes {i : Instr} {P : OperandRegs → Memory → Memory → Prop} (h : Leaves i P) (hi : isImage i = true) {s : State}
    (hr : Runs i s) :
    ∃ t, exec i s = .next t ∧ Completed (encode i) (s.footprint i).writes s t
      ∧ t.win = (scrambleWindow s).win ∧ t.draws = (scrambleWindow s).draws ∧ P s.ops s.mem t.mem := by
  obtain ⟨hu, hc, hclear, hans⟩ := hr
  have hn : i ≠ .nop := by
    rintro rfl
    cases hi
  obtain ⟨t, u, hexec, hP, hend⟩ := exec_clean i s hn hu hc hclear (h s hc hans)
  obtain ⟨hwin, hdraws⟩ := hend.image hi
  exact ⟨t, hexec, hend.completed, hwin, hdraws, hend.mem ▸ hP⟩

/-! ## Disjoint buffers -/

/-- BLUR of a variant. -/
def blurOf : Variant → Instr
  | .T => .blurT
  | .U => .blurU

theorem isImage_blurOf (var : Variant) : isImage (blurOf var) = true := by cases var <;> rfl

theorem footprint_blurOf (var : Variant) (s : State) :
    s.footprint (blurOf var) = ⟨span s.ops.src s.ops.n ++ span s.ops.dst s.ops.n, span s.ops.dst s.ops.n⟩ := by
  cases var <;> rfl

section Apart

variable {o : OperandRegs} {w : Window} {p : Platform}

/-- The source image and the destination of a BLUR that passes its checks are disjoint (R300). -/
theorem blur_apart {var : Variant} (hc : expectedError (blurOf var) o w p = none) :
    ∀ q < o.n, ∀ q' < o.n, o.src + q ≠ o.dst + q' := by
  intro q hq q' hq'
  have hoverlap : ¬(o.src < o.dst + o.n ∧ o.dst < o.src + o.n) := by
    cases var <;> simp only [blurOf, expectedError, ite_eq_iff, reduceCtorEq, and_false, false_or, and_true] at hc <;>
      exact hc.2.2.2
  omega

/-- The RGBA image and the destination of a GREY that passes its checks are disjoint (R350). -/
theorem grey_apart (hc : expectedError .grey o w p = none) : ∀ a < 4 * o.n, ∀ q < o.n, o.src + a ≠ o.dst + q := by
  intro a ha q hq
  have hoverlap : ¬(o.src < o.dst + o.n ∧ o.dst < o.src + 4 * o.n) := by
    simp only [expectedError, ite_eq_iff, reduceCtorEq, and_false, false_or, and_true] at hc
    exact hc.2.2.2
  omega

/-- The RGBA image and WORK of a DIFFTHR or UNSHARP that passes its checks are disjoint (R350). -/
theorem work_apart {i : Instr} (hi : i = .diffthr ∨ i = .unsharp) (hc : expectedError i o w p = none) :
    ∀ a < 4 * o.n, ∀ q < 2 * o.n, o.src + a ≠ o.work + q := by
  intro a ha q hq
  have hoverlap : ¬(o.src < o.work + 2 * o.n ∧ o.work < o.src + 4 * o.n) := by
    rcases hi with rfl | rfl <;>
      simp only [expectedError, ite_eq_iff, reduceCtorEq, and_false, false_or, and_true] at hc <;> exact hc.2.2.2
  omega

end Apart

/-! ## BLUR -/

/-- Memory `m` after BLUR from `m₀`: the passes over the source image at DST, and every other byte as before (R303, R304). -/
structure BlurResult (var : Variant) (o : OperandRegs) (m₀ m : Memory) : Prop where
  image : ∀ q < o.n, imageAt m o.dst q
    = blurred var o.r o.width.toNat o.height.toNat (if o.r = 0 then 0 else o.steps.toNat) (imageAt m₀ o.src) q
  frame : Outside o.dst o.n m₀ m

theorem blur_leaves (var : Variant) : Leaves (blurOf var) (BlurResult var) := by
  intro s hc hans
  have himg := isImage_blurOf var
  have hsrc : ∀ q < s.ops.n, s.plat.memOk (s.ops.src + q) = true := fun q hq => hans _ (by
    rw [footprint_blurOf]
    exact List.mem_append_left _ (List.mem_append_left _ (mem_span.2 ⟨q, hq, rfl⟩)))
  have hdst : ∀ q < s.ops.n, s.plat.memOk (s.ops.dst + q) = true := fun q hq => hans _ (by
    rw [footprint_blurOf]
    exact List.mem_append_right _ (mem_span.2 ⟨q, hq, rfl⟩))
  refine (blur_run (f := flightOf (blurOf var) s) (ps := []) ⟨himg, rfl⟩ var s.ops.src s.ops.dst s.ops.width.toNat
    s.ops.height.toNat s.ops.r s.ops.steps.toNat (passOk_of_check hc himg _ s.ops.radius.isLt) s.win.toLineRegs
    (startOf (blurOf var) s) ?start (blur_apart hc) hsrc hdst).imp fun u ⟨hat, himage, hframe⟩ => ⟨hat, himage, hframe⟩
  rw [List.append_nil]
  cases var <;> rfl

/-! ## GREY -/

/-- Memory `m` after GREY from `m₀`: the luma image at DST, and every other byte as before (R352). -/
structure GreyResult (o : OperandRegs) (m₀ m : Memory) : Prop where
  image : ∀ q < o.n, imageAt m o.dst q = greyAt m₀ o.src q
  frame : Outside o.dst o.n m₀ m

theorem grey_leaves : Leaves .grey GreyResult := by
  intro s hc hans
  have hsrc : ∀ q < s.ops.n, ∀ c < 3, s.plat.memOk (s.ops.src + 4 * q + c) = true := fun q hq c hlt =>
    hans _ (List.mem_append_left _ (mem_colourAddrs.2 ⟨q, hq, c, hlt, rfl⟩))
  have hdst : ∀ q < s.ops.n, s.plat.memOk (s.ops.dst + q) = true := fun q hq =>
    hans _ (List.mem_append_right _ (mem_span.2 ⟨q, hq, rfl⟩))
  refine (grey_run (f := flightOf .grey s) (ps := []) ⟨rfl, rfl⟩ s.ops.src s.ops.dst s.ops.n s.win.toLineRegs
    (startOf .grey s) ?start (grey_apart hc) hsrc hdst).imp fun u ⟨hat, himage, hframe⟩ => ⟨hat, himage, hframe⟩
  rw [List.append_nil]
  rfl

/-! ## DIFFTHR -/

/-- Memory `m` holds the colour bytes of `m₀` corrected by the luma and blurred luma bytes of `m'` at WORK (R355). -/
def LanesCorrected (o : OperandRegs) (m₀ m' m : Memory) : Prop :=
  ∀ q < o.n, ∀ c < 3, m.read (o.src + 4 * q + c)
    = laneAfter o (m'.read (o.work + q)) (m'.read (o.work + o.n + q)) (m₀.read (o.src + 4 * q + c))

/-- Memory `m` after DIFFTHR from `m₀`: the corrected colour bytes, and every other byte as before (R355). -/
structure DiffthrResult (o : OperandRegs) (m₀ m : Memory) : Prop where
  lanes : LanesCorrected o m₀ m₀ m
  frame : ∀ a, (∀ q < o.n, ∀ c < 3, a ≠ o.src + 4 * q + c) → m.read a = m₀.read a

/-- The colour bytes of the pixels with `|diff| <= THRESHOLD` need not answer. -/
theorem diffthr_reaches {s : State} (hc : expectedError .diffthr s.ops s.win s.plat = none)
    (hwork : ∀ q < 2 * s.ops.n, s.plat.memOk (s.ops.work + q) = true)
    (hlanes : ∀ q < s.ops.n, exceeds (s.mem.read (s.ops.work + q)) (s.mem.read (s.ops.work + s.ops.n + q)) s.ops.threshold.toNat
      = true → ∀ c < 3, s.plat.memOk (s.ops.src + 4 * q + c) = true) :
    Reaches (startOf .diffthr s)
      fun u => (startOf .diffthr s).At (flightOf .diffthr s) [] u ∧ DiffthrResult s.ops s.mem u.mem := by
  refine (diffthr_run (f := flightOf .diffthr s) (ps := []) ⟨rfl, rfl⟩ s.ops.src s.ops.work s.ops.n s.win.toLineRegs
    (startOf .diffthr s) ?start (work_apart (.inl rfl) hc) hwork hlanes).imp fun u ⟨hat, hl, hframe⟩ => ⟨hat, hl, hframe⟩
  rw [List.append_nil]
  rfl

theorem diffthr_leaves : Leaves .diffthr DiffthrResult := fun _ hc hans =>
  diffthr_reaches hc (fun q hq => hans _ (List.mem_append_left _ (List.mem_append_left _ (mem_span.2 ⟨q, hq, rfl⟩))))
    fun q hq _ c hlt => hans _ (List.mem_append_right _ (mem_colourAddrs.2 ⟨q, hq, c, hlt, rfl⟩))

/-! ## UNSHARP -/

/-- Memory `m` after UNSHARP from `m₀`: the luma image at WORK, its blur behind it, the colour bytes corrected by the two, and
every other byte as before (R358). -/
structure UnsharpResult (o : OperandRegs) (m₀ m : Memory) : Prop where
  luma : ∀ q < o.n, imageAt m o.work q = greyAt m₀ o.src q
  blur : ∀ q < o.n, imageAt m (o.work + o.n) q = blurred .T 3 o.width.toNat o.height.toNat 3 (greyAt m₀ o.src) q
  lanes : LanesCorrected o m₀ m m
  frame : ∀ a, (∀ q < o.n, ∀ c < 3, a ≠ o.src + 4 * q + c) → (∀ q < 2 * o.n, a ≠ o.work + q) → m.read a = m₀.read a

/-- The results of UNSHARP's three phases, from `m₀` over `m₁` and `m₂` to `m`, add up to its own. -/
theorem unsharpResult_of_phases {o : OperandRegs} {m₀ m₁ m₂ m : Memory} (hw : 0 < o.width.toNat) (hh : 0 < o.height.toNat)
    (hapart : ∀ a < 4 * o.n, ∀ q < 2 * o.n, o.src + a ≠ o.work + q)
    (hgrey : ∀ q < o.n, imageAt m₁ o.work q = greyAt m₀ o.src q) (hgreyFrame : Outside o.work o.n m₀ m₁)
    (hblur : ∀ q < o.n, imageAt m₂ (o.work + o.n) q
      = blurred .T 3 o.width.toNat o.height.toNat 3 (imageAt m₁ o.work) q) (hblurFrame : Outside (o.work + o.n) o.n m₁ m₂)
    (hdiff : DiffthrResult o m₂ m) : UnsharpResult o m₀ m := by
  have hwork : ∀ q < 2 * o.n, m.read (o.work + q) = m₂.read (o.work + q) := fun q hq =>
    hdiff.frame _ fun q' hq' c hc he => hapart (4 * q' + c) (by omega) q hq (by omega)
  have hluma : ∀ q < o.n, m.read (o.work + q) = m₂.read (o.work + q) := fun q hq => hwork q (by omega)
  have hblurred : ∀ q < o.n, m.read (o.work + o.n + q) = m₂.read (o.work + o.n + q) := fun q hq => by
    rw [Nat.add_assoc]
    exact hwork _ (by omega)
  -- neither of the first two phases touches a byte outside WORK
  have hother : ∀ a, (∀ q < 2 * o.n, a ≠ o.work + q) → m₂.read a = m₀.read a := fun a ha => by
    refine (hblurFrame a fun q hq => ?_).trans (hgreyFrame a fun q hq => ha q (by omega))
    rw [Nat.add_assoc]
    exact ha _ (by omega)
  refine ⟨fun q hq => ?luma, fun q hq => ?blur, fun q hq c hc => ?lanes, fun a hsrc hnowork => ?frame⟩
  case luma =>
    have hm₁ : m₂.read (o.work + q) = m₁.read (o.work + q) := hblurFrame _ fun q' _ => by omega
    exact (congrArg BitVec.toNat ((hluma q hq).trans hm₁)).trans (hgrey q hq)
  case blur =>
    rw [← blurred_congr .T 3 _ _ 3 hw hh hgrey q hq, ← hblur q hq]
    exact congrArg BitVec.toNat (hblurred q hq)
  case lanes =>
    have hsrc : m₂.read (o.src + 4 * q + c) = m₀.read (o.src + 4 * q + c) := hother _ fun q' hq' => by
      rw [Nat.add_assoc]
      exact hapart _ (by omega) q' hq'
    rw [hdiff.lanes q hq c hc, hluma q hq, hblurred q hq, hsrc]
  case frame => exact (hdiff.frame a hsrc).trans (hother a hnowork)

theorem unsharp_leaves : Leaves .unsharp UnsharpResult := by
  intro s hc hans
  have hapart := work_apart (.inr rfl) hc
  obtain ⟨hw, hh⟩ := image_dims hc rfl
  have hsrc : ∀ q < s.ops.n, ∀ c < 3, s.plat.memOk (s.ops.src + 4 * q + c) = true := fun q hq c hlt =>
    hans _ (List.mem_append_left _ (List.mem_append_left _ (mem_colourAddrs.2 ⟨q, hq, c, hlt, rfl⟩)))
  have hwork : ∀ q < 2 * s.ops.n, s.plat.memOk (s.ops.work + q) = true := fun q hq =>
    hans _ (List.mem_append_right _ (List.mem_append_right _ (mem_span.2 ⟨q, hq, rfl⟩)))
  have hluma : ∀ q < s.ops.n, s.plat.memOk (s.ops.work + q) = true := fun q hq => hwork q (by omega)
  have hblurred : ∀ q < s.ops.n, s.plat.memOk (s.ops.work + s.ops.n + q) = true := fun q hq => by
    rw [Nat.add_assoc]
    exact hwork _ (by omega)
  have himg : Image (flightOf .unsharp s) := ⟨rfl, rfl⟩
  have hstart : (startOf .unsharp s).inflight = some { flightOf .unsharp s with
      todo := phasesOf s.win.toLineRegs [greyLines s.ops.src s.ops.work s.ops.n]
        ++ (phasesOf s.win.toLineRegs (blurPhases .T s.ops.work (s.ops.work + s.ops.n) s.ops.width.toNat s.ops.height.toNat 3 3)
        ++ (phasesOf s.win.toLineRegs [diffthrLines s.ops.src s.ops.work s.ops.n] ++ [])) } := by
    rw [List.append_nil, ← phasesOf_append, ← phasesOf_append]
    rfl
  refine (grey_run himg s.ops.src s.ops.work s.ops.n s.win.toLineRegs (startOf .unsharp s) hstart
    (fun a ha q hq => hapart a ha q (by omega)) hsrc hluma).trans ?_
  rintro t ⟨hatT, hgrey, hgreyFrame⟩
  have hworkDst : ∀ q < s.ops.n, ∀ q' < s.ops.n, s.ops.work + q ≠ s.ops.work + s.ops.n + q' := by omega
  refine (blur_run himg .T s.ops.work (s.ops.work + s.ops.n) s.ops.width.toNat s.ops.height.toNat 3 3
    (passOk_of_check hc rfl 3 (by decide)) s.win.toLineRegs t hatT.inflight hworkDst (hatT.plat ▸ hluma)
    (hatT.plat ▸ hblurred)).trans ?_
  rintro u ⟨hatU, hblur, hblurFrame⟩
  have hplat : u.plat = s.plat := hatU.plat.trans hatT.plat
  refine (diffthr_run himg s.ops.src s.ops.work s.ops.n s.win.toLineRegs u hatU.inflight hapart (hplat ▸ hwork)
    fun q hq _ => hplat ▸ hsrc q hq).imp ?_
  rintro v ⟨hatV, hlanes, hframe⟩
  exact ⟨(hatT.trans hatU).trans hatV,
    unsharpResult_of_phases hw hh hapart hgrey hgreyFrame hblur hblurFrame ⟨hlanes, hframe⟩⟩

end Sys2Proof.Machine
end

