-- ==== Sys2Proof/Proofs/Blur.lean ====
section
/-! PROOF. BLUR from any state in which it runs: the passes over the copy (R304), the copy alone (R303), the untouched source and
the flat image (R305). What holds of both variants is proved once, over the variant. -/

namespace Sys2Proof.Machine

theorem BlurResult.read_of_not_mem {var : Variant} {o : OperandRegs} {m₀ m : Memory} (h : BlurResult var o m₀ m) {a : Nat}
    (ha : a ∉ span o.dst o.n) : m.read a = m₀.read a :=
  h.frame a fun q hq he => ha (mem_span.2 ⟨q, hq, he.symm⟩)

/-- BLUR completes with its result in memory. -/
theorem exec_blur (var : Variant) {s : State} (hr : Runs (blurOf var) s) :
    ∃ t, exec (blurOf var) s = .next t ∧ Completed (encode (blurOf var)) (span s.ops.dst s.ops.n) s t
      ∧ BlurResult var s.ops s.mem t.mem := by
  obtain ⟨t, hexec, hcomp, -, -, hresult⟩ := (blur_leaves var).completes (isImage_blurOf var) hr
  rw [footprint_blurOf] at hcomp
  exact ⟨t, hexec, hcomp, hresult⟩

/-- With `r >= 1` the image at DST has gone through STEPS passes, and no other byte has changed (R304). -/
theorem blur_result (var : Variant) {s : State} (hr : Runs (blurOf var) s) :
    ∃ t, exec (blurOf var) s = .next t ∧ Completed (encode (blurOf var)) (span s.ops.dst s.ops.n) s t
      ∧ (1 ≤ s.ops.r → ∀ q < s.ops.n, imageAt t.mem s.ops.dst q
          = blurred var s.ops.r s.ops.width.toNat s.ops.height.toNat s.ops.steps.toNat (imageAt s.mem s.ops.src) q)
      ∧ ∀ a, a ∉ span s.ops.dst s.ops.n → t.mem.read a = s.mem.read a := by
  obtain ⟨t, hexec, hcomp, hresult⟩ := exec_blur var hr
  refine ⟨t, hexec, hcomp, fun hradius q hq => ?_, fun a => hresult.read_of_not_mem⟩
  rw [hresult.image q hq, if_neg (Nat.one_le_iff_ne_zero.1 hradius)]

/-- Settles O37: BLUR at the triangular weights. -/
theorem blurTriangularResult : Obligations.BlurTriangularResult := fun _ hr => blur_result .T hr

/-- Settles O38: BLUR at the flat weights. -/
theorem blurUniformResult : Obligations.BlurUniformResult := fun _ hr => blur_result .U hr

/-- A claim about both BLURs is one over the variant. -/
theorem forall_blur {P : Instr → Prop} (h : ∀ var, P (blurOf var)) : ∀ i ∈ [Instr.blurT, .blurU], P i :=
  List.forall_mem_cons.2 ⟨h .T, List.forall_mem_singleton.2 (h .U)⟩

/-- Settles O39: no pass follows the copy, so DST holds the source image. -/
theorem degenerateBlurIsACopy : Obligations.DegenerateBlurIsACopy := by
  intro i s hi
  revert i
  refine forall_blur fun var hr hdegenerate => ?_
  obtain ⟨t, hexec, ⟨ht, -⟩, hresult⟩ := exec_blur var hr
  obtain ⟨⟨hidle, -⟩, -⟩ := hr
  have hpasses : (if s.ops.r = 0 then 0 else s.ops.steps.toNat) = 0 := by
    rcases hdegenerate with hradius | hsteps
    · exact if_pos (congrArg BitVec.toNat hradius)
    · simp [hsteps]
  refine ⟨t, hexec, by rw [ht], by rw [ht], ?idle, fun q hq => ?copy, fun a => hresult.read_of_not_mem⟩
  case idle =>
    rw [State.busy, ht, hidle]
    rfl
  case copy =>
    have himage := hresult.image q hq
    rw [hpasses] at himage
    exact BitVec.eq_of_toNat_eq himage

/-- Settles O40: the source lies outside DST, and passes over a flat image leave it flat. -/
theorem blurKeepsSourceAndFlatFields : Obligations.BlurKeepsSourceAndFlatFields := by
  intro i s hi
  revert i
  refine forall_blur fun var hr => ?_
  obtain ⟨t, hexec, -, hresult⟩ := exec_blur var hr
  obtain ⟨-, hc, -⟩ := hr
  obtain ⟨hw, hh⟩ := image_dims hc (isImage_blurOf var)
  refine ⟨t, hexec, fun q hq => hresult.frame _ fun q' => blur_apart hc q hq q', fun c hflat q hq => ?_⟩
  have hsource : ∀ q < s.ops.n, imageAt s.mem s.ops.src q = c.toNat := fun q hq => congrArg BitVec.toNat (hflat q hq)
  exact BitVec.eq_of_toNat_eq ((hresult.image q hq).trans (blurred_const var _ _ _ _ _ _ hw hh hsource q hq))

end Sys2Proof.Machine
end

