-- ==== Sys2Proof/Proofs/ImageOrder.lean ====
section
/-! PROOF. The result of a whole-image command determines every byte of memory, so the choices of order do not show in the state
it ends in (R444, R156 b, R304). -/

namespace Sys2Proof.Machine

/-- A result determines every byte of memory. -/
def Determines (P : OperandRegs → Memory → Memory → Prop) : Prop :=
  ∀ o m₀ m₁ m₂, P o m₀ m₁ → P o m₀ m₂ → ∀ a, m₁.read a = m₂.read a

/-- Two memories that hold the same image at `base` and are otherwise as `m₀` have the same bytes. -/
theorem read_eq_of_image {base n : Nat} {m₀ m₁ m₂ : Memory} (himage : ∀ q < n, imageAt m₁ base q = imageAt m₂ base q)
    (h₁ : Outside base n m₀ m₁) (h₂ : Outside base n m₀ m₂) (a : Nat) : m₁.read a = m₂.read a := by
  by_cases ha : ∃ q < n, a = base + q
  · obtain ⟨q, hq, rfl⟩ := ha
    exact BitVec.eq_of_toNat_eq (himage q hq)
  · push Not at ha
    rw [h₁ a ha, h₂ a ha]

theorem blurResult_determines (var : Variant) : Determines (BlurResult var) := fun _ _ _ _ h₁ h₂ =>
  read_eq_of_image (fun q hq => (h₁.image q hq).trans (h₂.image q hq).symm) h₁.frame h₂.frame

theorem greyResult_determines : Determines GreyResult := fun _ _ _ _ h₁ h₂ =>
  read_eq_of_image (fun q hq => (h₁.image q hq).trans (h₂.image q hq).symm) h₁.frame h₂.frame

theorem diffthrResult_determines : Determines DiffthrResult := by
  intro o m₀ m₁ m₂ h₁ h₂ a
  by_cases ha : ∃ q < o.n, ∃ c < 3, a = o.src + 4 * q + c
  · obtain ⟨q, hq, c, hc, rfl⟩ := ha
    rw [h₁.lanes q hq c hc, h₂.lanes q hq c hc]
  · push Not at ha
    rw [h₁.frame a ha, h₂.frame a ha]

theorem unsharpResult_determines : Determines UnsharpResult := by
  intro o m₀ m₁ m₂ h₁ h₂ a
  have hluma : ∀ q < o.n, m₁.read (o.work + q) = m₂.read (o.work + q) := fun q hq =>
    BitVec.eq_of_toNat_eq ((h₁.luma q hq).trans (h₂.luma q hq).symm)
  have hblur : ∀ q < o.n, m₁.read (o.work + o.n + q) = m₂.read (o.work + o.n + q) := fun q hq =>
    BitVec.eq_of_toNat_eq ((h₁.blur q hq).trans (h₂.blur q hq).symm)
  by_cases hlane : ∃ q < o.n, ∃ c < 3, a = o.src + 4 * q + c
  · obtain ⟨q, hq, c, hc, rfl⟩ := hlane
    rw [h₁.lanes q hq c hc, h₂.lanes q hq c hc, hluma q hq, hblur q hq]
  by_cases hwork : ∃ q < 2 * o.n, a = o.work + q
  · obtain ⟨q, hq, rfl⟩ := hwork
    rcases Nat.lt_or_ge q o.n with hlt | hge
    · exact hluma q hlt
    · obtain ⟨q', rfl⟩ := Nat.exists_eq_add_of_le hge
      rw [← Nat.add_assoc]
      exact hblur q' (by omega)
  · push Not at hlane hwork
    rw [h₁.frame a hlane hwork, h₂.frame a hlane hwork]

/-- If the phases of a whole-image command leave a result that determines memory, two runs with other choices of order differ in
the choices left over alone (R444; log entries 5, 6). -/
theorem Leaves.order_hidden {i : Instr} {P : OperandRegs → Memory → Memory → Prop} (h : Leaves i P) (hP : Determines P)
    (hi : isImage i = true) {s : State} (hr : Runs i s) (order : List Nat) :
    ∃ t u, exec i s = .next t ∧ exec i { s with order := order } = .next u
      ∧ (∀ a, u.mem.read a = t.mem.read a) ∧ u = { t with mem := u.mem, order := u.order } := by
  obtain ⟨t, ht, ⟨htEq, -⟩, htWin, htDraws, htMem⟩ := h.completes hi hr
  obtain ⟨u, hu, ⟨huEq, -⟩, huWin, huDraws, huMem⟩ := h.completes (s := { s with order := order }) hi hr
  have hwin : u.win = t.win := huWin.trans htWin.symm
  have hdraws : u.draws = t.draws := huDraws.trans htDraws.symm
  refine ⟨t, u, ht, hu, hP _ _ _ _ huMem htMem, ?_⟩
  rw [hwin, hdraws] at huEq
  rw [htEq]
  exact huEq

/-- Settles O50: each command leaves a result stated by the operands and the memory of its acceptance alone. -/
theorem orderOfLinesDoesNotShow : Obligations.OrderOfLinesDoesNotShow := by
  intro i s order hi hr
  simp only [List.mem_cons, List.not_mem_nil, or_false] at hi
  rcases hi with rfl | rfl | rfl | rfl | rfl
  · exact (blur_leaves .T).order_hidden (blurResult_determines .T) rfl hr order
  · exact (blur_leaves .U).order_hidden (blurResult_determines .U) rfl hr order
  · exact grey_leaves.order_hidden greyResult_determines rfl hr order
  · exact diffthr_leaves.order_hidden diffthrResult_determines rfl hr order
  · exact unsharp_leaves.order_hidden unsharpResult_determines rfl hr order

end Sys2Proof.Machine
end

