-- ==== Sys2Proof/Proofs/Unsharp.lean ====
section
/-! PROOF. GREY (R352), DIFFTHR (R353 to R355) and UNSHARP (R358, R359) from any state in which they run, and the alpha bytes of
the image, which none of the three writes (R351). -/

namespace Sys2Proof.Machine

/-! ## Bytes outside a footprint -/

theorem ne_of_not_mem_span {base n a : Nat} (h : a ∉ span base n) : ∀ q < n, a ≠ base + q :=
  fun q hq he => h (mem_span.2 ⟨q, hq, he.symm⟩)

theorem ne_of_not_mem_colourAddrs {base n a : Nat} (h : a ∉ colourAddrs base n) :
    ∀ q < n, ∀ c < 3, a ≠ base + 4 * q + c :=
  fun q hq c hc he => h (mem_colourAddrs.2 ⟨q, hq, c, hc, he.symm⟩)

/-- An alpha byte is no colour byte (R165). -/
theorem alpha_not_mem_colourAddrs (base n q : Nat) : base + 4 * q + 3 ∉ colourAddrs base n := by
  intro h
  obtain ⟨q', -, c, hc, he⟩ := mem_colourAddrs.1 h
  omega

/-- The write footprint of a GREY, DIFFTHR or UNSHARP that passes its checks has no alpha byte of the image (R351). -/
theorem alpha_not_mem_writes {i : Instr} {s : State} {q : Nat} (hi : i ∈ [Instr.grey, .diffthr, .unsharp])
    (hc : expectedError i s.ops s.win s.plat = none) (hq : q < s.ops.n) :
    s.ops.src + 4 * q + 3 ∉ (s.footprint i).writes := by
  simp only [List.mem_cons, List.not_mem_nil, or_false] at hi
  have halpha := alpha_not_mem_colourAddrs s.ops.src s.ops.n q
  rcases hi with rfl | rfl | rfl
  · intro h
    obtain ⟨q', hq', he⟩ := mem_span.1 h
    exact grey_apart hc (4 * q + 3) (by omega) q' hq' he.symm
  · exact halpha
  · intro h
    rcases List.mem_append.1 h with h | h
    · exact halpha h
    · obtain ⟨q', hq', he⟩ := mem_span.1 h
      exact work_apart (.inr rfl) hc (4 * q + 3) (by omega) q' hq' he.symm

/-- Settles O29: a precise error writes no memory, and an accepted command keeps to its write footprint. -/
theorem alphaBytesKeepTheirValues : Obligations.AlphaBytesKeepTheirValues := by
  intro i s t q hi hidle h hq
  have hn : i ≠ .nop := by
    rintro rfl
    exact absurd hi (by decide)
  rcases exec_idle hidle hn h with ⟨e, -, rfl⟩ | ⟨hc, -⟩
  · rfl
  · exact onlyTheWriteFootprintChanges i s t hidle h _ (alpha_not_mem_writes hi hc hq)

/-! ## GREY -/

/-- Settles O41: the luma image, and nothing outside it. -/
theorem greyWritesLuma : Obligations.GreyWritesLuma := by
  intro s hr
  obtain ⟨t, hexec, hcomp, -, -, hresult⟩ := grey_leaves.completes rfl hr
  exact ⟨t, hexec, hcomp, hresult.image, fun a ha => hresult.frame a (ne_of_not_mem_span ha)⟩

/-! ## DIFFTHR -/

/-- A lane takes the correction by the samples of the two images at WORK (R353 to R355). -/
theorem LanesCorrected.toNat_read {o : OperandRegs} {m₀ m' m : Memory} (h : LanesCorrected o m₀ m' m) {q c : Nat}
    (hq : q < o.n) (hc : c < 3) :
    ((m.read (o.src + 4 * q + c)).toNat : Int)
      = corrected o.amount.toNat o.threshold.toNat (imageAt m' o.work q) (imageAt m' (o.work + o.n) q)
          (m₀.read (o.src + 4 * q + c)).toNat := by
  rw [h q hq c hc]
  exact laneAfter_corrected ..

/-- Settles O42: the phase reaches its end although only the bytes it accesses answer. -/
theorem diffthrCorrectsColourLanes : Obligations.DiffthrCorrectsColourLanes := by
  intro s hu hc hclear n src work hwork hlanes
  have hreach := diffthr_reaches hc (fun q hq => hwork _ (mem_span.2 ⟨q, hq, rfl⟩))
    fun q hq hex c hlt => hlanes q hq c hlt (of_decide_eq_true hex)
  obtain ⟨t, u, hexec, hresult, hend⟩ := exec_clean .diffthr s nofun hu hc hclear hreach
  rw [← hend.mem] at hresult
  exact ⟨t, hexec, hend.completed, fun q hq c hlt => hresult.lanes.toNat_read hq hlt,
    fun a ha => hresult.frame a (ne_of_not_mem_colourAddrs ha)⟩

/-! ## UNSHARP -/

/-- UNSHARP completes with its result in memory. -/
theorem exec_unsharp {s : State} (hr : Runs .unsharp s) :
    ∃ t, exec .unsharp s = .next t
      ∧ Completed (encode .unsharp) (colourAddrs s.ops.src s.ops.n ++ span s.ops.work (2 * s.ops.n)) s t
      ∧ UnsharpResult s.ops s.mem t.mem := by
  obtain ⟨t, hexec, hcomp, -, -, hresult⟩ := unsharp_leaves.completes rfl hr
  exact ⟨t, hexec, hcomp, hresult⟩

/-- Settles O43: the lanes are corrected by the images that UNSHARP itself leaves at WORK. -/
theorem unsharpResult : Obligations.UnsharpResult := by
  intro s hr
  obtain ⟨t, hexec, hcomp, hresult⟩ := exec_unsharp hr
  refine ⟨t, hexec, hcomp, fun q hq => ⟨hresult.luma q hq, hresult.blur q hq⟩, fun q hq c hc => ?lanes, fun a ha => ?frame⟩
  case lanes =>
    have hlane := hresult.lanes.toNat_read hq hc
    rw [hresult.luma q hq, hresult.blur q hq] at hlane
    exact hlane
  case frame =>
    rw [List.mem_append, not_or] at ha
    exact hresult.frame a (ne_of_not_mem_colourAddrs ha.1) (ne_of_not_mem_span ha.2)

/-- A pixel whose luma equals its blurred luma is not corrected, whatever AMOUNT and THRESHOLD are (R355). -/
theorem laneAfter_self (o : OperandRegs) (g v : Byte) : laneAfter o g g v = v := by
  simp [laneAfter, exceeds, lumaDiff]

/-- The pixels of a flat image have one luma. -/
theorem greyAt_flat {m : Memory} {src n : Nat}
    (hflat : ∀ q < n, ∀ c < 3, m.read (src + 4 * q + c) = m.read (src + c)) :
    ∀ q < n, greyAt m src q = greyAt m src 0 := by
  intro q hq
  have hred := hflat q hq 0 (by decide)
  have hgreen := hflat q hq 1 (by decide)
  have hblue := hflat q hq 2 (by decide)
  simp only [Nat.add_zero] at hred
  simp only [greyAt, hred, hgreen, hblue, Nat.mul_zero, Nat.add_zero]

/-- After UNSHARP the luma of a flat image and its blur are the same at every pixel (R305 e). -/
theorem UnsharpResult.luma_eq_blur {o : OperandRegs} {m₀ m : Memory} (h : UnsharpResult o m₀ m) (hw : 0 < o.width.toNat)
    (hh : 0 < o.height.toNat) (hflat : ∀ q < o.n, ∀ c < 3, m₀.read (o.src + 4 * q + c) = m₀.read (o.src + c)) :
    ∀ q < o.n, m.read (o.work + q) = m.read (o.work + o.n + q) := by
  intro q hq
  have hgrey := greyAt_flat hflat
  have hblur := (h.blur q hq).trans (blurred_const .T 3 _ _ 3 _ _ hw hh hgrey q hq)
  exact BitVec.eq_of_toNat_eq (((h.luma q hq).trans (hgrey q hq)).trans hblur.symm)

/-- Settles O45: in a flat image no pixel differs from its blur, and an alpha byte is never written. -/
theorem unsharpLeavesFlatImages : Obligations.UnsharpLeavesFlatImages := by
  intro s hr n src hflat
  obtain ⟨t, hexec, -, hresult⟩ := exec_unsharp hr
  obtain ⟨⟨hidle, -⟩, hc, -⟩ := hr
  obtain ⟨hw, hh⟩ := image_dims hc rfl
  refine ⟨t, hexec, fun a ha => ?_⟩
  obtain ⟨q, c, hc4, rfl⟩ : ∃ q c, c < 4 ∧ a = 4 * q + c := ⟨a / 4, a % 4, by omega, by omega⟩
  have hq : q < n := by omega
  rw [← Nat.add_assoc]
  rcases Nat.lt_or_ge c 3 with hlt | hge
  · have hlane := hresult.lanes q hq c hlt
    rw [← hresult.luma_eq_blur hw hh hflat q hq, laneAfter_self] at hlane
    exact hlane
  · obtain rfl : c = 3 := by omega
    exact alphaBytesKeepTheirValues .unsharp s t q (by decide) hidle hexec hq

end Sys2Proof.Machine
end

