-- ==== Sys2Proof/Proofs/UnsharpOperands.lean ====
section
/-! PROOF. UNSHARP does not look at RADIUS and STEPS (R356): other values there are a change its plan and the engine do not
see. -/

namespace Sys2Proof.Machine

/-- Operands with other values in RADIUS and STEPS. -/
def OperandRegs.withBlur (radius steps : BitVec 8) (o : OperandRegs) : OperandRegs :=
  { o with radius := radius, steps := steps }

/-- Other values in RADIUS and STEPS, in the registers and in the snapshot of the command in flight. -/
def Unseen.blurOperands (radius steps : BitVec 8) : Unseen :=
  { Unseen.id with ops := OperandRegs.withBlur radius steps, snap := OperandRegs.withBlur radius steps }

theorem Unseen.ok_blurOperands (radius steps : BitVec 8) : (Unseen.blurOperands radius steps).Ok :=
  ⟨fun _ => rfl, fun _ _ => rfl, fun _ => rfl, fun _ => rfl⟩

theorem Unseen.remaining (g : Unseen) (s : State) : (g.apply s).remaining = s.remaining := by
  unfold State.remaining
  rw [show (g.apply s).inflight = s.inflight.map g.flight from rfl]
  cases s.inflight <;> rfl

/-- A change the engine does not see, which keeps the lead, commutes with the engine's steps up to the next host step. -/
theorem Unseen.advance {g : Unseen} (hg : g.Ok) {s : State} (hl : g.lead s.lead = s.lead) :
    advance (g.apply s) = g.apply (Machine.advance s) := by
  unfold Machine.advance
  rw [show (g.apply s).lead = s.lead from hl, g.remaining]
  cases s.lead <;> exact Unseen.engineRun hg _ s

/-- The end of an undisturbed command leaves the engine idle (R401). -/
theorem exec_leaves_idle {i : Instr} {s t : State} (hn : i ≠ .nop) (hu : Undisturbed s) (h : exec i s = .next t) :
    t.inflight = none := by
  obtain ⟨hidle, hlead⟩ := hu
  rcases exec_idle hidle hn h with ⟨e, -, rfl⟩ | ⟨-, rfl⟩
  · rfl
  · have hend := engineRun_ends _ (start i (planOf i s.ops s.win s.plat) (accept (encode i) s)) le_rfl
    rw [advance_eq (s := start i _ (accept (encode i) s)) hlead hend]
    exact hend

section BlurOperands

variable (radius steps : BitVec 8)

/-- The issue of a plan answers the same way with other values in RADIUS and STEPS. -/
theorem issue_blurOperands {i : Instr} {p : Plan} {s t : State} (h : issue i p s = .next t) :
    issue i p ((Unseen.blurOperands radius steps).apply s) = .next ((Unseen.blurOperands radius steps).apply t) := by
  let g := Unseen.blurOperands radius steps
  have hadv : ∀ u, advance (g.apply u) = g.apply (advance u) :=
    fun u => Unseen.advance (Unseen.ok_blurOperands radius steps) rfl
  have hbusy : (g.apply s).busy = s.busy := Option.isSome_map
  have hplat : (g.apply s).plat = s.plat := rfl
  change issue i p (g.apply s) = .next (g.apply t)
  unfold issue at h ⊢
  rw [hbusy, hplat]
  by_cases hb : s.busy = true
  · rw [if_pos hb] at h ⊢
    cases h
    exact congrArg Host.Outcome.next (hadv (lostIssue s))
  rw [if_neg hb] at h ⊢
  cases hc : p.check with
  | some e =>
    simp only [hc] at h ⊢
    cases h
    rfl
  | none =>
    simp only [hc] at h ⊢
    split at h
    · cases h
    · next hwin =>
      split at h
      · cases h
      · next hdev =>
        cases h
        rw [if_neg hwin, if_neg hdev]
        exact congrArg Host.Outcome.next (hadv (start i p (accept (encode i) s)))

/-- UNSHARP's plan uses neither (R356). -/
theorem planUnsharp_withBlur (o : OperandRegs) (w : Window) (p : Platform) :
    planUnsharp (o.withBlur radius steps) w p = planUnsharp o w p := rfl

theorem exec_unsharp_blurOperands {s t : State} (h : exec .unsharp s = .next t) :
    exec .unsharp ((Unseen.blurOperands radius steps).apply s) = .next ((Unseen.blurOperands radius steps).apply t) := by
  change issue .unsharp (planUnsharp (s.ops.withBlur radius steps) s.win s.plat) _ = _
  rw [planUnsharp_withBlur]
  exact issue_blurOperands radius steps h

end BlurOperands

/-- Settles O44: UNSHARP's plan uses neither register, and no engine step looks at them in the snapshot. -/
theorem unsharpIgnoresRadiusAndSteps : Obligations.UnsharpIgnoresRadiusAndSteps := by
  intro s t radius steps hidle hlead h
  have hdone : t.inflight = none := exec_leaves_idle (i := .unsharp) nofun ⟨hidle, hlead⟩ h
  have hexec := exec_unsharp_blurOperands radius steps h
  rw [Unseen.apply_idle _ hidle, Unseen.apply_idle _ hdone] at hexec
  exact hexec

end Sys2Proof.Machine
end

