-- ==== Sys2Proof/Proofs/HostSteps.lean ====
section
/-! PROOF. What one host step does: it issues the word written to CMD, reads a register, or is a bad access; with none pending
the engine takes a step of its own (R153, R159, R400, R405, R407, R409, R446). -/

namespace Sys2Proof.Machine

/-! ## Steps and the words written to CMD -/

/-- The CMD write of a word by a host that is not faulted issues the word. -/
theorem step_cmd {s : State} {lead : Lead} {rest : List HostEvent} {w : Word} (hf : s.hostFault = false)
    (hi : s.inbox = ⟨.regWrite 0x14 .word w, lead⟩ :: rest) :
    step s = issueWord w { s with inbox := rest, lead := lead, reply := .ack } := by
  rw [step_host hf hi, hostStep_cmd]

/-- A command's word is issued as the command. -/
theorem issueWord_command {w : Word} {i : Instr} (hd : decode w = some i) (s : State) : issueWord w s = exec i s := by
  unfold issueWord
  rw [hd]

/-- Settles O5: the write issues the word, which decodes to the command. -/
theorem stepRunsTheWrittenCommand : Obligations.StepRunsTheWrittenCommand := by
  intro s lead rest w i hf hi hd
  rw [step_cmd hf hi, issueWord_command hd]

/-- The table word of all 32 bits of a word is the word. -/
theorem tableWord_toNat (w : Word) : tableWord 32 w.toNat = w := by
  rw [tableWord, Nat.mod_eq_of_lt w.isLt, BitVec.ofNat_toNat, BitVec.setWidth_eq]

/-- Settles O6: the placed state has the CMD write of the command's word as its pending step. -/
theorem stepRunsThePlacedWord : Obligations.StepRunsThePlacedWord := by
  intro s i
  rw [State.withFetchWord, tableWord_toNat]
  exact stepRunsTheWrittenCommand (withCmdWrite (encode i) s) .untilDone [] (encode i) i rfl rfl (decode_encode i)

/-- Settles O7: an empty queue leaves the step to the engine, and an idle engine takes none. -/
theorem engineStepsAloneAndOnlyWhileBusy : Obligations.EngineStepsAloneAndOnlyWhileBusy := by
  refine ⟨fun s hi => ?_, fun s hb => engineStep_idle s ?_⟩
  · simp only [step, nextStep, hi]
  · simpa [State.busy] using hb

/-! ## Register reads -/

/-- Settles O9: at each offset stands a register that has a value now, but for POS while a whole-image command is in flight. -/
theorem registerReadsReturnValues : Obligations.RegisterReadsReturnValues := by
  intro s rest off hf hi
  simp only [BitVec.ofNat_toNat, BitVec.setWidth_eq]
  have read : ∀ r, AccessWidth.word.wellFormed off = true → regAt s.plat.maxLine off = some r →
      unspecifiedNow { s with inbox := rest, lead := .steps 0 } r = false →
      step s = .next { s with inbox := rest, lead := .steps 0, reply := .data (regValue s r) } :=
    fun _ ho hr hu => step_read_value hf hi ho hr hu
  refine ⟨?_, ?_, ?_, ?_, ?_, ?_, ?_, ?_, ?_, ?_, ?_, ?_, ?_, ?_, ?pos⟩
  case pos =>
    rintro rfl
    refine ⟨fun hidle => ?_, fun f hrun => ⟨fun hline => ?_, fun himage => ?_⟩⟩
    · exact read .pos (by decide) rfl (by simp only [unspecifiedNow, hidle])
    · have hkind : ∀ i ∈ [Instr.nop, .mapgen, .winitT, .winitU, .slideT, .slideU], isImage i = false := by decide
      exact read .pos (by decide) rfl (by simp only [unspecifiedNow, hrun, hkind f.cmd hline])
    · have hkind : ∀ i ∈ [Instr.blurT, .blurU, .grey, .diffthr, .unsharp], isImage i = true := by decide
      rw [step_read (r := .pos) hf hi (by decide) rfl,
        readReg_unspecified (by simp only [unspecifiedNow, hrun, hkind f.cmd himage])]
      rfl
  all_goals rintro rfl
  · exact read .cmd (by decide) rfl rfl
  · exact read .errAddr (by decide) rfl rfl
  · exact read .srcAddr (by decide) rfl rfl
  · exact read .dstAddr (by decide) rfl rfl
  · exact read .workAddr (by decide) rfl rfl
  · exact read .len (by decide) rfl rfl
  · exact read .width (by decide) rfl rfl
  · exact read .height (by decide) rfl rfl
  · exact read .radius (by decide) rfl rfl
  · exact read .steps (by decide) rfl rfl
  · exact read .amount (by decide) rfl rfl
  · exact read .threshold (by decide) rfl rfl
  · exact read .lineLen (by decide) rfl rfl
  · exact read .lineStride (by decide) rfl rfl

/-! ## Bad register accesses -/

/-- A register transaction that is not well-formed is rejected, read or written (R407). -/
theorem hostStep_reject {off : Nat} {w : AccessWidth} (hw : w.wellFormed off = false) (v : Word) (l : Lead) (s : State) :
    hostStep ⟨.regRead off w, l⟩ s = .next (advance (rejectAccess off { s with lead := l }))
    ∧ hostStep ⟨.regWrite off w v, l⟩ s = .next (advance (rejectAccess off { s with lead := l })) := by
  simp [hostStep, busRead, busWrite, hw]

/-- Settles O10: a transaction of a bad width or offset is rejected, and the steps of a faulted host let time pass. -/
theorem badRegisterAccessChangesNothing : Obligations.BadRegisterAccessChangesNothing := by
  refine ⟨fun s rest off w v hbad hf hi => ?_, fun s e rest hf hi hop => ?_⟩
  · have hw : w.wellFormed off = false := by
      rw [← Bool.not_eq_true, wellFormed_iff]
      rintro ⟨hword, halign, hin⟩
      rcases hbad with h | h | h
      · exact h hword
      · exact h halign
      · omega
    obtain ⟨hread, hwrite⟩ := hostStep_reject hw v (.steps 0) { s with inbox := rest }
    have hstep : step s = .next (advance (rejectAccess off { s with inbox := rest, lead := .steps 0 })) := by
      rcases hi with hi | hi
      · rw [step_host hf hi, hread]
      · rw [step_host hf hi, hwrite]
    rw [hstep, rejectAccess_eq, advance_zero rfl]
    simp only [hf, Bool.or_false]
  · rw [step_faulted hf hi, if_neg hop]

end Sys2Proof.Machine
end

