-- ==== Sys2Proof/Proofs/Reset.lean ====
section
/-! PROOF. Soft and hardware reset (R408, R480): the abandoned command's bytes and the RAMs are drawn, every register has its
reset value, and the rest stays. -/

namespace Sys2Proof.Machine

theorem abandon_draws_le (s : State) : s.draws ≤ (abandon s).draws := by
  unfold abandon
  split
  · exact le_rfl
  · next f _ => exact releaseUnspecified_draws_le f s

/-- Each byte of the abandoned command's write footprint holds a drawn value. -/
theorem abandon_drawn {s u : State} (hd : s.draws ≤ u.draws) {f : InFlight} (hf : u.inflight = some f) {a : Nat}
    (ha : a ∈ f.foot.writes) : Drawn s (abandon u) ((abandon u).mem.read a) := by
  simp only [abandon, hf]
  exact releaseUnspecified_drawn hd ha

/-- Every other byte keeps its value. -/
theorem abandon_read_of_not_mem {s : State} {a : Nat} (ha : ∀ f, s.inflight = some f → a ∉ f.foot.writes) :
    (abandon s).mem.read a = s.mem.read a := by
  unfold abandon
  split
  · rfl
  · next f hf => exact releaseUnspecified_read_of_not_mem f s a (ha f hf)

theorem resetEngine_draws (s : State) : (resetEngine s).draws = (abandon s).draws + 2 := rfl

/-- After a reset each RAM reads as the free contents of an epoch of its own. -/
theorem resetEngine_ramsDrawn {s u : State} (hd : s.draws ≤ u.draws) :
    DrawnRam s (resetEngine u) (resetEngine u).win.wstore ∧ DrawnRam s (resetEngine u) (resetEngine u).win.map := by
  have hle : s.draws ≤ (abandon u).draws := hd.trans (abandon_draws_le u)
  have hdraws := resetEngine_draws u
  exact ⟨⟨(abandon u).draws, hle, by omega, fun _ => rfl⟩, ⟨(abandon u).draws + 1, by omega, by omega, fun _ => rfl⟩⟩

/-- The reset input is not the host's: it acts whether the host is faulted or not (R480; log entry 8). -/
theorem step_resetPin {s : State} {rest : List HostEvent} {l : Lead} (hi : s.inbox = ⟨.resetPin, l⟩ :: rest) :
    step s = .next (advance (resetEngine { s with inbox := rest, lead := l, reply := .ack })) := by
  simp [step, nextStep, hi, stoppedEvent, hostStep]

/-- The reset input and the CTRL write with SRST = 1 are one reset (R53, R408, R480). -/
theorem step_reset {s : State} {rest : List HostEvent} {v : Word} {e : HostEvent}
    (he : e = ⟨.resetPin, .steps 0⟩
      ∨ (s.hostFault = false ∧ e = ⟨.regWrite 0x0C .word v, .steps 0⟩ ∧ v.getLsbD 31 = true))
    (hi : s.inbox = e :: rest) :
    step s = .next (resetEngine { s with inbox := rest, lead := .steps 0, reply := .ack }) := by
  rcases he with rfl | ⟨hf, rfl, hsrst⟩
  · have hlead (u : State) : (resetEngine u).lead = u.lead := by rw [resetEngine_frame]
    rw [step_resetPin hi, advance_zero (hlead _)]
  · rw [step_write (r := .ctrl) hf hi (by decide) rfl (by decide), writeReg, writeCtrl, if_pos hsrst]

/-- Settles O20: the step is one `resetEngine`, whose registers are written out, whose RAMs are drawn, and whose memory is that
of `abandon`. -/
theorem resetAbandonsAndRestores : Obligations.ResetAbandonsAndRestores := by
  intro s rest v e he hi
  refine ⟨_, step_reset he hi, ?_⟩
  generalize hu : ({ s with inbox := rest, lead := .steps 0, reply := .ack } : State) = u
  have hdraws : s.draws ≤ u.draws := by rw [← hu]
  have hmem : u.mem = s.mem := by rw [← hu]
  have hflight : u.inflight = s.inflight := by rw [← hu]
  obtain ⟨hwstore, hmap⟩ := resetEngine_ramsDrawn hdraws
  refine ⟨rfl, rfl, rfl, rfl, rfl, rfl, rfl, rfl, rfl, rfl, rfl, rfl, hwstore, hmap, fun f hf a ha => ?_, fun a ha => ?_,
    engineStep_idle _ rfl, ?_, ?_, ?_⟩
  · exact (abandon_drawn hdraws (hflight.trans hf) ha).mono (Nat.le_add_right _ 2)
  · rw [← hmem]
    exact abandon_read_of_not_mem (s := u) (by rwa [hflight])
  all_goals rw [resetEngine_frame, ← hu]

end Sys2Proof.Machine
end

