-- ==== Sys2Proof/Proofs/Interleaving.lean ====
section
/-! PROOF. How a command and the host's other steps interleave (R59, R400-R403, R409): a command is its issue and the engine's
steps up to the host's next one; every command left alone ends; and a pause, a lost issue and an operand write are changes the
engine does not see. -/

namespace Sys2Proof.Machine

/-! ## A command is its issue and a run of the engine -/

/-- The state right after the CMD write of a command, before any engine step: lost while BUSY, completed at once (NOP), failed
at its checks, or started (R400, R402, R403, R432). -/
def issued (i : Instr) (s : State) : State :=
  if s.busy then lostIssue s
  else if i = .nop then { accept (encode i) s with flags := s.flags.accepted.completed }
  else match expectedError i s.ops s.win s.plat with
    | some e => raiseError e 0 (accept (encode i) s)
    | none => start i (planOf i s.ops s.win s.plat) (accept (encode i) s)

theorem issued_of_passes {i : Instr} {s : State} (hn : i ≠ .nop) (hidle : s.inflight = none)
    (hc : expectedError i s.ops s.win s.plat = none) :
    issued i s = start i (planOf i s.ops s.win s.plat) (accept (encode i) s) := by
  simp [issued, State.busy, hidle, hn, hc]

/-- No engine step comes on an idle machine. -/
theorem advance_idle {s : State} (h : s.inflight = none) : advance s = s := by
  unfold advance
  split <;> exact engineRun_idle _ s h

/-- Whatever the command, a next state is reached from its issue by the engine's steps up to the host's next one. -/
theorem exec_eq_advance_issued {i : Instr} {s t : State} (h : exec i s = .next t) : t = advance (issued i s) := by
  unfold issued
  by_cases hb : s.busy = true
  · rw [exec_busy i hb] at h
    cases h
    rw [if_pos hb]
  have hidle : s.inflight = none := by simpa [State.busy] using hb
  rw [if_neg hb]
  by_cases hn : i = .nop
  · subst hn
    rw [exec_nop hidle] at h
    cases h
    rw [if_pos rfl]
    exact (advance_idle (by exact hidle)).symm
  rw [if_neg hn]
  rcases exec_idle hidle hn h with ⟨e, he, rfl⟩ | ⟨hc, rfl⟩
  · rw [he]
    exact (advance_idle rfl).symm
  · rw [hc]

/-- The issue of a command does not look at the lead. -/
theorem issued_withLead (i : Instr) (s : State) (l : Lead) : issued i { s with lead := l } = { issued i s with lead := l } := by
  unfold issued
  rw [show State.busy { s with lead := l } = s.busy from rfl]
  split
  · rfl
  · split
    · rfl
    · dsimp only
      cases expectedError i s.ops s.win s.plat <;> rfl

theorem issued_lead (i : Instr) (s : State) : (issued i s).lead = s.lead := by
  have h := congrArg State.lead (issued_withLead i s s.lead)
  exact h

/-! ## Every command left alone ends -/

theorem advance_ends {s : State} (hl : s.lead = .untilDone) : (advance s).inflight = none := by
  unfold advance
  rw [hl]
  exact engineRun_ends _ s le_rfl

/-- Settles O26: the run from the issue is as long as the command in flight can take. -/
theorem undisturbedCommandsEnd : Obligations.UndisturbedCommandsEnd := by
  intro i s t hl h
  rw [exec_eq_advance_issued h, State.busy, advance_ends ((issued_lead i s).trans hl)]
  rfl

/-! ## What the engine does not see -/

/-- A change outside the command in flight that the engine does not see commutes with every run of the engine. -/
theorem engineRun_unseen {g : Unseen} (hg : g.Ok) (hs : ∀ o, g.snap o = o) (n : Nat) (s : State) :
    engineRun n { s with flags := g.flags s.flags, ops := g.ops s.ops, lead := g.lead s.lead }
      = { engineRun n s with
          flags := g.flags (engineRun n s).flags
          ops := g.ops (engineRun n s).ops
          lead := g.lead (engineRun n s).lead } := by
  rw [← g.apply_keeps s hs, ← g.apply_keeps _ hs, Unseen.engineRun hg]

theorem engineRun_withLead (n : Nat) (s : State) (l : Lead) :
    engineRun n { s with lead := l } = { engineRun n s with lead := l } :=
  engineRun_unseen (g := { Unseen.id with lead := fun _ => l })
    ⟨fun _ => rfl, fun _ _ => rfl, fun _ => rfl, fun _ => rfl⟩ (fun _ => rfl) n s

theorem engineRun_lost (n : Nat) (s : State) :
    engineRun n { s with flags := { s.flags with lost := true } }
      = { engineRun n s with flags := { (engineRun n s).flags with lost := true } } :=
  engineRun_unseen (g := { Unseen.id with flags := fun f => { f with lost := true } })
    ⟨fun _ => rfl, fun _ _ => rfl, fun _ => rfl, fun _ => rfl⟩ (fun _ => rfl) n s

theorem engineRun_withOps (n : Nat) (s : State) (g : OperandRegs → OperandRegs) :
    engineRun n { s with ops := g s.ops } = { engineRun n s with ops := g (engineRun n s).ops } :=
  engineRun_unseen (g := { Unseen.id with ops := g })
    ⟨fun _ => rfl, fun _ _ => rfl, fun _ => rfl, fun _ => rfl⟩ (fun _ => rfl) n s

/-! ## Pauses -/

/-- A run cut after `n` steps and let on ends as the run that is not cut. -/
theorem engineRun_resume (n : Nat) (s : State) :
    engineRun (engineRun n s).remaining (engineRun n s) = engineRun s.remaining s := by
  have hend := engineRun_ends _ (engineRun n s) le_rfl
  rw [← engineRun_add] at hend ⊢
  exact engineRun_unique hend (engineRun_ends _ s le_rfl)

/-- Settles O51: both runs start from one issue and differ in the lead, which the engine does not see; where the first run was
cut does not matter to its end. -/
theorem hostPausesDoNotChangeACommand : Obligations.HostPausesDoNotChangeACommand := by
  intro i s n t u _ ht hu
  have hcut : t = { engineRun n (issued i s) with lead := .steps n } := by
    rw [exec_eq_advance_issued ht, issued_withLead, ← engineRun_withLead]
    rfl
  have hwhole : u = { engineRun (issued i s).remaining (issued i s) with lead := .untilDone } := by
    rw [exec_eq_advance_issued hu, issued_withLead, ← engineRun_withLead]
    rfl
  have hrem : t.remaining = (engineRun n (issued i s)).remaining := by
    rw [hcut]
    rfl
  rw [hrem, hcut, engineRun_withLead, engineRun_resume, hwhole]

/-! ## Lost issues -/

/-- A CMD write while BUSY = 1, with no engine step after it, sets LOST (R403). -/
theorem exec_lost (i : Instr) {s : State} (hb : s.busy = true) (hl : s.lead = .steps 0) :
    exec i s = .next { s with flags := { s.flags with lost := true } } := by
  rw [exec_busy i hb, advance_zero (s := lostIssue s) hl]
  rfl

/-- Settles O22: legal or not, the word is lost, and the flag LOST is one the engine does not see. -/
theorem issueWhileBusyIsLost : Obligations.IssueWhileBusyIsLost := by
  refine ⟨fun i s hb hl => exec_lost i hb hl, fun w s hb hl => ?_, engineRun_lost⟩
  cases hd : decode w with
  | some i => rw [issueWord_command hd, exec_lost i hb hl]
  | none =>
    simp only [issueWord, hd, issueIllegal, hb, if_true]
    rw [advance_zero (s := lostIssue s) hl]
    rfl

/-! ## NOP -/

/-- Settles O21: NOP is acceptance and completion, and the word with VAR = 1 has no row in the opcode map. -/
theorem nopCompletesAtOnce : Obligations.NopCompletesAtOnce :=
  ⟨fun _ hidle => exec_nop hidle, by decide⟩

/-! ## Operand writes -/

/-- The operand registers with the low bits of `v` in register `r`. -/
def OperandRegs.put (r : RegName) (v : Word) (o : OperandRegs) : OperandRegs :=
  match r with
  | .srcAddr => { o with srcAddr := v }
  | .dstAddr => { o with dstAddr := v }
  | .workAddr => { o with workAddr := v }
  | .len => { o with len := v }
  | .width => { o with width := v.setWidth 16 }
  | .height => { o with height := v.setWidth 16 }
  | .radius => { o with radius := v.setWidth 8 }
  | .steps => { o with steps := v.setWidth 8 }
  | .amount => { o with amount := v.setWidth 16 }
  | .threshold => { o with threshold := v.setWidth 16 }
  | .lineLen => { o with lineLen := v.setWidth 16 }
  | .lineStride => { o with lineStride := v.setWidth 16 }
  | .id | .version | .caps | .ctrl | .status | .cmd | .errAddr | .pos | .wsum | .insum | .outsum | .sp | .wstore _ | .map _ => o

/-- A write of an operand register changes the operand registers alone (R58). -/
theorem writeReg_operand {r : RegName} (hr : r ∈ [RegName.srcAddr, .dstAddr, .workAddr, .len, .width, .height, .radius, .steps,
      .amount, .threshold, .lineLen, .lineStride]) (v : Word) (s : State) :
    writeReg r v s = { s with ops := s.ops.put r v } := by
  cases r with
  | id | version | caps | ctrl | status | cmd | errAddr | pos | wsum | insum | outsum | sp | wstore k | map k => simp at hr
  | _ => rfl

/-- A command that passes its checks, with a footprint the model does not stop on and no engine step after its CMD write, is
started (R400). -/
theorem exec_started {i : Instr} {s : State} (hn : i ≠ .nop) (hidle : s.inflight = none) (hl : s.lead = .steps 0)
    (hc : expectedError i s.ops s.win s.plat = none)
    (hfoot : ∀ a ∈ (s.footprint i).reads ++ (s.footprint i).writes, s.plat.inWindow a = false ∧ s.plat.inDevice a = false) :
    exec i s = .next (start i (planOf i s.ops s.win s.plat) (accept (encode i) s)) := by
  have hnext : ∃ t, exec i s = .next t := by
    rcases exec_idle_cases i hidle with ⟨e, t, -, ht⟩ | ⟨-, ⟨a, ha, hw⟩, -⟩ | ⟨-, -, ⟨a, ha, hd⟩, -⟩ | ⟨-, -, ht⟩
    · exact ⟨t, ht⟩
    · simp [(hfoot a ha).1] at hw
    · simp [(hfoot a ha).2] at hd
    · exact ht
  obtain ⟨t, ht⟩ := hnext
  rw [ht, exec_eq_advance_issued ht, advance_zero ((issued_lead i s).trans hl), issued_of_passes hn hidle hc]

/-- Settles O52: acceptance is `start`, and a write of an operand register is a change of the operand registers alone, which the
engine does not see. -/
theorem operandWritesDoNotTouchTheCommandInFlight : Obligations.OperandWritesDoNotTouchTheCommandInFlight := by
  refine ⟨fun i s hn hidle hl hc hfoot => ?_, fun n r v s hr => ?_⟩
  · rw [exec_started hn hidle hl hc hfoot]
    exact ⟨_, rfl, rfl, planOf_foot i s.ops s.win s.plat, rfl⟩
  · rw [writeReg_operand hr, writeReg_operand hr, engineRun_withOps n s (OperandRegs.put r v)]

end Sys2Proof.Machine
end

