-- ==== Sys2Proof/Proofs/ImageBusErrors.lean ====
section
/-! PROOF. A whole-image command with a byte that it must access and that does not answer ends with E_BUSERR (R431, R75): the
step that accesses the byte stays pending in every order until the command fails, there or earlier. -/

namespace Sys2Proof.Machine

/-! ## The steps that access a byte -/

/-- Some step of the lines accesses byte `b`, whatever the step works on. -/
def LinesAccess (lines : List (List MicroOp)) (b : Nat) : Prop := ∃ ops ∈ lines, ∃ op ∈ ops, op.static = some b

/-- One of `n` lines of a phase, written out by its number. -/
theorem linesAccess_of_line {n q b : Nat} {g : Nat → List MicroOp} {op : MicroOp} (hq : q < n) (hop : op ∈ g q)
    (hb : op.static = some b) : LinesAccess ((List.range n).map g) b :=
  ⟨g q, List.mem_map_of_mem (List.mem_range.2 hq), op, hop, hb⟩

/-- The copy reads every byte of the source (R301). -/
theorem copyLines_access_src {src dst n b : Nat} (hb : b ∈ span src n) : LinesAccess (copyLines src dst n) b := by
  obtain ⟨q, hq, rfl⟩ := mem_span.1 hb
  exact linesAccess_of_line hq List.mem_cons_self rfl

/-- The copy writes every byte of the destination (R301). -/
theorem copyLines_access_dst {src dst n b : Nat} (hb : b ∈ span dst n) : LinesAccess (copyLines src dst n) b := by
  obtain ⟨q, hq, rfl⟩ := mem_span.1 hb
  exact linesAccess_of_line (op := .store (dst + q)) hq (by simp) rfl

/-- GREY reads every colour byte (R352). -/
theorem greyLines_access_src {src dst n b : Nat} (hb : b ∈ colourAddrs src n) : LinesAccess (greyLines src dst n) b := by
  obtain ⟨q, hq, c, hc, rfl⟩ := mem_colourAddrs.1 hb
  have hlane : c = 0 ∨ c = 1 ∨ c = 2 := by omega
  rcases hlane with rfl | rfl | rfl
  · exact linesAccess_of_line (op := .loadRed (src + 4 * q)) hq (by simp) rfl
  · exact linesAccess_of_line (op := .loadGreen (src + 4 * q + 1)) hq (by simp) rfl
  · exact linesAccess_of_line (op := .loadBlue (src + 4 * q + 2)) hq (by simp) rfl

/-- GREY writes every luma byte (R352). -/
theorem greyLines_access_dst {src dst n b : Nat} (hb : b ∈ span dst n) : LinesAccess (greyLines src dst n) b := by
  obtain ⟨q, hq, rfl⟩ := mem_span.1 hb
  exact linesAccess_of_line (op := .storeLuma (dst + q)) hq (by simp) rfl

/-- Every byte of WORK is a luma byte of its first half or a blurred one of its second. -/
theorem mem_span_halves {base n b : Nat} (hb : b ∈ span base (2 * n)) : b ∈ span base n ∨ b ∈ span (base + n) n := by
  obtain ⟨q, hq, rfl⟩ := mem_span.1 hb
  rcases Nat.lt_or_ge q n with h | h
  · exact .inl (mem_span.2 ⟨q, h, rfl⟩)
  · exact .inr (mem_span.2 ⟨q - n, by omega, by omega⟩)

/-- DIFFTHR reads every byte of WORK (R355). -/
theorem diffthrLines_access_work {src work n b : Nat} (hb : b ∈ span work (2 * n)) :
    LinesAccess (diffthrLines src work n) b := by
  rcases mem_span_halves hb with h | h <;> obtain ⟨q, hq, rfl⟩ := mem_span.1 h
  · exact linesAccess_of_line hq List.mem_cons_self rfl
  · exact linesAccess_of_line (op := .loadBlurred (work + n + q) (src + 4 * q)) hq (by simp) rfl

/-- Every byte of the footprint of a whole-image command is accessed, but for DIFFTHR's colour bytes, which depend on the
threshold (R301, R352, R355, R358). -/
theorem image_access {i : Instr} {s : State} {b : Nat} (hi : isImage i = true)
    (hb : b ∈ (s.footprint i).reads ++ (s.footprint i).writes)
    (hwork : i = .diffthr → b ∈ span s.ops.work (2 * s.ops.n)) :
    ∃ lines ∈ (planOf i s.ops s.win s.plat).prog, LinesAccess lines b := by
  cases i with
  | nop | mapgen | winitT | winitU | slideT | slideU => cases hi
  | blurT | blurU =>
    refine ⟨_, List.mem_cons_self, ?_⟩
    rcases List.mem_append.1 hb with h | h
    · exact (List.mem_append.1 h).elim copyLines_access_src copyLines_access_dst
    · exact copyLines_access_dst h
  | grey =>
    exact ⟨_, List.mem_cons_self, (List.mem_append.1 hb).elim greyLines_access_src greyLines_access_dst⟩
  | diffthr => exact ⟨_, List.mem_cons_self, diffthrLines_access_work (hwork rfl)⟩
  | unsharp =>
    have hfoot : b ∈ colourAddrs s.ops.src s.ops.n ++ span s.ops.work (2 * s.ops.n) :=
      (List.mem_append.1 hb).elim id id
    rcases List.mem_append.1 hfoot with h | h
    · exact ⟨_, List.mem_cons_self, greyLines_access_src h⟩
    · rcases mem_span_halves h with h | h
      · exact ⟨_, List.mem_cons_self, greyLines_access_dst h⟩
      · exact ⟨_, List.mem_cons_of_mem _ List.mem_cons_self, copyLines_access_dst h⟩

/-- A step of the plan that accesses `b` is pending when the command starts. -/
theorem pending_willAccess {i : Instr} {s : State} {b : Nat} (hc : expectedError i s.ops s.win s.plat = none)
    (h : ∃ lines ∈ (planOf i s.ops s.win s.plat).prog, LinesAccess lines b) :
    Pending i s (Track.willAccess b) (startOf i s) := by
  obtain ⟨lines, hlines, ops, hops, op, hop, hb⟩ := h
  cases ops with
  | nil => cases hop
  | cons first later => exact pending_start hc ⟨lines, hlines, first, later, hops, op, hop, hb⟩

/-- A pixel of DIFFTHR is pending, at its start, when the command starts. -/
theorem pending_willCorrect {s : State} {q b : Nat} {luma : Byte}
    (hc : expectedError .diffthr s.ops s.win s.plat = none) (hq : q < s.ops.n) :
    Pending .diffthr s
      (Track.willCorrect (s.ops.work + q) (s.ops.work + s.ops.n + q) (s.ops.src + 4 * q) b luma) (startOf .diffthr s) :=
  pending_start hc ⟨_, List.mem_cons_self, _, _, List.mem_map_of_mem (List.mem_range.2 hq), .inr (.inl ⟨rfl, rfl⟩)⟩

/-! ## E_BUSERR -/

theorem Leaves.noError {i : Instr} {P : OperandRegs → Memory → Memory → Prop} (h : Leaves i P) (hi : isImage i = true)
    {s : State} (hr : Runs i s) : ∃ t, exec i s = .next t ∧ t.flags.err = false := by
  obtain ⟨t, hexec, ⟨ht, -⟩, -⟩ := h.completes hi hr
  exact ⟨t, hexec, by rw [ht]⟩

/-- A whole-image command that runs ends without an error. -/
theorem image_noError {i : Instr} (hi : isImage i = true) {s : State} (hr : Runs i s) :
    ∃ t, exec i s = .next t ∧ t.flags.err = false := by
  cases i with
  | nop | mapgen | winitT | winitU | slideT | slideU => cases hi
  | blurT => exact (blur_leaves .T).noError hi hr
  | blurU => exact (blur_leaves .U).noError hi hr
  | grey => exact grey_leaves.noError hi hr
  | diffthr => exact diffthr_leaves.noError hi hr
  | unsharp => exact unsharp_leaves.noError hi hr

/-- The luma and blurred luma bytes at WORK are not in DIFFTHR's write footprint. -/
theorem work_not_mem_writes {s : State} (hc : expectedError .diffthr s.ops s.win s.plat = none) {q : Nat}
    (hq : q < 2 * s.ops.n) : s.ops.work + q ∉ (s.footprint .diffthr).writes := by
  intro hmem
  obtain ⟨q', hq', c, hlt, he⟩ := mem_colourAddrs.1 hmem
  have hq' : q' < s.ops.n := hq'
  exact work_apart (.inl rfl) hc (4 * q' + c) (by omega) q hq (by rw [← Nat.add_assoc]; exact he)

/-- A pixel over the threshold, with a colour byte that does not answer, persists until it fails (R355). -/
theorem persists_pixel {s : State} (hc : expectedError .diffthr s.ops s.win s.plat = none) {q c : Nat} (hq : q < s.ops.n)
    (hlane : c < 3) (hbad : s.plat.memOk (s.ops.src + 4 * q + c) = false)
    (hex : exceeds (s.mem.read (s.ops.work + q)) (s.mem.read (s.ops.work + s.ops.n + q)) s.ops.threshold.toNat = true) :
    Persists (Pending .diffthr s (Track.willCorrect (s.ops.work + q) (s.ops.work + s.ops.n + q) (s.ops.src + 4 * q)
      (s.ops.src + 4 * q + c) (s.mem.read (s.ops.work + q)))) := by
  refine persists_willCorrect s _ _ _ _ hbad (by omega) (work_not_mem_writes hc (by omega)) ?_ hex
  rw [Nat.add_assoc]
  exact work_not_mem_writes hc (by omega)

/-- Settles O49: on the platform where exactly its footprint answers the command ends without an error, and here the step that
accesses `b` is pending until it fails. -/
theorem image_busError : Obligations.ImageBusError := by
  intro i s b himage hu hc hclear n src work hb hbad haccessed
  have hi : isImage i = true := by
    clear hc hclear hb haccessed
    revert i
    decide
  have hend : ∀ p, Runs i (s.onPlat p) → ∃ t, exec i (s.onPlat p) = .next t ∧ t.flags.err = false :=
    fun _ => image_noError hi
  have hstatic : (i = .diffthr → b ∈ span work (2 * n)) → _ := fun hwork =>
    exec_image_error hi hu hc hclear (persists_willAccess i s b hbad) (pending_willAccess hc (image_access hi hb hwork)) hend
  by_cases hd : i = .diffthr
  · subst hd
    rcases haccessed rfl with hwork | ⟨q, hq, c, hlane, rfl, hex⟩
    · exact hstatic fun _ => hwork
    · exact exec_image_error hi hu hc hclear (persists_pixel hc hq hlane hbad (decide_eq_true hex))
        (pending_willCorrect hc hq) hend
  · exact hstatic fun h => absurd h hd

end Sys2Proof.Machine
end

