-- ==== Sys2Proof/Proofs/LineBusErrors.lean ====
section
/-! PROOF. WINIT and SLIDE stop at the first access that does not answer (R431, R251): the steps before it run clean, and
`exec_line_error` says what the failing one leaves. What holds of both variants is proved once, over the variant. -/

namespace Sys2Proof.Machine

/-- Only which bytes count as written matters, not how they are listed. -/
theorem BusErrored.congr_done {word a : Word} {writes xs ys : List Nat} {s t : State}
    (h : BusErrored word a writes xs s t) (hmem : ∀ b, b ∈ xs ↔ b ∈ ys) : BusErrored word a writes ys s t := by
  obtain ⟨ht, horder, hover⟩ := h
  exact ⟨ht, horder, fun b => by rw [hover, hmem]⟩

/-- A list of `n` numbers, cut at number `k`. -/
theorem range_eq_append_cons {k n : Nat} (hk : k < n) :
    List.range n = List.range k ++ k :: List.range' (k + 1) (n - (k + 1)) := by
  have hsplit : n = k + (n - (k + 1) + 1) := by omega
  conv_lhs => rw [hsplit, List.range_eq_range', ← List.range'_append_1, List.range'_succ, ← List.range_eq_range']
  simp

/-! ## WINIT -/

/-- The steps of WINIT, cut at the read of sample `k`. -/
theorem winitSteps_split (var : Variant) (base L s : Nat) {r k : Nat} (hk : k < 2 * r + 1) :
    ∃ ys, winitSteps var base L s r
      = (List.range k).map (fun j => .sample var r (sampleOffset r j) (base + clampIndex L (sampleOffset r j) * s))
        ++ .sample var r (sampleOffset r k) (base + clampIndex L (sampleOffset r k) * s) :: ys := by
  rw [winitSteps, diameter, range_eq_append_cons hk, List.map_append, List.map_cons]
  simp only [List.append_assoc, List.cons_append]
  exact ⟨_, rfl⟩

/-- The reads of WINIT before sample `k` run and change neither memory nor the window (R254). -/
theorem runs_samples (o : OperandRegs) (rd wr : Nat → Prop) (var : Variant) (r : Nat) (addr : Nat → Nat) (c : Work)
    (hl : c.vars.latch.Empty) (k : Nat) (hrd : ∀ j < k, rd (addr j)) :
    ∃ l, Work.Runs o rd wr c ((List.range k).map (fun j => .sample var r (sampleOffset r j) (addr j)))
      ⟨c.mem, { c.vars with latch := l }⟩ := by
  have hstraight : ∀ op ∈ (List.range k).map (fun j => MicroOp.sample var r (sampleOffset r j) (addr j)),
      op.straight = true := by
    intro op hop
    obtain ⟨j, -, rfl⟩ := List.mem_map.1 hop
    rfl
  have hok := runOpsOk_map o rd wr (fun j => .sample var r (sampleOffset r j) (addr j)) (List.range k)
    (fun j hj _ => hrd j (List.mem_range.1 hj)) c
  have hrun := Work.Runs.of_straight hstraight c hok
  rw [runOps_samples o var r addr c hl k] at hrun
  exact ⟨_, hrun⟩

/-- WINIT ends at the first sample whose byte does not answer (R254, R431). -/
theorem exec_winit_error (var : Variant) {s : State} {k : Nat} (hu : Undisturbed s)
    (hc : expectedError (winitOf var) s.ops s.win s.plat = none) (hclear : Clear (s.footprint (winitOf var)) s) :
    let r := s.ops.radius.toNat
    let addr := fun j : Nat => s.ops.srcAddr.toNat + edge s.ops.lineLen.toNat ((j : Int) - r) * s.ops.lineStride.toNat
    k < 2 * r + 1 → (∀ j < k, s.plat.memOk (addr j) = true) → s.plat.memOk (addr k) = false →
    ∃ t, exec (winitOf var) s = .next t ∧ BusErrored (encode (winitOf var)) (BitVec.ofNat 32 (addr k)) [] [] s t
      ∧ t.mem = s.mem ∧ t.win.map = s.win.map ∧ RegsDrawn s t
      ∧ (∀ j, j < 2 * r + 1 → Drawn s t (t.win.wstore.get j))
      ∧ (∀ j, 2 * r + 1 ≤ j → t.win.wstore.get j = s.win.wstore.get j) ∧ t.order = s.order := by
  intro r addr hk hok hbad
  obtain ⟨ys, hsplit⟩ := winitSteps_split var s.ops.src s.ops.lineL s.ops.stride hk
  obtain ⟨l, hrun⟩ := runs_samples s.ops (s.plat.memOk · = true) (s.plat.memOk · = true) var r addr (lineWork s)
    Latch.empty_fresh k hok
  have hprog : (planOf (winitOf var) s.ops s.win s.plat).prog
      = [[winitSteps var s.ops.src s.ops.lineL s.ops.stride r]] := by cases var <;> rfl
  have hslots : (planOf (winitOf var) s.ops s.win s.plat).slots = List.range (2 * r + 1) := by cases var <;> rfl
  have hwrites : (s.footprint (winitOf var)).writes = [] := by cases var <;> rfl
  rw [hsplit] at hprog
  obtain ⟨t, hexec, hbus, hmem, hmap, hregs, hdrawn, hkept, horder⟩ := exec_line_error (by cases var <;> nofun)
    (by cases var <;> rfl) hu hc hclear hprog hrun (fun _ => or_self_iff.1) (.inl rfl) hbad
  rw [hwrites] at hbus
  rw [hslots] at hdrawn hkept
  exact ⟨t, hexec, hbus, hmem, hmap, hregs, fun j hj => hdrawn j (List.mem_range.2 hj),
    fun j hj => hkept j (by simpa using hj), horder⟩

/-- Settles O47, for both variants. -/
theorem winitBusError : Obligations.WinitBusError := by
  intro i s k hi hu hc hclear
  rcases hi with rfl | rfl
  · exact exec_winit_error .T hu hc hclear
  · exact exec_winit_error .U hu hc hclear

/-! ## The parts of a step of SLIDE -/

/-- The updates between the write and the read of a step (R259, R260). -/
def slideDrops (var : Variant) (r : Nat) : List MicroOp :=
  match var with
  | .T => [.dropLeft, .dropLeaving r]
  | .U => [.dropLeaving r, .dropSample r]

/-- The read of step `i`. -/
def slideTake (var : Variant) (src L s r i : Nat) : MicroOp :=
  match var with
  | .T => .takeMapped i src
  | .U => .take (src + enteringIndex L r i * s)

/-- The updates after the read of step `i`. -/
def slideTail (var : Variant) (r i : Nat) : List MicroOp :=
  match var with
  | .T => [.enterSlot r, .enterInsum, .addRight, .advanceSp r, .centreOut, .centreIn, .setPos (i + 1)]
  | .U => [.enterSlot r, .enterInsum, .addSample, .advanceSp r, .centreOut, .centreIn, .setPos (i + 1)]

theorem slideStep_eq (var : Variant) (src dst L s r i : Nat) :
    slideStep var src dst L s r i
      = (.emit var r (dst + i * s) :: slideDrops var r) ++ slideTake var src L s r i :: slideTail var r i := by
  cases var <;> rfl

theorem slideTake_access (var : Variant) (src L s r i : Nat) (v : Vars) :
    (slideTake var src L s r i).access v = .read (slideReads var src L s r (fun j => (v.map.get j).toNat) i) := by
  cases var <;> rfl

/-- From its read on, a step stores nothing. -/
theorem stores_slideTake_slideTail (var : Variant) (src L s r i : Nat) :
    (slideTake var src L s r i :: slideTail var r i).flatMap MicroOp.stores = [] := by
  cases var <;> rfl

/-- Each step stores its output byte. -/
theorem stores_slideStep (var : Variant) (src dst L s r i : Nat) :
    (slideStep var src dst L s r i).flatMap MicroOp.stores = [dst + i * s] := by
  cases var <;> rfl

theorem stores_slideSteps (var : Variant) (src dst L s r : Nat) (steps : List Nat) :
    (steps.flatMap (slideStep var src dst L s r)).flatMap MicroOp.stores = steps.map (fun i => dst + i * s) := by
  rw [List.flatMap_assoc]
  simp only [stores_slideStep, List.map_eq_flatMap]

/-- The steps of SLIDE, cut before step `k` and after it. -/
theorem slideSteps_split (var : Variant) (src dst L s r : Nat) {k : Nat} (hk : k < L) :
    slideSteps var src dst L s r = (List.range k).flatMap (slideStep var src dst L s r)
      ++ (slideStep var src dst L s r k ++ (List.range' (k + 1) (L - (k + 1))).flatMap (slideStep var src dst L s r)) := by
  rw [slideSteps, range_eq_append_cons hk, List.flatMap_append, List.flatMap_cons]

/-- The write and the two updates before the read leave WSTORE and MAP. -/
theorem runOps_emit_slideDrops (o : OperandRegs) (var : Variant) (r a : Nat) (c : Work) :
    let d := c.runOps o (.emit var r a :: slideDrops var r)
    d.mem = c.stored (.emit var r a) ∧ d.vars.map = c.vars.map ∧ d.vars.regs.wstore = c.vars.regs.wstore := by
  cases var <;> exact ⟨rfl, rfl, rfl⟩

theorem runs_emit_slideDrops (o : OperandRegs) (rd wr : Nat → Prop) (var : Variant) (r a : Nat) (c : Work) (ha : wr a) :
    Work.Runs o rd wr c (.emit var r a :: slideDrops var r) (c.runOps o (.emit var r a :: slideDrops var r)) := by
  cases var <;> exact .step ha (.step trivial (.step trivial (.done _)))

/-! ## The slots that SLIDE writes -/

/-- A step writes the trailing slot. -/
theorem stepAt_ws (var : Variant) (rd : Nat → Nat) (dst s r : Nat) (c : LineRef) (i : Nat) :
    ∃ v, (LineRef.stepAt var rd dst s r c i).ws = changed c.ws ((c.sp + r + 1) % (2 * r + 1)) v := by
  cases var <;> exact ⟨_, rfl⟩

/-- A step advances the pointer. -/
theorem stepAt_sp (var : Variant) (rd : Nat → Nat) (dst s r : Nat) (c : LineRef) (i : Nat) :
    (LineRef.stepAt var rd dst s r c i).sp = (c.sp + 1) % (2 * r + 1) := by
  cases var <;> rfl

/-- The first `k` steps advance the pointer by `k` and write the `k` slots from the trailing one on (R251, R257). -/
theorem foldl_stepAt_slots (var : Variant) (rd : Nat → Nat) (dst s r : Nat) (c : LineRef) (k : Nat) :
    let t := (List.range k).foldl (LineRef.stepAt var rd dst s r) c
    t.sp ≡ c.sp + k [MOD 2 * r + 1] ∧ ∀ e, (∀ j < k, e ≠ (c.sp + r + 1 + j) % (2 * r + 1)) → t.ws e = c.ws e := by
  induction k with
  | zero => exact ⟨rfl, fun _ _ => rfl⟩
  | succ k ih =>
    obtain ⟨hsp, hws⟩ := ih
    rw [List.range_succ, List.foldl_append]
    generalize (List.range k).foldl (LineRef.stepAt var rd dst s r) c = t at hsp hws ⊢
    simp only [List.foldl_cons, List.foldl_nil]
    refine ⟨?_, fun e he => ?_⟩
    · rw [stepAt_sp]
      exact (Nat.mod_modEq _ _).trans (hsp.add_right 1)
    · have htrailing : (t.sp + r + 1) % (2 * r + 1) = (c.sp + r + 1 + k) % (2 * r + 1) := by
        rw [Nat.add_assoc, Nat.add_assoc c.sp, Nat.add_right_comm]
        exact hsp.add_right (r + 1)
      obtain ⟨v, hv⟩ := stepAt_ws var rd dst s r t k
      rw [hv, changed, htrailing, if_neg (he k (Nat.lt_succ_self k))]
      exact hws e fun j hj => he j (Nat.lt_succ_of_lt hj)

/-! ## SLIDE -/

/-- The `j`th slot that the SLIDE of state `s` writes. -/
def State.slideSlot (s : State) (j : Nat) : Nat := (s.win.sp.toNat + s.ops.r + 1 + j) % (2 * s.ops.r + 1)

/-- The first `n` writes of the SLIDE of state `s`. -/
def State.slideWrites (s : State) (n : Nat) : List Nat := lineAddrs s.ops.dst n s.ops.stride

/-- The first steps `xs` of the SLIDE of state `s` run to `c` on bytes that answer, and leave MAP and the slots SLIDE does not
write. -/
structure SlideReaches (s : State) (xs : List MicroOp) (c : Work) : Prop where
  runs : Work.Runs s.ops (s.plat.memOk · = true) (s.plat.memOk · = true) (lineWork s) xs c
  map : c.vars.map = s.win.map
  kept : ∀ e, (∀ j < s.ops.lineL, e ≠ s.slideSlot j) → c.vars.regs.wstore.get e = s.win.wstore.get e

/-- While their accesses answer, the first `k` steps leave the numbers of the pseudocode. -/
theorem exists_slideReaches (var : Variant) {s : State} {k : Nat} (hk : k < s.ops.lineL)
    (hok : ∀ j < k, s.plat.memOk (s.ops.dst + j * s.ops.stride) = true ∧ s.plat.memOk (s.slideRead var j) = true) :
    ∃ c, SlideReaches s ((List.range k).flatMap (slideStep var s.ops.src s.ops.dst s.ops.lineL s.ops.stride s.ops.r)) c
      ∧ LineRef.ofWork c = LineRef.slide var s k := by
  have hlen : s.ops.lineL < 65536 := s.ops.lineLen.isLt
  have hrun := runs_slideSteps s.ops (s.plat.memOk · = true) (s.plat.memOk · = true) var s.ops.src s.ops.dst s.ops.lineL
    s.ops.stride s.ops.r k s.ops.radius.isLt (by omega) (lineWork s) (fun j hj => (hok j hj).1) (fun j hj => (hok j hj).2)
  obtain ⟨hnumbers, hmap⟩ := runOps_slideSteps s.ops var s.ops.src s.ops.dst s.ops.lineL s.ops.stride s.ops.r k
    s.ops.radius.isLt (by omega) (lineWork s)
  obtain ⟨-, hslots⟩ := foldl_stepAt_slots var (s.slideRead var) s.ops.dst s.ops.stride s.ops.r (LineRef.of s) k
  have hslide := hnumbers.trans (slide_eq_foldl_stepAt var s k).symm
  rw [← slide_eq_foldl_stepAt, ← hslide] at hslots
  exact ⟨_, ⟨hrun, hmap, fun e he => BitVec.eq_of_toNat_eq (hslots e fun j hj => he j (hj.trans hk))⟩, hslide⟩

/-- A write that answers, and the two updates after it, leave memory as part 1 of the pseudocode's step does. -/
theorem SlideReaches.emit {s : State} {xs : List MicroOp} {c : Work} (h : SlideReaches s xs c) (var : Variant) {a : Nat}
    (ha : s.plat.memOk a = true) :
    ∃ d, SlideReaches s (xs ++ .emit var s.ops.r a :: slideDrops var s.ops.r) d
      ∧ (fun b => (d.mem.read b).toNat)
        = changed (LineRef.ofWork c).mem a ((LineRef.ofWork c).wsum / kernelDivisor var s.ops.r % 256) := by
  obtain ⟨hmem, hmap, hws⟩ := runOps_emit_slideDrops s.ops var s.ops.r a c
  refine ⟨_, ⟨h.runs.append (runs_emit_slideDrops s.ops _ _ var s.ops.r a c ha), hmap.trans h.map,
    fun e he => hws ▸ h.kept e he⟩, ?_⟩
  rw [hmem]
  exact emit_numbers c var s.ops.r a

/-- The bytes that count as written when the writes from number `n` on are still to come are those of the first `n`. -/
theorem mem_writes_done {base L s n b : Nat} (hs : 0 < s) (hn : n ≤ L) :
    b ∈ (lineAddrs base L s).filter (fun b => !((List.range' n (L - n)).map (fun j => base + j * s)).contains b)
      ↔ b ∈ lineAddrs base n s := by
  have hinj : ∀ i j, base + i * s = base + j * s → i = j := fun i j h =>
    Nat.eq_of_mul_eq_mul_right hs (Nat.add_left_cancel h)
  simp only [List.mem_filter, mem_lineAddrs, Bool.not_eq_true', List.contains_eq_mem, decide_eq_false_iff_not, List.mem_map,
    List.mem_range'_1]
  constructor
  · rintro ⟨⟨j, hj, rfl⟩, hnot⟩
    exact ⟨j, Nat.lt_of_not_le fun hle => hnot ⟨j, ⟨hle, by omega⟩, rfl⟩, rfl⟩
  · rintro ⟨j, hj, rfl⟩
    refine ⟨⟨j, by omega, rfl⟩, fun ⟨i, ⟨hi, _⟩, he⟩ => ?_⟩
    have := hinj i j he
    omega

/-- What the SLIDE of state `s` leaves but memory when the access at `a` does not answer after `n` writes (R251, R431). -/
def SlideErrored (var : Variant) (a n : Nat) (s t : State) : Prop :=
  BusErrored (encode (slideOf var)) (BitVec.ofNat 32 a) (s.slideWrites s.ops.lineL) (s.slideWrites n) s t
  ∧ t.win.map = s.win.map ∧ RegsDrawn s t
  ∧ (∀ j < s.ops.lineL, Drawn s t (t.win.wstore.get (s.slideSlot j)))
  ∧ (∀ e, (∀ j < s.ops.lineL, e ≠ s.slideSlot j) → t.win.wstore.get e = s.win.wstore.get e) ∧ t.order = s.order

section Slide

variable {var : Variant} {s : State} (hu : Undisturbed s) (hc : expectedError (slideOf var) s.ops s.win s.plat = none)
  (hclear : Clear (s.footprint (slideOf var)) s)
include hu hc hclear

/-- SLIDE ends at the access of step `op` that does not answer, if the steps from it on store the bytes of the writes from
number `n` on. -/
theorem exec_slide_error {xs ys : List MicroOp} {op : MicroOp} {d : Work} {a n : Nat} (hn : n ≤ s.ops.lineL)
    (hsplit : slideSteps var s.ops.src s.ops.dst s.ops.lineL s.ops.stride s.ops.r = xs ++ op :: ys)
    (hstores : (op :: ys).flatMap MicroOp.stores
      = (List.range' n (s.ops.lineL - n)).map (fun j => s.ops.dst + j * s.ops.stride))
    (hreach : SlideReaches s xs d) (ha : op.access d.vars = .read a ∨ ∃ v, op.access d.vars = .write a v)
    (hbad : s.plat.memOk a = false) :
    ∃ t, exec (slideOf var) s = .next t ∧ SlideErrored var a n s t ∧ t.mem = d.mem := by
  have hprog : (planOf (slideOf var) s.ops s.win s.plat).prog
      = [[slideSteps var s.ops.src s.ops.dst s.ops.lineL s.ops.stride s.ops.r]] := by cases var <;> rfl
  have hslots : (planOf (slideOf var) s.ops s.win s.plat).slots = (List.range s.ops.lineL).map s.slideSlot := by
    cases var <;> rfl
  have hwrites : (s.footprint (slideOf var)).writes = s.slideWrites s.ops.lineL := by cases var <;> rfl
  have hstride : 0 < s.ops.stride := (line_dims hc (by cases var <;> decide)).2
  rw [hsplit] at hprog
  obtain ⟨t, hexec, hbus, hmem, hmap, hregs, hdrawn, hother, horder⟩ := exec_line_error (by cases var <;> nofun)
    (by cases var <;> rfl) hu hc hclear hprog hreach.runs (fun _ => or_self_iff.1) ha hbad
  rw [hwrites, hstores] at hbus
  rw [hslots] at hdrawn hother
  refine ⟨t, hexec, ⟨hbus.congr_done fun b => mem_writes_done hstride hn, hmap.trans hreach.map, hregs,
    fun j hj => hdrawn _ (List.mem_map_of_mem (List.mem_range.2 hj)), fun e he => ?_, horder⟩, hmem⟩
  rw [hother e, hreach.kept e he]
  intro hslot
  obtain ⟨j, hj, rfl⟩ := List.mem_map.1 hslot
  exact he j (List.mem_range.1 hj) rfl

variable {k : Nat} (hk : k < s.ops.lineL)
  (hok : ∀ j < k, s.plat.memOk (s.ops.dst + j * s.ops.stride) = true ∧ s.plat.memOk (s.slideRead var j) = true)
include hk hok

/-- The write of step `k` does not answer: memory is as the steps before it left it. -/
theorem exec_slide_write_error (hbad : s.plat.memOk (s.ops.dst + k * s.ops.stride) = false) :
    ∃ t, exec (slideOf var) s = .next t ∧ SlideErrored var (s.ops.dst + k * s.ops.stride) k s t
      ∧ ∀ a, (t.mem.read a).toNat = (LineRef.slide var s k).mem a := by
  obtain ⟨c, hreach, hnumbers⟩ := exists_slideReaches var hk hok
  have hstores := stores_slideSteps var s.ops.src s.ops.dst s.ops.lineL s.ops.stride s.ops.r
    (k :: List.range' (k + 1) (s.ops.lineL - (k + 1)))
  have hpending : k :: List.range' (k + 1) (s.ops.lineL - (k + 1)) = List.range' k (s.ops.lineL - k) := by
    rw [← List.range'_succ]
    congr 1
    omega
  have hsplit := slideSteps_split var s.ops.src s.ops.dst s.ops.lineL s.ops.stride s.ops.r hk
  rw [List.flatMap_cons, hpending] at hstores
  rw [slideStep_eq] at hstores hsplit
  obtain ⟨t, hexec, herrored, hmem⟩ :=
    exec_slide_error hu hc hclear (le_of_lt hk) hsplit hstores hreach (.inr ⟨_, rfl⟩) hbad
  exact ⟨t, hexec, herrored, fun a => hmem ▸ congrFun (congrArg LineRef.mem hnumbers) a⟩

/-- The write of step `k` answers and its read does not: memory is as that write left it. -/
theorem exec_slide_read_error (hwrite : s.plat.memOk (s.ops.dst + k * s.ops.stride) = true)
    (hbad : s.plat.memOk (s.slideRead var k) = false) :
    ∃ t, exec (slideOf var) s = .next t ∧ SlideErrored var (s.slideRead var k) (k + 1) s t
      ∧ ∀ a, (t.mem.read a).toNat
        = ((LineRef.slide var s k).emit var s.ops.dst s.ops.stride s.ops.r k).mem a := by
  obtain ⟨c, hreach, hnumbers⟩ := exists_slideReaches var hk hok
  obtain ⟨d, hreachD, hmemD⟩ := hreach.emit var hwrite
  have hsplit := slideSteps_split var s.ops.src s.ops.dst s.ops.lineL s.ops.stride s.ops.r hk
  rw [slideStep_eq, List.append_assoc, ← List.append_assoc, List.cons_append] at hsplit
  obtain ⟨t, hexec, herrored, hmem⟩ := exec_slide_error hu hc hclear hk hsplit
    (by rw [← List.cons_append, List.flatMap_append, stores_slideTake_slideTail, List.nil_append, stores_slideSteps])
    hreachD (.inl (by rw [slideTake_access, hreachD.map]; rfl)) hbad
  refine ⟨t, hexec, herrored, fun a => ?_⟩
  rw [hmem, ← hnumbers]
  exact congrFun hmemD a

end Slide

/-- Settles O48, for both variants: the steps before `k` run clean, and the pseudocode's fold says what they left of memory. -/
theorem slideBusError : Obligations.SlideBusError := by
  intro i s k hi hu hc hclear
  rcases hi with rfl | rfl
  · exact fun hk hok => ⟨exec_slide_write_error (var := .T) hu hc hclear hk hok,
      exec_slide_read_error (var := .T) hu hc hclear hk hok⟩
  · exact fun hk hok => ⟨exec_slide_write_error (var := .U) hu hc hclear hk hok,
      exec_slide_read_error (var := .U) hu hc hclear hk hok⟩

end Sys2Proof.Machine
end

