-- ==== Sys2Proof/Proofs/Exceptions.lean ====
section
/-! PROOF. How a command ends: a precise error of its first failing check (R432, R434), DONE, or E_BUSERR (R430, R437); what
error reporting writes (R433), and the interrupt over the flags (R436). -/

namespace Sys2Proof.Machine

/-- Settles O24, by definition. -/
theorem errorReportingWritesOnlyItsFour : Obligations.ErrorReportingWritesOnlyItsFour := fun _ _ _ => rfl

/-- Settles O16: the bits STATUS and CTRL read in are the flags and their enables. -/
theorem interruptIsAnEnabledFlag : Obligations.InterruptIsAnEnabledFlag := by
  intro s
  obtain ⟨-, hdone, herr, hlost, -⟩ := statusWord_fields s
  obtain ⟨hdoneIE, herrIE, hlostIE, -⟩ := ctrlWord_bits s
  rw [hdone, herr, hlost, hdoneIE, herrIE, hlostIE]
  rfl

/-! ## How a started command goes on -/

/-- E_BUSERR draws: the window registers at least become unspecified (R75, R251). -/
theorem busError_draws_lt (f : InFlight) (a : Nat) (s : State) : s.draws < (busError f a s).draws := by
  unfold busError
  split
  · exact Nat.lt_of_le_of_lt (releaseUnspecified_draws_le f s) (by simp [imageBusError])
  · refine Nat.lt_of_le_of_lt (release_draws_le f s) ?_
    rw [lineBusError, raiseError_draws, scrambleSlots_draws, scrambleRegs_draws]
    omega

/-- What an idle engine's started command is at the host's next step: on its way with its flags as acceptance left them, done, or
ended by E_BUSERR with values drawn. -/
inductive StartOutcome (s t : State) : Prop where
  | running (hbusy : t.inflight ≠ none) (hflags : t.flags = s.flags.accepted)
  | completed (hflags : t.flags = s.flags.accepted.completed) (haddr : t.errAddr = 0)
  | failed (hflags : t.flags = s.flags.accepted.failed .busErr) (hdraws : s.draws < t.draws)

/-- The run up to the host's next step is on the way or has ended. -/
theorem going_advance {f : InFlight} {s : State} (hf : s.inflight = some f) : Going f s (advance s) := by
  unfold advance
  split <;> exact going_engineRun hf _

theorem start_outcome (i : Instr) (p : Plan) (s : State) : StartOutcome s (advance (start i p (accept (encode i) s))) := by
  rcases going_advance (s := start i p (accept (encode i) s)) rfl with ⟨todo, hway⟩ | ⟨-, todo, u, hdraws, hframe, hend⟩
  · exact .running (by rw [hway.inflight]; nofun) hway.frame.flags
  · have hflags : u.flags = s.flags.accepted := hframe.flags
    generalize advance _ = t at hend
    cases hend with
    | completed => exact .completed (by rw [complete_flags, hflags]) (by rw [complete_errAddr]; exact hframe.errAddr)
    | failed a =>
      exact .failed (by rw [busError_frame, ← hflags]) (Nat.lt_of_le_of_lt hdraws (busError_draws_lt _ a u))

/-! ## The acceptance checks -/

/-- A command whose check fails is refused with that error, precisely (R432, R434). -/
theorem exec_error {i : Instr} {s : State} {e : ErrCode} (hidle : s.inflight = none)
    (he : expectedError i s.ops s.win s.plat = some e) : exec i s = .next (failedAt (encode i) e s) := by
  have hn : i ≠ .nop := by
    rintro rfl
    cases he
  have hbusy : s.busy = false := by simp [State.busy, hidle]
  rw [exec_eq_issue i s hn, issue, hbusy, planOf_check, he, ← raiseError_accept _ (expectedError_legal he).2 hidle]
  rfl

/-- A command whose checks pass is not refused with an error: it has raised none, or E_BUSERR has drawn values. -/
theorem exec_ne_failedAt {i : Instr} {s : State} (hidle : s.inflight = none)
    (hc : expectedError i s.ops s.win s.plat = none) (e : ErrCode) : exec i s ≠ .next (failedAt (encode i) e s) := by
  intro h
  by_cases hn : i = .nop
  · subst hn
    rw [exec_nop hidle] at h
    exact absurd (congrArg (fun t => t.flags.err) (Host.Outcome.next.inj h)) nofun
  · rcases exec_idle hidle hn h with ⟨e', he', -⟩ | ⟨-, ht⟩
    · exact absurd (hc.symm.trans he') nofun
    · have houtcome := start_outcome i (planOf i s.ops s.win s.plat) s
      rw [← ht] at houtcome
      cases houtcome with
      | running hbusy => exact hbusy hidle
      | completed hflags => exact absurd (congrArg Flags.err hflags) nofun
      | failed _ hdraws => exact lt_irrefl _ hdraws

/-- Settles O23: the decoder's check comes first, then the command's own in the order of `expectedError`. -/
theorem acceptanceChecksInOrder : Obligations.AcceptanceChecksInOrder :=
  ⟨fun _ s hidle => ⟨fun hd => issueWord_illegal hd hidle, fun _ hd => issueWord_command hd s⟩,
    fun _ _ hidle => ⟨fun _ => exec_error hidle, exec_ne_failedAt hidle⟩⟩

/-! ## The end of an undisturbed command -/

/-- Settles O58: NOP is done, a failing check is a precise error, and a started command that is not disturbed has ended. -/
theorem aCommandEndsInDoneOrErr : Obligations.ACommandEndsInDoneOrErr := by
  intro i s t _ ⟨hidle, hlead⟩ h
  by_cases hn : i = .nop
  · subst hn
    rw [exec_nop hidle] at h
    cases h
    exact .inl ⟨rfl, rfl, rfl, rfl⟩
  · rcases exec_idle hidle hn h with ⟨e, he, rfl⟩ | ⟨-, rfl⟩
    · exact .inr ⟨rfl, rfl, (expectedError_legal he).1, rfl⟩
    · cases start_outcome i (planOf i s.ops s.win s.plat) s with
      | running hbusy => exact absurd (advance_ends (s := start i _ (accept (encode i) s)) hlead) hbusy
      | completed hflags haddr =>
        rw [hflags]
        exact .inl ⟨rfl, rfl, rfl, haddr⟩
      | failed hflags =>
        rw [hflags]
        exact .inr ⟨rfl, rfl, nofun, rfl⟩

end Sys2Proof.Machine
end

