-- ==== Sys2Proof/Proofs/ResetState.lean ====
section
/-! PROOF. The state a hardware reset leaves (R480, R481): its registers, and that it meets the invariant on every platform R8
allows. -/

namespace Sys2Proof.Machine

/-- Settles O19: `State.reset` holds the reset column of R50, one entry after another. -/
theorem resetRegisterValues : Obligations.ResetRegisterValues :=
  ⟨rfl, rfl, rfl, rfl, rfl, rfl, rfl, rfl, rfl, rfl, rfl, rfl⟩

/-- The platform at reset is legal: `Config.platform` scales, wraps or shifts each free parameter into its range in R8's table. -/
theorem configPlatform_wellFormed : Config.platform.wellFormed = true := by
  unfold Platform.wellFormed Platform.baseOk Platform.lineOk Platform.cacheOk Config.platform
  simp only [Bool.and_eq_true, beq_iff_eq, decide_eq_true_eq]
  omega

/-- Settles O56: the platform is legal, and nothing is stored, marked, flagged or in flight. -/
theorem resetMeetsTheInvariant : Obligations.ResetMeetsTheInvariant where
  plat := configPlatform_wellFormed
  mem := rfl
  wstore := rfl
  map := rfl
  code := by decide
  oneEnd := by decide
  errAddr _ := rfl
  dirty := List.forall_mem_nil _
  marked := List.forall_mem_nil _
  coherent _ := ⟨rfl, rfl, rfl⟩
  running := nofun

end Sys2Proof.Machine
end
